-- ==== Sys2Proof/Word.lean ====
section
/-! DEFINITION. The value types of the CSA20 core: the 20-bit Word, the 13-bit address register value and the BitVector
of any width (spec/00_scope.md R5-R7; spec/40_datapath_alu.md R130). -/

namespace Sys2Proof

/-- "Word: BitVector fixed at 20 bits": instructions, memory cells, general registers, IR, MSR, MBR (R5, R130). -/
abbrev Word := BitVec 20

/-- The 13 bits of PC, MAR and each index register (R5). -/
abbrev Addr := BitVec 13

/-- A BitVector: a width and a pattern of that many bits (R7, R130). Legal widths are 1..64 (`BitVector.legal`). -/
structure BitVector where
  width : Nat
  bits  : BitVec width
deriving DecidableEq, Repr

/-- `uval(v)`: the unsigned reading (R7, R132). -/
def BitVector.uval (v : BitVector) : Nat := v.bits.toNat

/-- `sval(v)`: the twos-complement reading; `1 0…0` reads -2^(n-1) (R7, R132, D3). -/
def BitVector.sval (v : BitVector) : Int := v.bits.toInt

/-- A Word as a BitVector of width 20 (R130). -/
def BitVector.ofWord (w : Word) : BitVector := ⟨20, w⟩

/-- The legal widths, "size (1–64)" (R130). -/
abbrev BitVector.legal (v : BitVector) : Prop := 1 ≤ v.width ∧ v.width ≤ 64

end Sys2Proof
end

