-- ==== Sys2Proof/Config.lean ====
section
/-! DEFINITION. What an implementation of the CSA20 core fixes: the parameters of spec/00_scope.md R5, the constants it
takes from the source, the closed sets of faults and fatal reasons, and the free value (log 2 to 7, 15). -/

namespace Sys2Proof

/-- `BOOT_PC` = 10 (R5): "Program execution begins with PC set to address 10". -/
def Config.bootPc : Addr := 10

/-- `FAULT_ENTRY` = 43 (R5, D29): the machine-fault entry point every fault enters at. -/
def Config.faultEntry : Addr := 43

/-- `MEM_WORDS` = 2048 = 8 banks of 256 cells (R5). -/
def Config.memWords : Nat := 2048

/-- The three machine faults (R270), each with what it names. -/
inductive MachineFault where
  /-- "ILLEGAL_TRAP_CODE": in the taxonomy, raised by nothing (R273). -/
  | illegalTrapCode
  /-- "ILLEGAL_OPCODE (decoded opcode has no handler)": raised by E0 (R274). -/
  | illegalOpcode (op : BitVec 6)
  /-- ILLEGAL_MEMORY_ADDRESS(a): an access names an address above 2047 (R271). -/
  | illegalMemoryAddress (a : Nat)
deriving DecidableEq, Repr

/-- The reasons of a `Fatal` stop (R9). -/
inductive FatalReason where
  /-- A checked construction out of range (R131, R217). -/
  | range
  /-- The ALU started without both operands, or an absent result read (R148, R149). -/
  | missingOperand
  /-- An instruction names index register 0 as a target or source (D16). -/
  | undefinedRegister
  /-- A placeholder handler under `ARITH_POLICY = fail_fast` (R246). -/
  | notImplemented
deriving DecidableEq, Repr

/-- `OVERFLOW_RULE` (R5, D4). -/
inductive OverflowRule where
  | carryOut
  | signed
deriving DecidableEq, Repr

/-- `ARITH_POLICY` (R5, D24). -/
inductive ArithPolicy where
  | implement
  | failFast
deriving DecidableEq, Repr

/-- `OPCODE(m)`: the opcode number of each mnemonic (R5, R114, D27). -/
structure OpcodeMap where
  ldr : BitVec 6
  str : BitVec 6
  lda : BitVec 6
  amr : BitVec 6
  smr : BitVec 6
  air : BitVec 6
  sir : BitVec 6
  jne : BitVec 6
  jcc : BitVec 6
  sob : BitVec 6
  jge : BitVec 6
  ldx : BitVec 6
  stx : BitVec 6
deriving DecidableEq, Repr

/-- PRESUMED (log 6): the numbers of R114, which the spec takes from general knowledge. -/
def OpcodeMap.standard : OpcodeMap where
  ldr := 1
  str := 2
  lda := 3
  amr := 4
  smr := 5
  air := 6
  sir := 7
  jne := 9
  jcc := 10
  sob := 14
  jge := 15
  ldx := 33
  stx := 34

/-- The opcode numbers in R114's order. -/
def OpcodeMap.numbers (m : OpcodeMap) : List (BitVec 6) :=
  [m.ldr, m.str, m.lda, m.amr, m.smr, m.air, m.sir, m.jne, m.jcc, m.sob, m.jge, m.ldx, m.stx]

/-- No two mnemonics have one number: what makes a choice of `OPCODE` an encoding (R114). -/
abbrev OpcodeMap.Distinct (m : OpcodeMap) : Prop := m.numbers.Nodup

/-- `MFR_CODE(f)`: the 4-bit code of each fault (R5, R272, D28). -/
structure FaultCodes where
  illegalTrapCode      : BitVec 4
  illegalOpcode        : BitVec 4
  illegalMemoryAddress : BitVec 4
deriving DecidableEq, Repr

/-- PRESUMED (log 7): the codes of R272, which the spec takes from general knowledge. -/
def FaultCodes.standard : FaultCodes where
  illegalTrapCode := 1
  illegalOpcode := 2
  illegalMemoryAddress := 3

/-- `DIVZERO_REMAINDER` (R5, D10): a function of the dividend, written out as the values it takes on the dividends listed
and the one it takes on every other. There are finitely many legal dividends, so every function is some table (log 5). -/
structure RemainderTable where
  listed    : List (BitVector × Word)
  otherwise : Word
deriving DecidableEq, Repr

/-- The constant 0: R5's default. -/
def RemainderTable.zero : RemainderTable where
  listed := []
  otherwise := 0

/-- The OPEN parameters of R5. They stand in the state as its configuration, which nothing writes (log 2). -/
structure Params where
  /-- `CACHE_ENABLED` (D23). -/
  cacheEnabled   : Bool
  /-- `OVERFLOW_RULE` (D4). -/
  overflowRule   : OverflowRule
  /-- `DIVZERO_REMAINDER` (D10). -/
  divZeroRemainder : RemainderTable
  /-- `BLOCK_LOAD_TICKS`, at least 1 (D20). -/
  blockLoadTicks : Nat
  /-- `ARITH_POLICY` (D24). -/
  arithPolicy    : ArithPolicy
  /-- `OPCODE(m)` (D27). -/
  opcodes        : OpcodeMap
  /-- `MFR_CODE(f)` (D28). -/
  faultCodes     : FaultCodes
  /-- `FAULT_PC_SAVE` (D29), a valid address: 11 bits reach 0..2047 (log 7). -/
  faultPcSave    : BitVec 11
  /-- `BOOT_IMAGE` (D48): pairs of a valid address and a Word, in increasing order of address. -/
  bootImage      : List (BitVec 11 × Word)
deriving DecidableEq, Repr

/-- R5's defaults; DESIGN CHOICE: `CACHE_ENABLED` = false, for which R5 claims no default (log 3), and an empty
`BOOT_IMAGE` (log 4). -/
def Params.standard : Params where
  cacheEnabled := false
  overflowRule := .carryOut
  divZeroRemainder := RemainderTable.zero
  blockLoadTicks := 1
  arithPolicy := .implement
  opcodes := OpcodeMap.standard
  faultCodes := FaultCodes.standard
  faultPcSave := 4
  bootImage := []

/-- A legal choice of parameters: a load takes at least one tick (D20), the opcode numbers differ (R114), and the boot
image is a map listed in increasing order of address (R300). -/
abbrev Params.Legal (p : Params) : Prop :=
  1 ≤ p.blockLoadTicks ∧ p.opcodes.Distinct ∧ (p.bootImage.map (·.1.toNat)).Pairwise (· < ·)

/-- The descriptor text the branch-history recorder stores for the branch at an address, "any value" (R263, D50). A FREE
VALUE (log 15). -/
opaque Config.branchDescriptor : Nat → String

end Sys2Proof
end

