-- ==== Sys2Proof/Machine/Memory.lean ====
section
/-! DEFINITION. The backing store `MEM[b][c]`: 8 banks of 256 cells of one Word, held as the sparse list of its non-zero
Words by address, and the striped addressing (spec/20_memory.md R60-R62; spec/10_state.md R33). -/

namespace Sys2Proof.Machine

/-- `valid(a)`: `0 ≤ a ≤ 2047` (R62). -/
abbrev validAddress (a : Nat) : Prop := a < Config.memWords

/-- `bank(a) = a mod 8` (R61). -/
def bankOf (a : Nat) : Nat := a % 8

/-- `cell(a) = a div 8` (R61). -/
def cellOf (a : Nat) : Nat := a / 8

/-- The address of `MEM[b][c]`: the inverse of the striping (R61). -/
def addressOf (bank cell : Nat) : Nat := bank + 8 * cell

/-- What an address no entry lists reads as: reset zeroes the backing store (R40, R300). -/
def unlistedWord : Word := 0

/-- The backing store as (address, Word) pairs. The cell is the Word, since the core has no bytes (R60; log 9). -/
structure Memory where
  cells : List (Nat × Word)
deriving DecidableEq, Repr

/-- The zeroed backing store (R300). -/
def Memory.empty : Memory := ⟨[]⟩

/-- The Word listed at an address, or the unlisted one. -/
def readCells : List (Nat × Word) → Nat → Word
  | [], _ => unlistedWord
  | (k, v) :: rest, a => if a = k then v else readCells rest a

/-- Put a Word that is not the unlisted one at its place in the rising list. -/
def insertCell : List (Nat × Word) → Nat → Word → List (Nat × Word)
  | [], a, w => [(a, w)]
  | (k, v) :: rest, a, w =>
    if a < k then (a, w) :: (k, v) :: rest
    else if a = k then (a, w) :: rest
    else (k, v) :: insertCell rest a w

/-- `MEM[bank(a)][cell(a)]` (R33). -/
def Memory.read (m : Memory) (a : Nat) : Word := readCells m.cells a

/-- `MEM[bank(a)][cell(a)] <- w` (R33), keeping the canonical form: the unlisted Word removes the entry. -/
def Memory.write (m : Memory) (a : Nat) (w : Word) : Memory :=
  if w = unlistedWord then ⟨m.cells.filter fun c => c.1 != a⟩ else ⟨insertCell m.cells a w⟩

/-- The canonical form: addresses strictly rising and valid, no entry equal to what an unlisted address reads as. -/
abbrev Memory.wf (m : Memory) : Prop :=
  m.cells.Pairwise (fun c d => c.1 < d.1) ∧ ∀ c ∈ m.cells, c.2 ≠ unlistedWord ∧ validAddress c.1

end Sys2Proof.Machine
end

