-- ==== Sys2Proof/Machine/Cache.lean ====
section
/-! DEFINITION. The cache over the backing store, "fully associative, 8 lines, 32-Word blocks, LRU-by-timestamp eviction,
write-back on eviction of dirty lines": the asynchronous and the direct accesses (spec/20_memory.md R80-R99). Each
operation here is for a valid address; the callers check validity first (R62). -/

namespace Sys2Proof.Machine

/-- "Tag = (bank, blockIndex)": one of the 64 blocks (R80). -/
structure Tag where
  bank  : Fin 8
  block : Fin 8
deriving DecidableEq, Repr

/-- A cache line (spec/10_state.md R35). -/
structure CacheLine where
  valid    : Bool
  tag      : Tag
  data     : Vector Word 32
  dirty    : Bool
  lastUsed : Nat
deriving DecidableEq, Repr

/-- The backing store, the cache lines, the LRU clock and the pending block load (spec/10_state.md R33, R35). -/
structure MemorySystem where
  backing  : Memory
  lines    : Vector CacheLine 8
  lruClock : Nat
  pending  : Option (Tag × Nat)
deriving DecidableEq, Repr

/-- A line as reset leaves it: invalid, clean, `lastUsed = 0` (R35). DESIGN CHOICE (log 10): its tag and data, for which
the spec gives no reset value, are zero. -/
def CacheLine.unused : CacheLine := ⟨false, ⟨0, 0⟩, Vector.replicate 32 0, false, 0⟩

/-- The zeroed backing store with no line valid (R300 step 1). -/
def MemorySystem.cleared : MemorySystem := ⟨Memory.empty, Vector.replicate 8 CacheLine.unused, 0, none⟩

/-- `tag(a) = (bank(a), cell(a) div 32)` (R80); on a valid address the block index is below 8 as it stands. -/
def tagOf (a : Nat) : Tag where
  bank := Fin.ofNat 8 (bankOf a)
  block := Fin.ofNat 8 (cellOf a / 32)

/-- `offset(a) = cell(a) mod 32` (R80). -/
def offsetOf (a : Nat) : Fin 32 := Fin.ofNat 32 (cellOf a)

/-- The address `b + 8 * (32 k + j)` of Word j of block (b, k) (R80). -/
def blockAddress (tg : Tag) (j : Nat) : Nat := addressOf tg.bank (32 * tg.block + j)

/-- The line numbers, lowest first. -/
def lineNumbers : List (Fin 8) := [0, 1, 2, 3, 4, 5, 6, 7]

/-- `L[i]` (spec/10_state.md R35). -/
def MemorySystem.line (m : MemorySystem) (i : Fin 8) : CacheLine := m.lines[i.val]

/-- Replace `L[i]` (spec/10_state.md R35). -/
def MemorySystem.setLine (m : MemorySystem) (i : Fin 8) (l : CacheLine) : MemorySystem :=
  { m with lines := m.lines.set i.val l }

/-- The valid line holding a tag (R81); at most one does, and the lowest-numbered is taken (log 12). -/
def MemorySystem.lineOf (m : MemorySystem) (tg : Tag) : Option (Fin 8) :=
  lineNumbers.find? fun i => (m.line i).valid && decide ((m.line i).tag = tg)

/-- `memval(a)`: the value of memory at a valid address (R97). -/
def MemorySystem.memval (m : MemorySystem) (a : Nat) : Word :=
  match m.lineOf (tagOf a) with
  | some i => (m.line i).data[(offsetOf a).val]
  | none => m.backing.read a

/-- `lruClock <- lruClock + 1; L[i].lastUsed <- lruClock` (R82, R95, D22). -/
def MemorySystem.touch (m : MemorySystem) (i : Fin 8) : MemorySystem :=
  { m.setLine i { m.line i with lastUsed := m.lruClock + 1 } with lruClock := m.lruClock + 1 }

/-- A block of the backing store (R95). -/
def Memory.readBlock (mem : Memory) (tg : Tag) : Vector Word 32 :=
  Vector.ofFn fun j : Fin 32 => mem.read (blockAddress tg j.val)

/-- Write a line's Words back to their block, j = 0 first (R96). -/
def Memory.writeBlock (mem : Memory) (tg : Tag) (data : Vector Word 32) : Memory :=
  (List.finRange 32).foldl (fun mem j => mem.write (blockAddress tg j.val) data[j.val]) mem

/-- The lowest-numbered invalid line (R95). -/
def MemorySystem.unusedLine (m : MemorySystem) : Option (Fin 8) := lineNumbers.find? fun i => !(m.line i).valid

/-- The line with the smallest `lastUsed` (R95); of equal ones the lowest-numbered (log 12). -/
def MemorySystem.leastRecentLine (m : MemorySystem) : Fin 8 :=
  lineNumbers.foldl (fun best i => if (m.line i).lastUsed < (m.line best).lastUsed then i else best) 0

/-- "prefer an unused line; otherwise evict the least-recently-used line" (R95). -/
def MemorySystem.victim (m : MemorySystem) : Fin 8 := m.unusedLine.getD m.leastRecentLine

/-- `writeBack(i)`, for a valid dirty line; a clean line is evicted without any write (R95, R96). -/
def MemorySystem.writeBack (m : MemorySystem) (i : Fin 8) : MemorySystem :=
  if (m.line i).valid && (m.line i).dirty then
    { m with backing := m.backing.writeBlock (m.line i).tag (m.line i).data }
  else m

/-- Fill line i with a block of the backing store: valid, clean, most recently used (R95). -/
def MemorySystem.fill (m : MemorySystem) (i : Fin 8) (tg : Tag) : MemorySystem :=
  (m.setLine i ⟨true, tg, m.backing.readBlock tg, false, (m.line i).lastUsed⟩).touch i

/-- `allocate(tg)` (R95). -/
def MemorySystem.allocate (m : MemorySystem) (tg : Tag) : MemorySystem :=
  (m.writeBack m.victim).fill m.victim tg

/-- On a miss: start the block load unless one is pending (R82, R83). -/
def MemorySystem.requestBlock (m : MemorySystem) (loadTicks : Nat) (tg : Tag) : MemorySystem :=
  match m.pending with
  | none => { m with pending := some (tg, loadTicks) }
  | some _ => m

/-- Write a Word into line i and mark it dirty, most recently used: the line only, not the backing store (R83, R85,
C5). -/
def MemorySystem.putWord (m : MemorySystem) (i : Fin 8) (a : Nat) (w : Word) : MemorySystem :=
  (m.setLine i { m.line i with data := (m.line i).data.set (offsetOf a).val w, dirty := true }).touch i

/-- `fetchWord(a)`: the Word on a hit; not ready (none) on a miss (R82). -/
def MemorySystem.fetchWord (m : MemorySystem) (loadTicks a : Nat) : Option Word × MemorySystem :=
  match m.lineOf (tagOf a) with
  | some i => (some (m.line i).data[(offsetOf a).val], m.touch i)
  | none => (none, m.requestBlock loadTicks (tagOf a))

/-- `storeWord(a, w)`: true for success on a hit; on a miss not ready, "value is not written on this call" (R83). -/
def MemorySystem.storeWord (m : MemorySystem) (loadTicks a : Nat) (w : Word) : Bool × MemorySystem :=
  match m.lineOf (tagOf a) with
  | some i => (true, m.putWord i a w)
  | none => (false, m.requestBlock loadTicks (tagOf a))

/-- Allocate a tag unless a valid line holds it (R84-R86). -/
def MemorySystem.ensure (m : MemorySystem) (tg : Tag) : MemorySystem :=
  match m.lineOf tg with
  | some _ => m
  | none => m.allocate tg

/-- The cache step: advance the pending block load, and at its end allocate the block (R86). -/
def MemorySystem.cacheStep (m : MemorySystem) : MemorySystem :=
  match m.pending with
  | none => m
  | some (tg, n) =>
    if 1 < n then { m with pending := some (tg, n - 1) } else { m.ensure tg with pending := none }

/-- `DirectRead(a)` of a valid address: with the cache enabled it allocates the block at once on a miss and refreshes
recency (R84, D51). -/
def MemorySystem.directRead (m : MemorySystem) (cacheEnabled : Bool) (a : Nat) : Word × MemorySystem :=
  if cacheEnabled then
    match (m.ensure (tagOf a)).lineOf (tagOf a) with
    | some i => (((m.ensure (tagOf a)).line i).data[(offsetOf a).val], (m.ensure (tagOf a)).touch i)
    | none => ((m.ensure (tagOf a)).backing.read a, m.ensure (tagOf a))
  else (m.backing.read a, m)

/-- `DirectWrite(a, w)` of a valid address (R85, D51). -/
def MemorySystem.directWrite (m : MemorySystem) (cacheEnabled : Bool) (a : Nat) (w : Word) : MemorySystem :=
  if cacheEnabled then
    match (m.ensure (tagOf a)).lineOf (tagOf a) with
    | some i => (m.ensure (tagOf a)).putWord i a w
    | none => m.ensure (tagOf a)
  else { m with backing := m.backing.write a w }

/-- Step 2 of reset: the boot image's Words by `DirectWrite`, in the order listed (R300). -/
def MemorySystem.loadImage (m : MemorySystem) (cacheEnabled : Bool) : List (BitVec 11 × Word) → MemorySystem
  | [] => m
  | (a, w) :: rest => (m.directWrite cacheEnabled a.toNat w).loadImage cacheEnabled rest

/-- Make `memval(a) = w` without a trace in recency: the backing store's copy, and the line's where a valid line holds
the block. Not an operation of the core: it stands for a program loaded from outside (log 4). -/
def MemorySystem.place (m : MemorySystem) (a : Nat) (w : Word) : MemorySystem :=
  let m' := { m with backing := m.backing.write a w }
  match m.lineOf (tagOf a) with
  | some i => m'.setLine i { m'.line i with data := (m'.line i).data.set (offsetOf a).val w }
  | none => m'

end Sys2Proof.Machine
end

