-- ==== Sys2Proof/Machine/BitVectorOps.lean ====
section
/-! DEFINITION. The BitVector value type's checked construction, views, logic, shifts and rotates
(spec/40_datapath_alu.md R130-R143). No instruction with a handler uses the logic, shifts or rotates. A Fatal stop is
`Except.error` of its reason. -/

namespace Sys2Proof.Machine

/-- `MAX_SIGNED(n) = 2^(n-1) - 1` (R131). -/
def maxSigned (n : Nat) : Int := 2 ^ (n - 1) - 1

/-- `MIN_SIGNED(n) = -MAX_SIGNED(n)`: the asymmetric range (R131, C3). -/
def minSigned (n : Nat) : Int := -maxSigned n

/-- `MAX_UNSIGNED(n) = 2^n - 1` (R131). -/
def maxUnsigned (n : Nat) : Int := 2 ^ n - 1

/-- `make_n(k)`, the checked constructor: fatal for a width outside 1..64 (R130) and for k out of range (R131). -/
def makeBits (n : Nat) (k : Int) : Except FatalReason BitVector :=
  if 1 ≤ n ∧ n ≤ 64 ∧ minSigned n ≤ k ∧ k ≤ maxUnsigned n then .ok ⟨n, BitVec.ofInt n k⟩
  else .error .range

/-- The bits most significant first: document bit k is array index k (R134, D2). -/
def bitArray (v : BitVector) : List Bool :=
  (List.range v.width).map fun k => v.bits.getLsbD (v.width - 1 - k)

/-- `toBinaryString(v)`: the characters '0' and '1' of v, most significant bit first (R133). -/
def toBinaryString (v : BitVector) : List Char := (bitArray v).map fun b => if b then '1' else '0'

/-- The unsigned value of a list of binary digits, most significant first; none if another character stands in it. -/
def binaryValue : List Char → Nat → Option Nat
  | [], acc => some acc
  | '0' :: cs, acc => binaryValue cs (2 * acc)
  | '1' :: cs, acc => binaryValue cs (2 * acc + 1)
  | _ :: _, _ => none

/-- `fromBinaryString(s)`: the BitVector of width |s|; fatal for length 0, length above 64 or another character
(R133, D43). -/
def fromBinaryString (cs : List Char) : Except FatalReason BitVector :=
  if 1 ≤ cs.length ∧ cs.length ≤ 64 then
    match binaryValue cs 0 with
    | some k => .ok ⟨cs.length, BitVec.ofNat cs.length k⟩
    | none => .error .range
  else .error .range

/-- Sub-vector extraction of document bits i..j: the width `j - i + 1` BitVector `v[n-1-i : n-1-j]`. A bit range that is
not one of v, or is empty, asks for a width outside the legal ones or for bits v does not have: fatal (R130, R134;
log 16). -/
def subVector (v : BitVector) (i j : Nat) : Except FatalReason BitVector :=
  if i ≤ j ∧ j < v.width then .ok ⟨j - i + 1, v.bits.extractLsb' (v.width - 1 - j) (j - i + 1)⟩
  else .error .range

/-- `NOT(v)` (R136). -/
def notBits (v : BitVector) : BitVector := ⟨v.width, ~~~v.bits⟩

/-- `AND(a, b)`: the narrower operand sign-extended to the wider's width (R137, D7). -/
def andBits (a b : BitVector) : BitVector :=
  ⟨max a.width b.width, a.bits.signExtend (max a.width b.width) &&& b.bits.signExtend (max a.width b.width)⟩

/-- `OR(a, b)` (R137, D7). -/
def orBits (a b : BitVector) : BitVector :=
  ⟨max a.width b.width, a.bits.signExtend (max a.width b.width) ||| b.bits.signExtend (max a.width b.width)⟩

/-- A shift or rotate by an integer count: "A negative shift or rotate count has no meaning" (R143). -/
def withCount (k : Int) (f : Nat → BitVector) : Except FatalReason BitVector :=
  match k with
  | .ofNat n => .ok (f n)
  | .negSucc _ => .error .range

/-- `SLL(v, k)`: `bv_n(uval(v) * 2^k)` (R138). -/
def shiftLeftLogical (v : BitVector) (k : Int) : Except FatalReason BitVector :=
  withCount k fun n => ⟨v.width, v.bits <<< n⟩

/-- `SRL(v, k)`: `bv_n(uval(v) div 2^k)` (R139). -/
def shiftRightLogical (v : BitVector) (k : Int) : Except FatalReason BitVector :=
  withCount k fun n => ⟨v.width, v.bits >>> n⟩

/-- `SRA(v, k)`: `bv_n(floor(sval(v) / 2^k))` (R140). -/
def shiftRightArithmetic (v : BitVector) (k : Int) : Except FatalReason BitVector :=
  withCount k fun n => ⟨v.width, v.bits.sshiftRight n⟩

/-- `SLA(v, k)`: PRESUMED (log 17; the spec takes it from general knowledge, D12): SLL's pattern (R141). -/
def shiftLeftArithmetic (v : BitVector) (k : Int) : Except FatalReason BitVector :=
  withCount k fun n => ⟨v.width, v.bits <<< n⟩

/-- `ROL(v, k)`: `result[(i + k) mod n] = v[i]`, the count taken modulo n (R142). -/
def rotateLeft (v : BitVector) (k : Int) : Except FatalReason BitVector :=
  withCount k fun n => ⟨v.width, v.bits.rotateLeft n⟩

/-- `ROR(v, k)`: `result[i] = v[(i + k) mod n]` (R142). -/
def rotateRight (v : BitVector) (k : Int) : Except FatalReason BitVector :=
  withCount k fun n => ⟨v.width, v.bits.rotateRight n⟩

end Sys2Proof.Machine
end

