-- ==== Sys2Proof/Machine/Flags.lean ====
section
/-! DEFINITION. The ALU's four computations with the flags each defines (spec/40_datapath_alu.md R145-R157), and the
adder's carry chain bit by bit, as R152 writes it. -/

namespace Sys2Proof.Machine

/-- The control codes {NONE, ADD, SUBTRACT, MULTIPLY, DIVIDE} (R145). -/
inductive AluControl where
  | none
  | add
  | subtract
  | multiply
  | divide
deriving DecidableEq, Repr

/-- The flags record `(ov, uf, dz)`: each a Boolean, or absent where it is `unchanged` (R145). -/
structure FlagsRecord where
  ov : Option Bool
  uf : Option Bool
  dz : Option Bool
deriving DecidableEq, Repr

/-- The record `(unchanged, unchanged, unchanged)` (R148). -/
def FlagsRecord.unchanged : FlagsRecord := ⟨Option.none, Option.none, Option.none⟩

/-- `c[i]` of R152: the carry into bit i of the ripple from the least significant bit. -/
def carryChain {w : Nat} (a b : BitVec w) : Nat → Bool
  | 0 => false
  | i + 1 =>
    (a.getLsbD i && b.getLsbD i) || (a.getLsbD i && carryChain a b i) || (b.getLsbD i && carryChain a b i)

/-- `s[i]` of R152. -/
def sumBit {w : Nat} (a b : BitVec w) (i : Nat) : Bool := (a.getLsbD i ^^ b.getLsbD i) ^^ carryChain a b i

/-- `carry = (uval(a) + uval(b) ≥ 2^w)`: the carry out of bit w-1 (R152). -/
def carryOut {w : Nat} (a b : BitVec w) : Bool := decide (2 ^ w ≤ a.toNat + b.toNat)

/-- The overflow flag of an addition or subtraction: the adder's carry, or the true value outside the signed range
(R152, R154, D4). -/
def overflowFlag (rule : OverflowRule) (w : Nat) (carry : Bool) (true_ : Int) : Bool :=
  match rule with
  | .carryOut => carry
  | .signed => !decide (minSigned w ≤ true_ ∧ true_ ≤ maxSigned w)

/-- The underflow flag: the true value is below `MIN_SIGNED(w)` (R152, R154, D6). -/
def underflowFlag (w : Nat) (true_ : Int) : Bool := decide (true_ < minSigned w)

/-- ADD's flags (R152). -/
def addFlags (rule : OverflowRule) {w : Nat} (a b : BitVec w) : FlagsRecord where
  ov := some (overflowFlag rule w (carryOut a b) (a.toInt + b.toInt))
  uf := some (underflowFlag w (a.toInt + b.toInt))
  dz := Option.none

/-- `nb = bv_w(uval(~b) + 1)`: "invert, add one; the carry of this step is discarded" (R154). -/
def negated {w : Nat} (b : BitVec w) : BitVec w := BitVec.ofNat w ((~~~b).toNat + 1)

/-- SUBTRACT's flags: the carry of the final add only, and the true signed difference (R154, D4, D6). -/
def subtractFlags (rule : OverflowRule) {w : Nat} (a b : BitVec w) : FlagsRecord where
  ov := some (overflowFlag rule w (carryOut a (negated b)) (a.toInt - b.toInt))
  uf := some (underflowFlag w (a.toInt - b.toInt))
  dz := Option.none

/-- ADD: width `max(n1, n2)`, the narrower operand sign-extended (R151, R152). -/
def aluAdd (rule : OverflowRule) (a b : BitVector) : BitVector × FlagsRecord :=
  let a' := a.bits.signExtend (max a.width b.width)
  let b' := b.bits.signExtend (max a.width b.width)
  (⟨max a.width b.width, a' + b'⟩, addFlags rule a' b')

/-- SUBTRACT: "invert + add-one + add" (R151, R154). -/
def aluSubtract (rule : OverflowRule) (a b : BitVector) : BitVector × FlagsRecord :=
  let a' := a.bits.signExtend (max a.width b.width)
  let b' := b.bits.signExtend (max a.width b.width)
  (⟨max a.width b.width, a' + negated b'⟩, subtractFlags rule a' b')

/-- MULTIPLY: the exact signed product as 40 bits, ov when it does not fit `MIN_SIGNED(40)..MAX_SIGNED(40)`
(R156, D9). -/
def aluMultiply (a b : BitVector) : BitVector × FlagsRecord :=
  let p := a.sval * b.sval
  (⟨40, BitVec.ofInt 40 p⟩,
    { ov := some (!decide (minSigned 40 ≤ p ∧ p ≤ maxSigned 40)), uf := Option.none, dz := Option.none })

/-- A quotient and a remainder packed into 40 bits: `bv_20(q) ++ bv_20(rm)` (R157, D11). -/
def packQuotient (q : Word) (rm : Word) : BitVector := ⟨40, q ++ rm⟩

/-- `DIVZERO_REMAINDER(a)` (R157, D10). -/
def remainderByZero (table : RemainderTable) (a : BitVector) : Word := (table.listed.lookup a).getD table.otherwise

/-- DIVIDE: floored quotient, remainder with the sign of the divisor; on a zero divisor quotient 0, `DIVZERO_REMAINDER` of
the dividend and dz (R157, D10, D11). -/
def aluDivide (table : RemainderTable) (a b : BitVector) : BitVector × FlagsRecord :=
  if b.sval = 0 then
    (packQuotient 0 (remainderByZero table a), { ov := Option.none, uf := Option.none, dz := some true })
  else
    let q := Int.fdiv a.sval b.sval
    (packQuotient (BitVec.ofInt 20 q) (BitVec.ofInt 20 (a.sval - b.sval * q)),
      { ov := Option.none, uf := Option.none, dz := some false })

/-- `compute(ctl, op1, op2)` (R148): with `ctl = NONE` there is no result and every flag is unchanged. -/
def aluCompute (p : Params) (ctl : AluControl) (a b : BitVector) : Option BitVector × FlagsRecord :=
  match ctl with
  | .none => (Option.none, FlagsRecord.unchanged)
  | .add => (some (aluAdd p.overflowRule a b).1, (aluAdd p.overflowRule a b).2)
  | .subtract => (some (aluSubtract p.overflowRule a b).1, (aluSubtract p.overflowRule a b).2)
  | .multiply => (some (aluMultiply a b).1, (aluMultiply a b).2)
  | .divide => (some (aluDivide p.divZeroRemainder a b).1, (aluDivide p.divZeroRemainder a b).2)

end Sys2Proof.Machine
end

