-- ==== Sys2Proof/Syntax.lean ====
section
/-! DEFINITION. The instructions of spec/opcode_table.json, one constructor per row, and the field tuple every 20-bit
Word decodes to (spec/30_encoding.md R110-R116). -/

namespace Sys2Proof

/-- The operand fields of the one instruction format (R110): every value of each is accepted (R117). -/
structure Fields where
  /-- Register field: selects `GPR[r]`; for LDA, `IX[r]`. -/
  r    : BitVec 2
  /-- Index-register field: 0 = none, 1..3 = `IX[x]`. -/
  x    : BitVec 2
  /-- Indirection flag. -/
  i    : Bool
  /-- Trace flag: decoded, no effect (R116, D31). -/
  t    : Bool
  /-- Address field, 0..255: a memory address, or the immediate of AIR and SIR (R112). -/
  addr : BitVec 8
deriving DecidableEq, Repr

/-- The field tuple of a Word, and the decoded-field latch `dec` (R38, R113). -/
structure Decoded where
  op     : BitVec 6
  fields : Fields
deriving DecidableEq, Repr

/-- One constructor per row of the opcode table (R114). -/
inductive Instr where
  | ldr (f : Fields)
  | str (f : Fields)
  | lda (f : Fields)
  | amr (f : Fields)
  | smr (f : Fields)
  | air (f : Fields)
  | sir (f : Fields)
  | jne (f : Fields)
  | jcc (f : Fields)
  | sob (f : Fields)
  | jge (f : Fields)
  | ldx (f : Fields)
  | stx (f : Fields)
deriving DecidableEq, Repr

/-- The operand fields of an instruction: every row has the same five (R110). -/
def Instr.fields : Instr → Fields
  | .ldr f => f
  | .str f => f
  | .lda f => f
  | .amr f => f
  | .smr f => f
  | .air f => f
  | .sir f => f
  | .jne f => f
  | .jcc f => f
  | .sob f => f
  | .jge f => f
  | .ldx f => f
  | .stx f => f

end Sys2Proof
end

