-- ==== Sys2Proof/Machine/State.lean ====
section
/-! DEFINITION. The state of the CSA20 core: every piece of state spec/10_state.md gives it, as plain data, with its
reset value (R40, R300), and the reasons a step can stop. -/

namespace Sys2Proof.Machine

/-- `mcuState` (R36). -/
inductive McuState where
  | none
  /-- "address or data latched, not yet acted on" (R70). -/
  | waiting
  | preFetch
  | preStore
deriving DecidableEq, Repr

/-- `aluState` (R37). -/
inductive AluState where
  | none
  | startComputation
  | computationFinished
deriving DecidableEq, Repr

/-- `phase` (R38). -/
inductive Phase where
  | fetch
  | decode
  | execute
deriving DecidableEq, Repr

/-- The run outcome (R39). A `Fatal` stop is a refusal of the step, so no step makes this `fatal` (log 8). -/
inductive RunOutcome where
  | running
  | fatal (r : FatalReason)
deriving DecidableEq, Repr

/-- The ConditionCodeRegister: three named Booleans, no packed layout (R29, D33). -/
structure CondCodes where
  ov : Bool
  uf : Bool
  dz : Bool
deriving DecidableEq, Repr

/-- The ALU's latches (R37). -/
structure Alu where
  state  : AluState
  op1    : Option BitVector
  op2    : Option BitVector
  ctl    : AluControl
  result : Option BitVector
  flags  : FlagsRecord
deriving DecidableEq, Repr

/-- The machine's state (spec/10_state.md). -/
structure State where
  /-- The OPEN parameters (spec/00_scope.md R5): configuration, written by nothing (log 2). -/
  cfg      : Params
  /-- `GPR[0..3]` (R21). -/
  gpr      : Vector Word 4
  /-- `IX[1..3]`, at index 0..2 (R23). -/
  ix       : Vector Addr 3
  /-- Program counter (R25). -/
  pc       : Addr
  /-- Instruction register (R26). -/
  ir       : Word
  /-- Machine status register: no fields (R27). -/
  msr      : Word
  /-- Machine fault register: the last fault's code (R28). -/
  mfr      : BitVec 4
  /-- Condition codes (R29). -/
  cc       : CondCodes
  /-- Memory address register (R31). -/
  mar      : Addr
  /-- Memory buffer register (R32). -/
  mbr      : Word
  /-- Memory-control-unit state (R36). -/
  mcuState : McuState
  /-- Backing store, cache, LRU clock, pending block load (R33, R35). -/
  mem      : MemorySystem
  /-- ALU latches (R37). -/
  alu      : Alu
  /-- Sequencer phase (R38). -/
  phase    : Phase
  /-- Micro-step number within the phase (R38). -/
  micro    : Nat
  /-- Decoded-field latch (R38). -/
  dec      : Decoded
  /-- Effective-address latch: an integer, not reduced (R38, R186). -/
  ea       : Nat
  /-- Operand latch (R38). -/
  imm      : Word
  /-- Run outcome (R39). -/
  outcome  : RunOutcome
deriving DecidableEq, Repr

/-- Why a step ends in a fault of the model. The core's own machine faults are none of these: they are vectored, which
is a next state (R276). -/
inductive Fault where
  /-- Raised by `runWhile` alone, when an instruction needs more ticks than its budget: R309 says every hold ends, so no
  state raises it. Safe: it stops, and claims nothing. -/
  | stalled
deriving DecidableEq, Repr

/-- Why a step is refused. -/
inductive Refusal where
  /-- An instruction that has no meaning yet; raised by an arm of exec only. Safe. -/
  | notModelled (mnemonic : String)
  /-- A `Fatal` stop (R9, R275): "a terminal outcome after which no tick is defined"; raised by LDA, LDX and STX on
  index register 0, LDA and LDX on a Word above 8191, the placeholder handlers under fail_fast, and the ALU. Safe: the
  spec defines no state after it. -/
  | fatal (r : FatalReason)
  /-- A tick or step asked of a machine whose run has ended: "if outcome = Fatal(_): no tick is defined" (R305). Safe. -/
  | ended (r : FatalReason)
deriving DecidableEq, Repr

/-- The ALU at reset (R37, R300): NONE, operands and result absent. DESIGN CHOICE (log 10): the flags record, for which
the spec gives no reset value, is all unchanged. -/
def Alu.reset : Alu := ⟨.none, none, none, .none, none, FlagsRecord.unchanged⟩

/-- The zero field tuple: "latches zero" (R38). -/
def Decoded.zero : Decoded := ⟨0, ⟨0, 0, false, false, 0⟩⟩

/-- Reset under parameters p (R300): everything zeroed, then the boot image by `DirectWrite`, then `PC <- 10`. -/
def State.resetWith (p : Params) : State where
  cfg := p
  gpr := Vector.replicate 4 0
  ix := Vector.replicate 3 0
  pc := Config.bootPc
  ir := 0
  msr := 0
  mfr := 0
  cc := ⟨false, false, false⟩
  mar := 0
  mbr := 0
  mcuState := .none
  mem := MemorySystem.cleared.loadImage p.cacheEnabled p.bootImage
  alu := Alu.reset
  phase := .fetch
  micro := 0
  dec := Decoded.zero
  ea := 0
  imm := 0
  outcome := .running

/-- The machine right after reset (R40), with the parameters of `Params.standard` (log 3, 4). -/
def State.reset : State := State.resetWith Params.standard

end Sys2Proof.Machine
end

