-- ==== Sys2Proof/Machine/Ops.lean ====
section
/-! DEFINITION. The named operations over registers, memory and the ALU; the ALU and memory steps of a tick; taking a
machine fault; the tick around a ControlUnit micro-step; and running a handler to its end (spec/20_memory.md R70-R86,
spec/40_datapath_alu.md R146-R150, spec/41_cycle_and_ea.md R188-R192, spec/60_exceptions.md R276,
spec/70_reset_and_hazards.md R305). -/

namespace Sys2Proof.Machine

/-! ## Results of a component's step -/

/-- What a part of a tick can do: go on with a value, raise a machine fault in the state reached (R276: what was done
before stays done, log 14), or stop the run (R9). -/
inductive Res (α : Type) where
  | ok (a : α) (s : State)
  | raise (f : MachineFault) (s : State)
  | stop (r : FatalReason)

/-- Go on with the next part, unless this one raised or stopped (R278). -/
def Res.bind {α β : Type} : Res α → (α → State → Res β) → Res β
  | .ok a s, k => k a s
  | .raise f s, _ => .raise f s
  | .stop r, _ => .stop r

/-- A handler: its micro-step E0, E1, … as a function of `micro` (R184). -/
abbrev Handler := Nat → State → Res Unit

/-! ## Registers -/

/-- `GPR[r]` (R21). -/
def State.getGpr (s : State) (r : BitVec 2) : Word := s.gpr[r.toNat]'r.isLt

/-- `GPR[r] <- w` (R21). -/
def State.setGpr (s : State) (r : BitVec 2) (w : Word) : State := { s with gpr := s.gpr.set r.toNat w r.isLt }

/-- The index register a 2-bit field names: none for 0, `IX[1]`..`IX[3]` (as 0..2) for 1..3 (R23). -/
def indexOf (f : BitVec 2) : Option (Fin 3) :=
  if f = 1 then some 0 else if f = 2 then some 1 else if f = 3 then some 2 else none

/-- `IX[j + 1]` (R23). -/
def State.getIx (s : State) (j : Fin 3) : Addr := s.ix[j.val]

/-- `IX[j + 1] <- a` (R23). -/
def State.setIx (s : State) (j : Fin 3) (a : Addr) : State := { s with ix := s.ix.set j.val a }

/-! ## The MAR/MBR protocol -/

/-- `setMAR(a)` (R70). -/
def setMar (a : Addr) (s : State) : State := { s with mar := a, mcuState := .waiting }

/-- `setMBR(w)` (R71). -/
def setMbr (w : Word) (s : State) : State := { s with mbr := w, mcuState := .waiting }

/-- `signalFetch()` (R72). -/
def signalFetch (s : State) : State := { s with mcuState := .preFetch }

/-- `signalStore()` (R72). -/
def signalStore (s : State) : State := { s with mcuState := .preStore }

/-- `isBusy()`: PRE_FETCH or PRE_STORE (R76). -/
def State.isBusy (s : State) : Bool :=
  match s.mcuState with
  | .preFetch => true
  | .preStore => true
  | .none => false
  | .waiting => false

/-- Hold: while the memory unit is busy the micro-step performs no action and runs again next tick (R192). -/
def holdIfBusy (s : State) (k : State → Res Unit) : Res Unit := if s.isBusy then .ok () s else k s

/-! ## Direct access -/

/-- `DirectRead(a)` (R84). -/
def directRead (a : Nat) (s : State) : Res Word :=
  if validAddress a then
    .ok (s.mem.directRead s.cfg.cacheEnabled a).1 { s with mem := (s.mem.directRead s.cfg.cacheEnabled a).2 }
  else .raise (.illegalMemoryAddress a) s

/-- `DirectWrite(a, w)` (R85). -/
def directWrite (a : Nat) (w : Word) (s : State) : Res Unit :=
  if validAddress a then .ok () { s with mem := s.mem.directWrite s.cfg.cacheEnabled a w }
  else .raise (.illegalMemoryAddress a) s

/-- `memval(a)` (R97). -/
def State.memval (s : State) (a : Nat) : Word := s.mem.memval a

/-- `BackingRead(a)`: the backing store, past the cache (R98). -/
def State.backingRead (s : State) (a : Nat) : Word := s.mem.backing.read a

/-! ## The memory step -/

/-- The memory-control-unit step in PRE_FETCH (R73). -/
def fetchRequestStep (s : State) : Res Unit :=
  if validAddress s.mar.toNat then
    if s.cfg.cacheEnabled then
      match (s.mem.fetchWord s.cfg.blockLoadTicks s.mar.toNat).1 with
      | some w =>
        .ok () { s with mbr := w, mcuState := .none, mem := (s.mem.fetchWord s.cfg.blockLoadTicks s.mar.toNat).2 }
      | none => .ok () { s with mem := (s.mem.fetchWord s.cfg.blockLoadTicks s.mar.toNat).2 }
    else .ok () { s with mbr := s.mem.backing.read s.mar.toNat, mcuState := .none }
  else .raise (.illegalMemoryAddress s.mar.toNat) s

/-- The memory-control-unit step in PRE_STORE (R74). -/
def storeRequestStep (s : State) : Res Unit :=
  if validAddress s.mar.toNat then
    if s.cfg.cacheEnabled then
      if (s.mem.storeWord s.cfg.blockLoadTicks s.mar.toNat s.mbr).1 then
        .ok () { s with mcuState := .none, mem := (s.mem.storeWord s.cfg.blockLoadTicks s.mar.toNat s.mbr).2 }
      else .ok () { s with mem := (s.mem.storeWord s.cfg.blockLoadTicks s.mar.toNat s.mbr).2 }
    else .ok () { s with mcuState := .none, mem := { s.mem with backing := s.mem.backing.write s.mar.toNat s.mbr } }
  else .raise (.illegalMemoryAddress s.mar.toNat) s

/-- The cache's own step, which does nothing with the cache disabled (R77, R86). -/
def cacheStep (s : State) : State := if s.cfg.cacheEnabled then { s with mem := s.mem.cacheStep } else s

/-- The request of the current `mcuState` (R73-R75). -/
def requestStep (s : State) : Res Unit :=
  match s.mcuState with
  | .none => .ok () s
  | .waiting => .ok () s
  | .preFetch => fetchRequestStep s
  | .preStore => storeRequestStep s

/-- One memory-control-unit step: the cache's step first (R77). -/
def memoryStep (s : State) : Res Unit := requestStep (cacheStep s)

/-! ## The ALU -/

/-- "returns to NONE when next operands are set" (R146). -/
def AluState.onOperand : AluState → AluState
  | .computationFinished => .none
  | .none => .none
  | .startComputation => .startComputation

/-- `setOperand1(v)` (R146). -/
def setOperand1 (v : BitVector) (s : State) : State :=
  { s with alu := { s.alu with op1 := some v, state := s.alu.state.onOperand } }

/-- `setOperand2(v)` (R146). -/
def setOperand2 (v : BitVector) (s : State) : State :=
  { s with alu := { s.alu with op2 := some v, state := s.alu.state.onOperand } }

/-- `setControl(c)` (R146). -/
def setControl (c : AluControl) (s : State) : State := { s with alu := { s.alu with ctl := c } }

/-- `signalReady()` (R147). -/
def signalReady (s : State) : State := { s with alu := { s.alu with state := .startComputation } }

/-- Both operands, the control code and the ready signal: how a handler starts the ALU (R241-R244). -/
def startAlu (c : AluControl) (a b : Word) (s : State) : State :=
  signalReady (setControl c (setOperand2 (BitVector.ofWord b) (setOperand1 (BitVector.ofWord a) s)))

/-- The ALU step (R148). A computation with no result leaves the earlier one standing (log 11). -/
def aluStep (s : State) : Res Unit :=
  match s.alu.state with
  | .none => .ok () s
  | .computationFinished => .ok () s
  | .startComputation =>
    match s.alu.op1, s.alu.op2 with
    | some a, some b =>
      .ok ()
        { s with
          alu :=
            { s.alu with
              state := .computationFinished
              op1 := none
              op2 := none
              result := (aluCompute s.cfg s.alu.ctl a b).1.or s.alu.result
              flags := (aluCompute s.cfg s.alu.ctl a b).2 } }
    | _, _ => .stop .missingOperand

/-- `merge(flags)`: each flag written unless `unchanged` (R150). -/
def CondCodes.merge (cc : CondCodes) (f : FlagsRecord) : CondCodes :=
  ⟨f.ov.getD cc.ov, f.uf.getD cc.uf, f.dz.getD cc.dz⟩

/-- The ALU result as a Word: absent, it is refused (R149); of another width than 20 it is built by the checked
constructor, which no handler reaches (R245, R247; log 13). -/
def wordResult : Option BitVector → Except FatalReason Word
  | none => .error .missingOperand
  | some v => if v.uval < 2 ^ 20 then .ok (BitVec.ofNat 20 v.uval) else .error .range

/-! ## Sequencing -/

/-- To the handler's next micro-step (R184). -/
def advance (s : State) : State := { s with micro := s.micro + 1 }

/-- Completion: `PC <- PC + 1` modulo 2^13, back to fetch, in the same tick (R189, R190). -/
def complete (s : State) : State := { s with pc := s.pc + 1, phase := .fetch, micro := 0 }

/-- An instruction boundary: `phase = FETCH_INSTRUCTION`, `micro = 0` (R307, R310). -/
def State.atBoundary (s : State) : Bool := decide (s.phase = .fetch) && decide (s.micro = 0)

/-! ## Machine faults -/

/-- `MFR_CODE(f)` (R272). -/
def faultCode (c : FaultCodes) : MachineFault → BitVec 4
  | .illegalTrapCode => c.illegalTrapCode
  | .illegalOpcode _ => c.illegalOpcode
  | .illegalMemoryAddress _ => c.illegalMemoryAddress

/-- The vectoring sequence (R276): the code to MFR, the PC to the Word at `FAULT_PC_SAVE` by `DirectWrite`, the PC to 43,
any request of the faulting instruction abandoned, the ALU and the sequencer reset. Everything else keeps its value.
There is no return from a fault: "No return-from-fault instruction has a handler in the core" (R279). -/
def takeFault (f : MachineFault) (s : State) : State :=
  { s with
    mfr := faultCode s.cfg.faultCodes f
    mem :=
      { s.mem.directWrite s.cfg.cacheEnabled s.cfg.faultPcSave.toNat (s.pc.setWidth 20) with pending := none }
    pc := Config.faultEntry
    mcuState := .none
    alu := { s.alu with state := .none, op1 := none, op2 := none }
    phase := .fetch
    micro := 0 }

/-! ## The tick -/

/-- How a tick ends (R9): the next state, the next state after vectoring, or a Fatal stop. -/
def Res.settle : Res Unit → Host.Outcome State Fault Refusal
  | .ok _ s => .next s
  | .raise f s => .next (takeFault f s)
  | .stop r => .refused (.fatal r)

/-- The three component steps of a tick around a ControlUnit step: later ones are skipped after a fault or a stop (R305,
R276). -/
def tickBody (control : State → Res Unit) (s : State) : Res Unit :=
  (control s).bind fun _ s1 => (aluStep s1).bind fun _ s2 => memoryStep s2

/-- One tick around a ControlUnit step, a fault raised in it vectored at its end (R305). -/
def tickOf (control : State → Res Unit) (s : State) : Host.Outcome State Fault Refusal := (tickBody control s).settle

/-- Ticks, at least one and at most the budget, while the state each reaches asks for more. -/
def runWhile (more : State → Bool) (one : State → Host.Outcome State Fault Refusal) :
    Nat → State → Host.Outcome State Fault Refusal
  | 0, _ => .fault .stalled
  | n + 1, s =>
    match one s with
    | .next s' => if more s' then runWhile more one n s' else .next s'
    | .fault r => .fault r
    | .refused r => .refused r

/-- The remaining ticks of a pending block load (R35). -/
def State.pendingTicks (s : State) : Nat :=
  match s.mem.pending with
  | none => 0
  | some (_, n) => n

/-- More ticks than any instruction takes from s: R309's bound, and the ticks of a load already pending (log 1). -/
def State.tickBudget (s : State) : Nat := 12 + s.pendingTicks + 3 * (s.cfg.blockLoadTicks + 1)

/-- Run a handler's micro-steps, one a tick, from the micro-step s stands at until an instruction boundary: the handler
completed, or a fault was vectored (R184, R189, R276). -/
def resume (h : Handler) (s : State) : Host.Outcome State Fault Refusal :=
  runWhile (fun s' => !s'.atBoundary) (tickOf fun s' => h s'.micro s') s.tickBudget s

/-- Enter the execute phase at E0 (R183). -/
def enterExecute (s : State) : State := { s with phase := .execute, micro := 0 }

/-- The execute phase of an instruction, from E0 to the next instruction boundary. -/
def runHandler (h : Handler) (s : State) : Host.Outcome State Fault Refusal := resume h (enterExecute s)

end Sys2Proof.Machine
end

