-- ==== Sys2Proof/Machine/Operands.lean ====
section
/-! DEFINITION. Operand forms: the effective address, the immediate, the narrowing of a Word to an index register, and the
micro-steps handlers share (spec/41_cycle_and_ea.md R185-R188, spec/42_load_store.md R217, spec/43_arith_mem_imm.md
R245). -/

namespace Sys2Proof.Machine

/-- `computeEA(x, i, addr)`: the four modes of R185 by direct reads, every value unsigned and the sum unbounded (R186).
The address field points at a base value in the modes with an index register. -/
def computeEA (f : Fields) (s : State) : Res Nat :=
  match f.i, indexOf f.x with
  | false, none => .ok f.addr.toNat s
  | false, some j =>
    (directRead f.addr.toNat s).bind fun b s1 => .ok ((s1.getIx j).toNat + b.toNat) s1
  | true, none =>
    (directRead f.addr.toNat s).bind fun p s1 =>
      (directRead p.toNat s1).bind fun w s2 => .ok w.toNat s2
  | true, some j =>
    (directRead f.addr.toNat s).bind fun b s1 =>
      (directRead ((s1.getIx j).toNat + b.toNat) s1).bind fun w s2 => .ok w.toNat s2

/-- E0 of every handler with an effective address: `ea <- computeEA(x, i, addr)`, in one tick (R187). -/
def eaStep (f : Fields) (s : State) : Res Unit :=
  (computeEA f s).bind fun ea s1 => .ok () (advance { s1 with ea := ea })

/-- Load MAR with the latched effective address; one above 8191 does not fit and raises, MAR unchanged (R188). -/
def loadMar (s : State) : Res Unit :=
  if s.ea ≤ 8191 then .ok () (setMar (BitVec.ofNat 13 s.ea) s) else .raise (.illegalMemoryAddress s.ea) s

/-- E1 of a handler that reads memory: load MAR, `signalFetch()` (R211). -/
def fetchOperandStep (s : State) : Res Unit :=
  holdIfBusy s fun s => (loadMar s).bind fun _ s1 => .ok () (advance (signalFetch s1))

/-- E1 of a handler that writes memory: load MAR, `setMBR(w)`, `signalStore()` (R212). -/
def storeOperandStep (w : Word) (s : State) : Res Unit :=
  holdIfBusy s fun s => (loadMar s).bind fun _ s1 => .ok () (advance (signalStore (setMbr w s1)))

/-- A micro-step marked "wait" (R192). -/
def waitStep (s : State) : Res Unit := holdIfBusy s fun s => .ok () (advance s)

/-- `narrow13(w)`: the Word read unsigned must fit 13 bits, or the run stops (R217, D18). -/
def narrow13 (w : Word) : Except FatalReason Addr :=
  if w.toNat ≤ 8191 then .ok (BitVec.ofNat 13 w.toNat) else .error .range

/-- The last micro-step of LDA and LDX: the Word read into the index register a field names (R213, R214). -/
def loadIndexStep (field : BitVec 2) (s : State) : Res Unit :=
  holdIfBusy s fun s =>
    match indexOf field with
    | none => .stop .undefinedRegister
    | some j =>
      match narrow13 s.mbr with
      | .ok a => .ok () (complete (s.setIx j a))
      | .error r => .stop r

/-- `zext_20(addr)`: the immediate of AIR and SIR (R245, D25). -/
def immediateOf (f : Fields) : Word := f.addr.setWidth 20

/-- E0 of AIR and SIR: `imm <- zext_20(addr)` (R243). -/
def immediateStep (f : Fields) (s : State) : Res Unit := .ok () (advance { s with imm := immediateOf f })

/-- Under `ARITH_POLICY = fail_fast`, E0 of AMR, SMR, AIR and SIR only stops (R246). -/
def unlessFailFast (s : State) (k : State → Res Unit) : Res Unit :=
  match s.cfg.arithPolicy with
  | .implement => k s
  | .failFast => .stop .notImplemented

/-- E2 of AMR and SMR: wait, then start the ALU on `GPR[r]` and MBR (R241, R242). -/
def aluOnMemoryStep (c : AluControl) (r : BitVec 2) (s : State) : Res Unit :=
  holdIfBusy s fun s => .ok () (advance (startAlu c (s.getGpr r) s.mbr s))

/-- E1 of AIR and SIR: start the ALU on `GPR[r]` and the latched immediate (R243, R244). -/
def aluOnImmediateStep (c : AluControl) (r : BitVec 2) (s : State) : Res Unit :=
  .ok () (advance (startAlu c (s.getGpr r) s.imm s))

/-- The last micro-step of AMR, SMR, AIR and SIR: `GPR[r] <- result; merge(flags); complete` (R241-R244). -/
def writeResultStep (r : BitVec 2) (s : State) : Res Unit :=
  match wordResult s.alu.result with
  | .ok w => .ok () (complete { s.setGpr r w with cc := s.cc.merge s.alu.flags })
  | .error e => .stop e

end Sys2Proof.Machine
end

