-- ==== Sys2Proof/Machine/Arith.lean ====
section
/-! DEFINITION. AMR, SMR, AIR, SIR: add and subtract, memory or immediate, to or from a register
(spec/43_arith_mem_imm.md R240-R247). -/

namespace Sys2Proof.Machine

/-- AMR: `GPR[r] <- GPR[r] + memval(EA)`, OV and UF by ADD (R241). -/
def amrStep (f : Fields) : Handler
  | 0, s => unlessFailFast s (eaStep f)
  | 1, s => fetchOperandStep s
  | 2, s => aluOnMemoryStep .add f.r s
  | 3, s => writeResultStep f.r s
  | _ + 4, s => .ok () (complete s)

/-- AMR executed from E0 (R241). -/
def execAmr (f : Fields) (s : State) : Host.Outcome State Fault Refusal := runHandler (amrStep f) s

/-- SMR: `GPR[r] <- GPR[r] - memval(EA)`, OV and UF by SUBTRACT (R242). -/
def smrStep (f : Fields) : Handler
  | 0, s => unlessFailFast s (eaStep f)
  | 1, s => fetchOperandStep s
  | 2, s => aluOnMemoryStep .subtract f.r s
  | 3, s => writeResultStep f.r s
  | _ + 4, s => .ok () (complete s)

/-- SMR executed from E0 (R242). -/
def execSmr (f : Fields) (s : State) : Host.Outcome State Fault Refusal := runHandler (smrStep f) s

/-- AIR: `GPR[r] <- GPR[r] + addr`; x, i and t ignored (R243, D25). -/
def airStep (f : Fields) : Handler
  | 0, s => unlessFailFast s (immediateStep f)
  | 1, s => aluOnImmediateStep .add f.r s
  | 2, s => writeResultStep f.r s
  | _ + 3, s => .ok () (complete s)

/-- AIR executed from E0 (R243). -/
def execAir (f : Fields) (s : State) : Host.Outcome State Fault Refusal := runHandler (airStep f) s

/-- SIR: `GPR[r] <- GPR[r] - addr` (R244). -/
def sirStep (f : Fields) : Handler
  | 0, s => unlessFailFast s (immediateStep f)
  | 1, s => aluOnImmediateStep .subtract f.r s
  | 2, s => writeResultStep f.r s
  | _ + 3, s => .ok () (complete s)

/-- SIR executed from E0 (R244). -/
def execSir (f : Fields) (s : State) : Host.Outcome State Fault Refusal := runHandler (sirStep f) s

end Sys2Proof.Machine
end

