-- ==== Sys2Proof/Machine/LoadStore.lean ====
section
/-! DEFINITION. LDR, STR, LDA, LDX, STX: the micro-steps of each handler and its execution (spec/42_load_store.md
R210-R217). A micro-step number past the last is the sentinel a completed handler advances to (R189, log 12). -/

namespace Sys2Proof.Machine

/-- LDR: "compute EA → MAR←EA → (memory produces MBR) → GPR[rf]←MBR" (R211). -/
def ldrStep (f : Fields) : Handler
  | 0, s => eaStep f s
  | 1, s => fetchOperandStep s
  | 2, s => waitStep s
  | 3, s => holdIfBusy s fun s => .ok () (complete (s.setGpr f.r s.mbr))
  | _ + 4, s => .ok () (complete s)

/-- LDR executed from E0 (R211). -/
def execLdr (f : Fields) (s : State) : Host.Outcome State Fault Refusal := runHandler (ldrStep f) s

/-- STR: "compute EA → MAR←EA, MBR←GPR[rf] → (memory writes) → done" (R212). -/
def strStep (f : Fields) : Handler
  | 0, s => eaStep f s
  | 1, s => storeOperandStep (s.getGpr f.r) s
  | 2, s => waitStep s
  | 3, s => .ok () (complete s)
  | _ + 4, s => .ok () (complete s)

/-- STR executed from E0 (R212). -/
def execStr (f : Fields) (s : State) : Host.Outcome State Fault Refusal := runHandler (strStep f) s

/-- LDA: "compute EA → MAR←EA → (MBR produced) → indexRegister[rf]←MBR"; r = 0 stops (R213, C6, C11). -/
def ldaStep (f : Fields) : Handler
  | 0, s => eaStep f s
  | 1, s => fetchOperandStep s
  | 2, s => waitStep s
  | 3, s => loadIndexStep f.r s
  | _ + 4, s => .ok () (complete s)

/-- LDA executed from E0 (R213). -/
def execLda (f : Fields) (s : State) : Host.Outcome State Fault Refusal := runHandler (ldaStep f) s

/-- LDX: "compute EA → MAR←EA → (MBR produced) → indexRegister[xf]←MBR"; x also indexes the EA, r is ignored, x = 0
stops (R214, D17). -/
def ldxStep (f : Fields) : Handler
  | 0, s => eaStep f s
  | 1, s => fetchOperandStep s
  | 2, s => waitStep s
  | 3, s => loadIndexStep f.x s
  | _ + 4, s => .ok () (complete s)

/-- LDX executed from E0 (R214). -/
def execLdx (f : Fields) (s : State) : Host.Outcome State Fault Refusal := runHandler (ldxStep f) s

/-- STX: "compute EA → MAR←EA, MBR←indexRegister[xf] → (memory writes) → done"; x = 0 stops at E1 (R215). -/
def stxStep (f : Fields) : Handler
  | 0, s => eaStep f s
  | 1, s =>
    match indexOf f.x with
    | none => holdIfBusy s fun _ => .stop .undefinedRegister
    | some j => storeOperandStep ((s.getIx j).setWidth 20) s
  | 2, s => waitStep s
  | 3, s => .ok () (complete s)
  | _ + 4, s => .ok () (complete s)

/-- STX executed from E0 (R215). -/
def execStx (f : Fields) (s : State) : Host.Outcome State Fault Refusal := runHandler (stxStep f) s

end Sys2Proof.Machine
end

