-- ==== Sys2Proof/Machine/Unhandled.lean ====
section
/-! DEFINITION. The opcodes without a handler: E0 raises ILLEGAL_OPCODE and nothing else (spec/44_unhandled_and_recorder.md
R260, R261). The branch mnemonics have no branch behaviour in this core. -/

namespace Sys2Proof.Machine

/-- `E0: raise ILLEGAL_OPCODE(op)` (R184, R260). DESIGN CHOICE (log 12): the spec gives E0 only, and at a micro-step number
above 0, which no run reaches, the same fault is raised. -/
def noHandlerStep (op : BitVec 6) : Handler := fun _ s => .raise (.illegalOpcode op) s

/-- A Word whose opcode field is no mnemonic's number (R115, R260). -/
def execNoHandler (op : BitVec 6) (s : State) : Host.Outcome State Fault Refusal := runHandler (noHandlerStep op) s

/-- JNE has no handler (R261). -/
def jneStep (_f : Fields) : Handler := fun k s => noHandlerStep s.cfg.opcodes.jne k s

/-- JNE executed: ILLEGAL_OPCODE is raised and vectored (R261, R276). -/
def execJne (f : Fields) (s : State) : Host.Outcome State Fault Refusal := runHandler (jneStep f) s

/-- JCC has no handler (R261). -/
def jccStep (_f : Fields) : Handler := fun k s => noHandlerStep s.cfg.opcodes.jcc k s

/-- JCC executed: ILLEGAL_OPCODE is raised and vectored (R261, R276). -/
def execJcc (f : Fields) (s : State) : Host.Outcome State Fault Refusal := runHandler (jccStep f) s

/-- SOB has no handler (R261). -/
def sobStep (_f : Fields) : Handler := fun k s => noHandlerStep s.cfg.opcodes.sob k s

/-- SOB executed: ILLEGAL_OPCODE is raised and vectored (R261, R276). -/
def execSob (f : Fields) (s : State) : Host.Outcome State Fault Refusal := runHandler (sobStep f) s

/-- JGE has no handler (R261). -/
def jgeStep (_f : Fields) : Handler := fun k s => noHandlerStep s.cfg.opcodes.jge k s

/-- JGE executed: ILLEGAL_OPCODE is raised and vectored (R261, R276). -/
def execJge (f : Fields) (s : State) : Host.Outcome State Fault Refusal := runHandler (jgeStep f) s

end Sys2Proof.Machine
end

