-- ==== Sys2Proof/Machine/Dispatch.lean ====
section
/-! DEFINITION. One arm per constructor of Instr, each one call of the instruction's meaning. -/

namespace Sys2Proof.Machine

def exec (i : Instr) (s : State) : Host.Outcome State Fault Refusal :=
  match i with
  | .ldr f => Sys2Proof.Machine.execLdr f s
  | .str f => Sys2Proof.Machine.execStr f s
  | .lda f => Sys2Proof.Machine.execLda f s
  | .amr f => Sys2Proof.Machine.execAmr f s
  | .smr f => Sys2Proof.Machine.execSmr f s
  | .air f => Sys2Proof.Machine.execAir f s
  | .sir f => Sys2Proof.Machine.execSir f s
  | .jne f => Sys2Proof.Machine.execJne f s
  | .jcc f => Sys2Proof.Machine.execJcc f s
  | .sob f => Sys2Proof.Machine.execSob f s
  | .jge f => Sys2Proof.Machine.execJge f s
  | .ldx f => Sys2Proof.Machine.execLdx f s
  | .stx f => Sys2Proof.Machine.execStx f s

end Sys2Proof.Machine
end

