-- ==== Sys2Proof/Decode.lean ====
section
/-! DEFINITION. Decoding and encoding: the field tuple of a Word (spec/30_encoding.md R113), the instruction its opcode
number stands for under the parameter `OPCODE` (R114), and the way back. -/

namespace Sys2Proof

/-- Why a Word is no instruction of the table. -/
inductive DecodeError where
  /-- The opcode field is none of the thirteen numbers of `OPCODE` (R115). -/
  | noMnemonic (op : BitVec 6)
deriving DecidableEq, Repr

/-- `op = IR[19:14]`, `r = IR[13:12]`, `x = IR[11:10]`, `i = IR[9]`, `t = IR[8]`, `addr = IR[7:0]`: every Word decodes to
exactly one field tuple (R113, R183). -/
def decodeFields (w : Word) : Decoded where
  op := w.extractLsb' 14 6
  fields :=
    { r := w.extractLsb' 12 2
      x := w.extractLsb' 10 2
      i := w.getLsbD 9
      t := w.getLsbD 8
      addr := w.extractLsb' 0 8 }

/-- The instruction of a field tuple: the mnemonic with that opcode number (R114, R115). Where an illegal choice of
`OPCODE` gives two mnemonics one number, the first in R114's order is taken (log 6). -/
def instrOf (m : OpcodeMap) (d : Decoded) : Except DecodeError Instr :=
  if d.op = m.ldr then .ok (.ldr d.fields)
  else if d.op = m.str then .ok (.str d.fields)
  else if d.op = m.lda then .ok (.lda d.fields)
  else if d.op = m.amr then .ok (.amr d.fields)
  else if d.op = m.smr then .ok (.smr d.fields)
  else if d.op = m.air then .ok (.air d.fields)
  else if d.op = m.sir then .ok (.sir d.fields)
  else if d.op = m.jne then .ok (.jne d.fields)
  else if d.op = m.jcc then .ok (.jcc d.fields)
  else if d.op = m.sob then .ok (.sob d.fields)
  else if d.op = m.jge then .ok (.jge d.fields)
  else if d.op = m.ldx then .ok (.ldx d.fields)
  else if d.op = m.stx then .ok (.stx d.fields)
  else .error (.noMnemonic d.op)

/-- The instruction a Word is, or the name of why it is none. -/
def decode (m : OpcodeMap) (w : Word) : Except DecodeError Instr := instrOf m (decodeFields w)

/-- The opcode number of an instruction (R114). -/
def opcodeOf (m : OpcodeMap) : Instr → BitVec 6
  | .ldr _ => m.ldr
  | .str _ => m.str
  | .lda _ => m.lda
  | .amr _ => m.amr
  | .smr _ => m.smr
  | .air _ => m.air
  | .sir _ => m.sir
  | .jne _ => m.jne
  | .jcc _ => m.jcc
  | .sob _ => m.sob
  | .jge _ => m.jge
  | .ldx _ => m.ldx
  | .stx _ => m.stx

/-- The pattern `oooooo rr xx i t aaaaaaaa`, most significant bit first (R110). -/
def encodeFields (d : Decoded) : Word :=
  d.op ++ d.fields.r ++ d.fields.x ++ BitVec.ofBool d.fields.i ++ BitVec.ofBool d.fields.t ++ d.fields.addr

/-- The Word of an instruction (R113). Every instruction is one Word (R111). -/
def encode (m : OpcodeMap) (i : Instr) : Word := encodeFields ⟨opcodeOf m i, i.fields⟩

/-- The Word whose bits the opcode table numbers as `w`, `nbits` of them; the bits above are 0. -/
def tableWord (nbits w : Nat) : Word := BitVec.ofNat 20 (w % 2 ^ nbits)

/-- The instruction the decoder reads from a Word of the opcode table, under R114's opcode numbers. -/
def decodeTableWord (nbits w : Nat) : Option Instr :=
  match decode OpcodeMap.standard (tableWord nbits w) with
  | .ok i => some i
  | .error _ => none

end Sys2Proof
end

