-- ==== Sys2Proof/Machine/Tick.lean ====
section
/-! DEFINITION. The ControlUnit's micro-steps and the tick of the whole core (spec/41_cycle_and_ea.md R180-R184,
spec/70_reset_and_hazards.md R305), and the ticks that bring a state to the execute phase. -/

namespace Sys2Proof.Machine

/-- F0: `setMAR(PC); signalFetch()` (R181). -/
def fetchIssueStep (s : State) : Res Unit :=
  holdIfBusy s fun s => .ok () { signalFetch (setMar s.pc s) with micro := 1 }

/-- F1: `IR <- MBR` (R182). -/
def fetchLatchStep (s : State) : Res Unit :=
  holdIfBusy s fun s => .ok () { s with ir := s.mbr, phase := .decode, micro := 0 }

/-- D0: split IR into the decoded-field latch (R183). -/
def decodeStep (s : State) : Res Unit :=
  .ok () { s with dec := decodeFields s.ir, phase := .execute, micro := 0 }

/-- The handler of an instruction (R184). -/
def handlerOf : Instr → Handler
  | .ldr f => ldrStep f
  | .str f => strStep f
  | .lda f => ldaStep f
  | .amr f => amrStep f
  | .smr f => smrStep f
  | .air f => airStep f
  | .sir f => sirStep f
  | .jne f => jneStep f
  | .jcc f => jccStep f
  | .sob f => sobStep f
  | .jge f => jgeStep f
  | .ldx f => ldxStep f
  | .stx f => stxStep f

/-- The handler of the decoded-field latch: none for an opcode without one, whose E0 raises ILLEGAL_OPCODE (R184). -/
def dispatchHandler (m : OpcodeMap) (d : Decoded) : Handler :=
  match instrOf m d with
  | .ok i => handlerOf i
  | .error (.noMnemonic op) => noHandlerStep op

/-- One ControlUnit step: the micro-step of the phase (R180). Fetch has micro-steps 0 and 1, decode 0 (log 12). -/
def controlStep (s : State) : Res Unit :=
  match s.phase with
  | .fetch => if s.micro = 0 then fetchIssueStep s else fetchLatchStep s
  | .decode => decodeStep s
  | .execute => dispatchHandler s.cfg.opcodes s.dec s.micro s

/-- `tick()`: ControlUnit, ALU, MemoryControlUnit, then vectoring if a fault was raised; none after a Fatal outcome
(R305). -/
def tick (s : State) : Host.Outcome State Fault Refusal :=
  match s.outcome with
  | .fatal r => .refused (.ended r)
  | .running => tickOf controlStep s

/-- k ticks in a row. -/
def ticks : Nat → State → Host.Outcome State Fault Refusal
  | 0, s => .next s
  | k + 1, s =>
    match tick s with
    | .next s' => ticks k s'
    | .fault r => .fault r
    | .refused r => .refused r

/-- Neither in the execute phase nor at an instruction boundary: still fetching or decoding. -/
def State.stillFetching (s : State) : Bool := !decide (s.phase = .execute) && !s.atBoundary

/-- The ticks of fetch and decode: to the execute phase, or to the boundary a vectored fetch fault leaves (R180-R183). -/
def fetchAndDecode (s : State) : Host.Outcome State Fault Refusal :=
  if s.phase = .execute then .next s else runWhile State.stillFetching tick s.tickBudget s

end Sys2Proof.Machine
end

