-- ==== Sys2Proof/Machine/HostActions.lean ====
section
/-! DEFINITION. What the host may do between ticks (spec/70_reset_and_hazards.md R310), the branch-history recorder among
it (spec/44_unhandled_and_recorder.md R263), and the placing of a program's Word (log 4, 16). -/

namespace Sys2Proof.Machine

/-- The registers of R44 that hold a number: all but CC. -/
inductive NumberedRegister where
  | pc
  | ir
  | msr
  | mfr
  /-- R0, R1, R2, R3. -/
  | gpr (r : BitVec 2)
  /-- X1, X2, X3, at index 0, 1, 2. -/
  | ix (j : Fin 3)
  | mar
  | mbr
deriving DecidableEq, Repr

/-- The register-ID enumeration {PC, IR, MSR, MFR, R0..R3, X1..X3, MAR, MBR, CC} (R44). -/
inductive RegisterId where
  | numbered (r : NumberedRegister)
  | cc
deriving DecidableEq, Repr

/-- What a register holds: a number, or for CC its three Booleans, which have no packed layout (R29, D33). -/
inductive RegisterValue where
  | number (n : Nat)
  | flags (cc : CondCodes)
deriving DecidableEq, Repr

/-- A register identifier with a value to deposit: an integer, or for CC its three Booleans (R310). -/
inductive Deposit where
  | number (r : NumberedRegister) (k : Int)
  | flags (cc : CondCodes)
deriving DecidableEq, Repr

/-- The register a deposit names (R44). -/
def Deposit.register : Deposit → RegisterId
  | .number r _ => .numbered r
  | .flags _ => .cc

/-- The width of a register that holds a number (R5). -/
def registerWidth : NumberedRegister → Nat
  | .pc => 13
  | .ir => 20
  | .msr => 20
  | .mfr => 4
  | .gpr _ => 20
  | .ix _ => 13
  | .mar => 13
  | .mbr => 20

/-- The unsigned value of a register that holds a number. -/
def readNumber (r : NumberedRegister) (s : State) : Nat :=
  match r with
  | .pc => s.pc.toNat
  | .ir => s.ir.toNat
  | .msr => s.msr.toNat
  | .mfr => s.mfr.toNat
  | .gpr q => (s.getGpr q).toNat
  | .ix j => (s.getIx j).toNat
  | .mar => s.mar.toNat
  | .mbr => s.mbr.toNat

/-- `readRegister(id)` (R44, R310). -/
def readRegister (id : RegisterId) (s : State) : RegisterValue :=
  match id with
  | .numbered r => .number (readNumber r s)
  | .cc => .flags s.cc

/-- Set a register to a bit pattern of its width. DESIGN CHOICE (log 16): a deposit into MAR or MBR is not `setMAR` or
`setMBR`, and the memory unit stays as it is (R310). -/
def writeNumber (r : NumberedRegister) (k : Int) (s : State) : State :=
  match r with
  | .pc => { s with pc := BitVec.ofInt 13 k }
  | .ir => { s with ir := BitVec.ofInt 20 k }
  | .msr => { s with msr := BitVec.ofInt 20 k }
  | .mfr => { s with mfr := BitVec.ofInt 4 k }
  | .gpr q => s.setGpr q (BitVec.ofInt 20 k)
  | .ix j => s.setIx j (BitVec.ofInt 13 k)
  | .mar => { s with mar := BitVec.ofInt 13 k }
  | .mbr => { s with mbr := BitVec.ofInt 20 k }

/-- One record of the branch-history recorder's tables (R263). -/
structure BranchRecord where
  address    : Nat
  descriptor : String
  taken      : Bool
deriving DecidableEq, Repr

/-- Whether an opcode is one of JCC, JNE, JGE, SOB (R263). -/
def isBranchOpcode (m : OpcodeMap) (op : BitVec 6) : Bool :=
  decide (op = m.jcc) || decide (op = m.jne) || decide (op = m.jge) || decide (op = m.sob)

/-- The record of one address: only for a branch opcode, predicted taken, the text unspecified (R263, D50, log 15). -/
def scanAddress (s : State) (a : Nat) : Option BranchRecord :=
  if isBranchOpcode s.cfg.opcodes (decodeFields (s.memval a)).op then
    some ⟨a, Config.branchDescriptor a, true⟩
  else none

/-- `scanMemory()`: every address 0..2047 read as `memval`, no state changed (R263). -/
def scanMemory (s : State) : List BranchRecord := (List.range Config.memWords).filterMap (scanAddress s)

/-- The host's actions (R310). -/
inductive HostAction where
  | tick
  | reset
  | engineerRead (a : Nat)
  | engineerWrite (a : Nat) (w : Word)
  | readRegister (id : RegisterId)
  | depositRegister (d : Deposit)
  | backingRead (a : Nat)
  | scanMemory
deriving DecidableEq, Repr

/-- What the host gets back beside the core's state. -/
inductive HostValue where
  | nothing
  | word (w : Word)
  | register (v : RegisterValue)
  | records (rs : List BranchRecord)
deriving DecidableEq, Repr

/-- How a host action ends. -/
inductive HostResult where
  /-- Done: the state after, and the value answered. -/
  | done (v : HostValue) (s : State)
  /-- Not admitted at this point: "the host action is rejected; the core is unchanged" (R310). -/
  | rejected
  /-- An engineer access of an invalid address: reported to the host, no vectoring, no state changed (R310). -/
  | addressFault (a : Nat)
  /-- A Fatal stop: a tick's, or a deposit out of range (R310). -/
  | fatal (r : FatalReason)
  /-- A tick asked after a Fatal outcome (R305), or one the model does not give. -/
  | noTick
deriving DecidableEq, Repr

/-- A tick's outcome as the host sees it. -/
def tickResult : Host.Outcome State Fault Refusal → HostResult
  | .next s => .done .nothing s
  | .refused (.fatal r) => .fatal r
  | .refused _ => .noTick
  | .fault _ => .noTick

/-- A direct access as the host sees it: its fault is not raised during a tick, so nothing is vectored (R310). -/
def accessResult {α : Type} (value : α → HostValue) : Res α → HostResult
  | .ok a s => .done (value a) s
  | .raise (.illegalMemoryAddress a) _ => .addressFault a
  | .raise .illegalTrapCode _ => .noTick
  | .raise (.illegalOpcode _) _ => .noTick
  | .stop r => .fatal r

/-- "An engineer write, register deposit or reset is admitted only at an instruction boundary" (R310, D40). -/
def atBoundaryOnly (s : State) (r : HostResult) : HostResult := if s.atBoundary then r else .rejected

/-- `depositRegister(id, k)`: `make_n(k)` for the register's width, fatal out of range; "CC by its three Booleans" (R310,
R131). -/
def depositResult (d : Deposit) (s : State) : HostResult :=
  match d with
  | .number r k =>
    match makeBits (registerWidth r) k with
    | .ok _ => .done .nothing (writeNumber r k s)
    | .error e => .fatal e
  | .flags cc => .done .nothing { s with cc := cc }

/-- The host's actions and what each does (R310). -/
def hostAct (act : HostAction) (s : State) : HostResult :=
  match act with
  | .tick => tickResult (tick s)
  | .reset => atBoundaryOnly s (.done .nothing (State.resetWith s.cfg))
  | .engineerRead a => accessResult .word (directRead a s)
  | .engineerWrite a w => atBoundaryOnly s (accessResult (fun _ => .nothing) (directWrite a w s))
  | .readRegister id => .done (.register (readRegister id s)) s
  | .depositRegister d => atBoundaryOnly s (depositResult d s)
  | .backingRead a => if validAddress a then .done (.word (s.backingRead a)) s else .addressFault a
  | .scanMemory => .done (.records (scanMemory s)) s

/-- An instruction placed where the next fetch finds it: at an instruction boundary with the memory unit idle, the Word at
the PC. At a PC above 2047, which no memory backs (R62), nothing can be placed (log 4). -/
def placeProgramWord (s : State) (w : Word) : State :=
  { s with
    phase := .fetch
    micro := 0
    mcuState := .none
    mem := if validAddress s.pc.toNat then s.mem.place s.pc.toNat w else s.mem }

end Sys2Proof.Machine
end

