-- ==== Sys2Proof/Machine/Step.lean ====
section
/-! DEFINITION. One step: the ticks of one instruction, from an instruction boundary to the next (log 1), and the placing
of an instruction where the next step fetches it (log 4). -/

namespace Sys2Proof.Machine

/-- The execute phase of the instruction in the decoded-field latch: from E0 its meaning; from a later micro-step, the
rest of its handler (log 1). -/
def executeDecoded (s : State) : Host.Outcome State Fault Refusal :=
  match instrOf s.cfg.opcodes s.dec with
  | .ok i => if s.micro = 0 then exec i s else resume (handlerOf i) s
  | .error (.noMnemonic op) => execNoHandler op s

/-- Ticks from s to the next instruction boundary: fetch, decode, execute (R180, R305). A fetch fault is vectored and
ends the step; a machine whose run has ended makes none (R9). -/
def step (s : State) : Host.Outcome State Fault Refusal :=
  match s.outcome with
  | .fatal r => .refused (.ended r)
  | .running =>
    match fetchAndDecode s with
    | .next s1 => if s1.phase = .execute then executeDecoded s1 else .next s1
    | .fault r => .fault r
    | .refused r => .refused r

/-- The state whose next step fetches and runs the table's Word: at an instruction boundary, memory idle, the Word at the
PC (log 4). -/
def State.withFetchWord (s : State) (nbits w : Nat) : State := placeProgramWord s (tableWord nbits w)

end Sys2Proof.Machine
end

