-- ==== Sys2Proof/WellFormed.lean ====
section
/-! DEFINITION. The well-formed instructions: spec/30_encoding.md R117 names the only field combinations without a
meaning, "a zero index-register target or source (LDA r = 0, LDX or STX x = 0)". Decoding accepts them all the same, and
executing one is a Fatal stop, so the check is used by statements and never by the decoder. -/

namespace Sys2Proof

/-- R117: LDA names an index register in r, LDX and STX in x, and index register 0 does not exist (R23). -/
def Instr.wellFormed : Instr → Bool
  | .lda f => f.r != 0
  | .ldx f => f.x != 0
  | .stx f => f.x != 0
  | .ldr _ => true
  | .str _ => true
  | .amr _ => true
  | .smr _ => true
  | .air _ => true
  | .sir _ => true
  | .jne _ => true
  | .jcc _ => true
  | .sob _ => true
  | .jge _ => true

end Sys2Proof
end

