-- ==== Sys2Proof/Safety.lean ====
section
/-! DEFINITION. The terms claims are stated in: a coherent memory, a state ready to execute, the invariant of instruction
boundaries, and what "unchanged" means. -/

namespace Sys2Proof.Machine

/-! ## Memory -/

/-- A memory system any run can reach (R81, R95, R96): at most one valid line holds a block, a clean line agrees with the
backing store, and the recency stamps are no later than the clock and differ between valid lines. -/
structure MemorySystem.Coherent (m : MemorySystem) : Prop where
  backing_wf : m.backing.wf
  one_line : ∀ i j : Fin 8, (m.line i).valid = true → (m.line j).valid = true → (m.line i).tag = (m.line j).tag → i = j
  clean_agrees : ∀ i : Fin 8, (m.line i).valid = true → (m.line i).dirty = false →
    ∀ j : Fin 32, (m.line i).data[j.val] = m.backing.read (blockAddress (m.line i).tag j.val)
  stamped : ∀ i : Fin 8, (m.line i).lastUsed ≤ m.lruClock
  stamps_differ : ∀ i j : Fin 8, (m.line i).valid = true → (m.line j).valid = true →
    (m.line i).lastUsed = (m.line j).lastUsed → i = j

/-- The memory system agrees with the configuration: with the cache disabled no line is valid and no load is pending. -/
structure State.MemoryOk (s : State) : Prop where
  coherent : s.mem.Coherent
  unused_when_disabled : s.cfg.cacheEnabled = false → s.mem.pending = none ∧ ∀ i : Fin 8, (s.mem.line i).valid = false

/-! ## Where an instruction can start -/

/-- A state an instruction's execute phase can start from: the memory unit idle with no load pending, the ALU not
started. -/
structure State.Ready (s : State) : Prop where
  memory : s.MemoryOk
  idle : s.isBusy = false
  no_load : s.mem.pending = none
  alu_idle : s.alu.state ≠ .startComputation

/-- What holds at every instruction boundary (R300, R309, R247). -/
structure State.Inv (s : State) : Prop where
  memory : s.MemoryOk
  running : s.outcome = .running
  boundary : s.atBoundary = true
  mcu_idle : s.mcuState = .none
  no_load : s.mem.pending = none
  alu_idle : s.alu.state ≠ .startComputation
  operands_absent : s.alu.op1 = none ∧ s.alu.op2 = none
  word_result : ∀ v, s.alu.result = some v → v.width = 20
  ea_bound : s.ea ≤ 8191 + 1048575

/-! ## What an instruction leaves -/

/-- Every Word of memory reads as before (R97). -/
def State.SameMemory (s t : State) : Prop := ∀ a, validAddress a → t.memval a = s.memval a

/-- Every Word of memory reads as before but the one at `ea`, which reads w. -/
def State.SameMemoryBut (s t : State) (ea : Nat) (w : Word) : Prop :=
  t.memval ea = w ∧ ∀ a, validAddress a → a ≠ ea → t.memval a = s.memval a

/-- The special registers no load, store or arithmetic instruction writes (R26-R28), the configuration, the decoded-field
latch and the outcome. -/
structure State.SameSpecial (s t : State) : Prop where
  cfg : t.cfg = s.cfg
  ir : t.ir = s.ir
  msr : t.msr = s.msr
  mfr : t.mfr = s.mfr
  dec : t.dec = s.dec
  outcome : t.outcome = s.outcome

/-- Every general register but `GPR[r]`. -/
def State.SameGprBut (s t : State) (r : BitVec 2) : Prop := ∀ q, q ≠ r → t.getGpr q = s.getGpr q

/-- The next fetch begins at the following Word (R189): at an instruction boundary, the memory unit idle. -/
structure State.Completed (s t : State) : Prop where
  pc : t.pc = s.pc + 1
  boundary : t.atBoundary = true
  ready : t.Ready

/-- What a vectored fault leaves (R276), s being the state it is raised from: the code in MFR, the PC in the Word at
`FAULT_PC_SAVE` and every other Word as before, control at 43, the memory unit, ALU and sequencer reset, and the general
and index registers, condition codes, MSR, the parameters and the outcome as before. -/
structure State.Vectored (s t : State) (f : MachineFault) : Prop where
  mfr : t.mfr = faultCode s.cfg.faultCodes f
  memory : s.SameMemoryBut t s.cfg.faultPcSave.toNat (s.pc.setWidth 20)
  pc : t.pc = Config.faultEntry
  mcu : t.mcuState = .none ∧ t.mem.pending = none
  alu : t.alu.state = .none ∧ t.alu.op1 = none ∧ t.alu.op2 = none
  sequencer : t.phase = .fetch ∧ t.micro = 0
  gpr : t.gpr = s.gpr
  ix : t.ix = s.ix
  cc : t.cc = s.cc
  msr : t.msr = s.msr
  ir : t.ir = s.ir
  cfg : t.cfg = s.cfg
  outcome : t.outcome = s.outcome

/-- Everything a program or the host can see but the cache and the backing copies: every register, latch and flag, and
the value of every Word (R312). -/
structure State.SameView (s t : State) : Prop where
  gpr : t.gpr = s.gpr
  ix : t.ix = s.ix
  pc : t.pc = s.pc
  ir : t.ir = s.ir
  msr : t.msr = s.msr
  mfr : t.mfr = s.mfr
  cc : t.cc = s.cc
  mar : t.mar = s.mar
  mbr : t.mbr = s.mbr
  alu : t.alu = s.alu
  ea : t.ea = s.ea
  imm : t.imm = s.imm
  dec : t.dec = s.dec
  memory : s.SameMemory t

/-- What the fetch and decode of the Word w at the PC leave for the execute phase (R181-R183): w in MBR and IR, its
fields in the latch, the PC in MAR, and everything else as before. -/
structure State.Fetched (s t : State) (w : Word) : Prop where
  ready : t.Ready
  execute : t.phase = .execute ∧ t.micro = 0
  mar : t.mar = s.pc
  mbr : t.mbr = w
  ir : t.ir = w
  dec : t.dec = decodeFields w
  memory : s.SameMemory t
  gpr : t.gpr = s.gpr
  ix : t.ix = s.ix
  pc : t.pc = s.pc
  msr : t.msr = s.msr
  mfr : t.mfr = s.mfr
  cc : t.cc = s.cc
  alu : t.alu = s.alu
  ea : t.ea = s.ea
  imm : t.imm = s.imm
  cfg : t.cfg = s.cfg
  outcome : t.outcome = s.outcome

/-- What a completed access of a, with the cache enabled, leaves of the cache (R82-R86, R95): the block of a in the line
that held it or else in the victim's, with the newest stamp, dirty if it was written now or before in that line; every
other line as before; the backing store as before on a hit, and on a miss with the victim written back if dirty (R83, C5);
the clock one tick of recency later for a hit, two for an allocation and the access. -/
structure State.Accessed (s t : State) (a : Nat) (written : Bool) : Prop where
  resident : t.mem.lineOf (tagOf a) = some ((s.mem.lineOf (tagOf a)).getD s.mem.victim)
  recent : (t.mem.line ((s.mem.lineOf (tagOf a)).getD s.mem.victim)).lastUsed = t.mem.lruClock
  dirty : (t.mem.line ((s.mem.lineOf (tagOf a)).getD s.mem.victim)).dirty =
    (written || ((s.mem.lineOf (tagOf a)).isSome && (s.mem.line ((s.mem.lineOf (tagOf a)).getD s.mem.victim)).dirty))
  others : ∀ j, j ≠ (s.mem.lineOf (tagOf a)).getD s.mem.victim → t.mem.line j = s.mem.line j
  backing : t.mem.backing =
    (if (s.mem.lineOf (tagOf a)).isSome then s.mem.backing else (s.mem.writeBack s.mem.victim).backing)
  clock : t.mem.lruClock = s.mem.lruClock + (if (s.mem.lineOf (tagOf a)).isSome then 1 else 2)

/-! ## Repeated memory steps and ticks -/

/-- The ticks a clocked request at a waits for its block: none on a hit or with the cache disabled (R193). -/
def State.missTicks (s : State) (a : Nat) : Nat :=
  if s.cfg.cacheEnabled && (s.mem.lineOf (tagOf a)).isNone then s.cfg.blockLoadTicks else 0

/-- What the registers of the host's enumeration are (R44). -/
structure State.NamesRegisters (s : State) : Prop where
  pc : readRegister (.numbered .pc) s = .number s.pc.toNat
  ir : readRegister (.numbered .ir) s = .number s.ir.toNat
  msr : readRegister (.numbered .msr) s = .number s.msr.toNat
  mfr : readRegister (.numbered .mfr) s = .number s.mfr.toNat
  gpr : ∀ r : BitVec 2, readRegister (.numbered (.gpr r)) s = .number (s.getGpr r).toNat
  ix : ∀ j : Fin 3, readRegister (.numbered (.ix j)) s = .number (s.getIx j).toNat
  mar : readRegister (.numbered .mar) s = .number s.mar.toNat
  mbr : readRegister (.numbered .mbr) s = .number s.mbr.toNat
  cc : readRegister .cc s = .flags s.cc

/-- What a deposit leaves: every register but the one named, the memory, the latches and the sequencer as before. -/
structure State.SameButRegister (s t : State) (id : RegisterId) : Prop where
  registers : ∀ other, other ≠ id → readRegister other t = readRegister other s
  cfg : t.cfg = s.cfg
  mem : t.mem = s.mem
  mcu : t.mcuState = s.mcuState
  alu : t.alu = s.alu
  sequencer : t.phase = s.phase ∧ t.micro = s.micro
  latches : t.dec = s.dec ∧ t.ea = s.ea ∧ t.imm = s.imm
  outcome : t.outcome = s.outcome

/-- n ticks from s lead to t, with no instruction boundary on the way. -/
structure State.ReachesIn (s : State) (n : Nat) (t : State) : Prop where
  reaches : ticks n s = .next t
  between : ∀ j, 0 < j → j < n → ∃ v, ticks j s = .next v ∧ v.atBoundary = false

/-- k memory-control-unit steps in a row (R99). -/
def memorySteps : Nat → State → Res Unit
  | 0, s => .ok () s
  | k + 1, s => (memoryStep s).bind fun _ s1 => memorySteps k s1

/-! ## Classes of instructions -/

/-- The instructions that compute an effective address and place it in MAR (R210, R241, R242). -/
def usesMemory : Instr → Bool
  | .ldr _ => true
  | .str _ => true
  | .lda _ => true
  | .ldx _ => true
  | .stx _ => true
  | .amr _ => true
  | .smr _ => true
  | .air _ => false
  | .sir _ => false
  | .jne _ => false
  | .jcc _ => false
  | .sob _ => false
  | .jge _ => false

/-- The placeholder handlers that `ARITH_POLICY` governs (R240, R246). -/
def isArithmetic : Instr → Bool
  | .amr _ => true
  | .smr _ => true
  | .air _ => true
  | .sir _ => true
  | .ldr _ => false
  | .str _ => false
  | .lda _ => false
  | .ldx _ => false
  | .stx _ => false
  | .jne _ => false
  | .jcc _ => false
  | .sob _ => false
  | .jge _ => false

/-- The branch mnemonics, which have no handler (R261). -/
def isBranch : Instr → Bool
  | .jne _ => true
  | .jcc _ => true
  | .sob _ => true
  | .jge _ => true
  | .ldr _ => false
  | .str _ => false
  | .lda _ => false
  | .ldx _ => false
  | .stx _ => false
  | .amr _ => false
  | .smr _ => false
  | .air _ => false
  | .sir _ => false

/-- The stores (R212, R215). -/
def isStore : Instr → Bool
  | .str _ => true
  | .stx _ => true
  | .ldr _ => false
  | .lda _ => false
  | .ldx _ => false
  | .amr _ => false
  | .smr _ => false
  | .air _ => false
  | .sir _ => false
  | .jne _ => false
  | .jcc _ => false
  | .sob _ => false
  | .jge _ => false

/-- The general register an instruction writes, if any (R22). -/
def targetGpr : Instr → Option (BitVec 2)
  | .ldr f => some f.r
  | .amr f => some f.r
  | .smr f => some f.r
  | .air f => some f.r
  | .sir f => some f.r
  | .str _ => none
  | .lda _ => none
  | .ldx _ => none
  | .stx _ => none
  | .jne _ => none
  | .jcc _ => none
  | .sob _ => none
  | .jge _ => none

/-! ## Safe runs -/

/-- A state whose next step runs: it answers a next state, so neither a stop nor a refusal. -/
def State.Safe (s : State) : Prop := ∃ t, step s = .next t

end Sys2Proof.Machine
end

