-- ==== Sys2Proof/Certificates/Slice0/Obligations.lean ====
section
/-! DEFINITION. The statements for the provers: what the spec's numbered rules say the CSA20 core does. -/

open Sys2Proof Sys2Proof.Machine

/-! ## Encoding -/

/-- Decoding the Word of an instruction gives the instruction back, every operand at every value, under every choice of
opcode numbers that differ (R113, R114). -/
def Obligations.DecodeOfEncodeIsTheInstruction : Prop :=
  ∀ m : OpcodeMap, m.Distinct → ∀ i : Instr, decode m (encode m i) = .ok i

/-- A Word that decodes to an instruction is that instruction's Word: no Word has two meanings and no bit is dropped. -/
def Obligations.EncodeOfDecodeIsTheWord : Prop :=
  ∀ (m : OpcodeMap) (w : Word) (i : Instr), decode m w = .ok i → encode m i = w

/-- R113: the encoding is the weighted sum of the fields, decoding is its inverse both ways, and the rule's example. -/
def Obligations.WordsAreFieldTuples : Prop :=
  (∀ d : Decoded, (encodeFields d).toNat =
    d.op.toNat * 2 ^ 14 + d.fields.r.toNat * 2 ^ 12 + d.fields.x.toNat * 2 ^ 10 + d.fields.i.toNat * 2 ^ 9 +
      d.fields.t.toNat * 2 ^ 8 + d.fields.addr.toNat) ∧
  (∀ d : Decoded, decodeFields (encodeFields d) = d) ∧
  (∀ w : Word, encodeFields (decodeFields w) = w) ∧
  (∀ w : Word,
    (decodeFields w).op = w.extractLsb' 14 6 ∧ (decodeFields w).fields.r = w.extractLsb' 12 2 ∧
      (decodeFields w).fields.x = w.extractLsb' 10 2 ∧ (decodeFields w).fields.i = w.getLsbD 9 ∧
      (decodeFields w).fields.t = w.getLsbD 8 ∧ (decodeFields w).fields.addr = w.extractLsb' 0 8) ∧
  encodeFields ⟨1, ⟨3, 0, false, false, 31⟩⟩ = 0x0701F ∧ (0x0701F : Word) = 28703

/-- Decoding refuses exactly the Words whose opcode field is no mnemonic's number, and names that number (R115). -/
def Obligations.OnlyUnassignedOpcodesAreRefused : Prop :=
  ∀ (m : OpcodeMap) (w : Word) (e : DecodeError),
    decode m w = .error e ↔ (e = .noMnemonic (decodeFields w).op ∧ (decodeFields w).op ∉ m.numbers)

/-- Words written out in spec/95_test_vectors.md decode to the instructions it gives for them, under R114's opcode numbers,
which the spec takes from outside its source (PRESUMED, log 6). -/
def Obligations.SpecWordsDecode : Prop :=
  decode OpcodeMap.standard 0x06032 = .ok (.ldr ⟨2, 0, false, false, 50⟩) ∧
  decode OpcodeMap.standard 0x0903C = .ok (.str ⟨1, 0, false, false, 60⟩) ∧
  decode OpcodeMap.standard 0x8440C = .ok (.ldx ⟨0, 1, false, false, 12⟩) ∧
  decode OpcodeMap.standard 0x04214 = .ok (.ldr ⟨0, 0, true, false, 20⟩) ∧
  decode OpcodeMap.standard 0x19FFF = .ok (.air ⟨1, 3, true, true, 255⟩) ∧
  decode OpcodeMap.standard 0x15029 = .ok (.smr ⟨1, 0, false, false, 41⟩) ∧
  decode OpcodeMap.standard 0 = .error (.noMnemonic 0)

/-! ## The BitVector value type -/

/-- R131, R132: checked construction succeeds exactly on the asymmetric range and reads back what it was built from. -/
def Obligations.CheckedConstructionReadsBack : Prop :=
  ∀ (n : Nat) (k : Int), 1 ≤ n → n ≤ 64 →
    (-(2 ^ (n - 1) - 1) ≤ k ∧ k ≤ 2 ^ n - 1 →
      ∃ v, makeBits n k = .ok v ∧ v.width = n ∧ (0 ≤ k → (v.uval : Int) = k) ∧ (k < 0 → v.sval = k)) ∧
    (k < -(2 ^ (n - 1) - 1) ∨ 2 ^ n - 1 < k → makeBits n k = .error .range)

/-- R133: the binary string of a BitVector is its bits most significant first and builds it again, a string that builds one
is its binary string, and a string of length 0, above 64 or with another character is fatal. -/
def Obligations.BinaryStringsRoundTrip : Prop :=
  (∀ v : BitVector, (toBinaryString v).length = v.width ∧
    ∀ k, k < v.width → (toBinaryString v)[k]? = some (if v.bits.getLsbD (v.width - 1 - k) then '1' else '0')) ∧
  toBinaryString ⟨5, 2⟩ = ['0', '0', '0', '1', '0'] ∧
  (∀ v : BitVector, v.legal → fromBinaryString (toBinaryString v) = .ok v) ∧
  (∀ (cs : List Char) (v : BitVector),
    fromBinaryString cs = .ok v → toBinaryString v = cs ∧ v.width = cs.length ∧ v.legal) ∧
  (∀ cs : List Char,
    (cs.length = 0 ∨ 64 < cs.length ∨ ∃ c ∈ cs, c ≠ '0' ∧ c ≠ '1') → fromBinaryString cs = .error .range)

/-- R138 to R143: what each shift and rotate computes, for every count, and that a negative count is fatal. That the
arithmetic left shift is the logical one the spec takes from general knowledge (R141, D12): PRESUMED, log 17. -/
def Obligations.ShiftsAndRotates : Prop :=
  ∀ v : BitVector,
    (∀ k : Nat,
      (∃ r, shiftLeftLogical v k = .ok r ∧ r.width = v.width ∧ r.uval = v.uval * 2 ^ k % 2 ^ v.width) ∧
      shiftLeftArithmetic v k = shiftLeftLogical v k ∧
      (∃ r, shiftRightLogical v k = .ok r ∧ r.width = v.width ∧ r.uval = v.uval / 2 ^ k) ∧
      (∃ r, shiftRightArithmetic v k = .ok r ∧ r.width = v.width ∧ r.sval = v.sval / 2 ^ k) ∧
      (∃ r, rotateLeft v k = .ok r ∧ r.width = v.width ∧
        ∀ i, i < v.width → r.bits.getLsbD ((i + k) % v.width) = v.bits.getLsbD i) ∧
      (∃ r, rotateRight v k = .ok r ∧ r.width = v.width ∧
        ∀ i, i < v.width → r.bits.getLsbD i = v.bits.getLsbD ((i + k) % v.width))) ∧
    (∀ k : Int, k < 0 →
      shiftLeftLogical v k = .error .range ∧ shiftLeftArithmetic v k = .error .range ∧
      shiftRightLogical v k = .error .range ∧ shiftRightArithmetic v k = .error .range ∧
      rotateLeft v k = .error .range ∧ rotateRight v k = .error .range)

/-- R136, R137: NOT, AND and OR bit by bit, the narrower operand sign-extended. -/
def Obligations.LogicIsBitwise : Prop :=
  (∀ v : BitVector, (notBits v).width = v.width ∧
    ∀ i, i < v.width → (notBits v).bits.getLsbD i = !v.bits.getLsbD i) ∧
  (∀ a b : BitVector,
    (andBits a b).width = max a.width b.width ∧ (orBits a b).width = max a.width b.width ∧
    ∀ i, i < max a.width b.width →
      (andBits a b).bits.getLsbD i =
        ((if i < a.width then a.bits.getLsbD i else a.bits.msb) &&
          (if i < b.width then b.bits.getLsbD i else b.bits.msb)) ∧
      (orBits a b).bits.getLsbD i =
        ((if i < a.width then a.bits.getLsbD i else a.bits.msb) ||
          (if i < b.width then b.bits.getLsbD i else b.bits.msb)))

/-! ## The ALU -/

/-- R152: the ripple from the least significant bit computes the sum, and its last carry is the carry out of the width. -/
def Obligations.RippleCarryIsAddition : Prop :=
  ∀ (w : Nat) (a b : BitVec w),
    (∀ i, i < w → (a + b).getLsbD i = sumBit a b i) ∧
    carryChain a b w = decide (2 ^ w ≤ a.toNat + b.toNat) ∧ carryOut a b = carryChain a b w

/-- R151, R152: ADD of BitVectors of any widths: the result's width and value, and each flag under either rule for
overflow. -/
def Obligations.AddResultAndFlags : Prop :=
  ∀ (rule : OverflowRule) (a b : BitVector) (w : Nat), w = max a.width b.width →
    (aluAdd rule a b).1.width = w ∧
    ((aluAdd rule a b).1.uval : Int) = (a.sval + b.sval) % 2 ^ w ∧
    (aluAdd rule a b).2.ov =
      some (match rule with
        | .carryOut => decide ((2 : Int) ^ w ≤ a.sval % 2 ^ w + b.sval % 2 ^ w)
        | .signed => decide (a.sval + b.sval < minSigned w ∨ maxSigned w < a.sval + b.sval)) ∧
    (aluAdd rule a b).2.uf = some (decide (a.sval + b.sval < minSigned w)) ∧
    (aluAdd rule a b).2.dz = none

/-- R154: SUBTRACT of BitVectors of any widths; under `carry_out` overflow is the adder's "no borrow" carry, false on a
zero subtrahend. -/
def Obligations.SubtractResultAndFlags : Prop :=
  ∀ (rule : OverflowRule) (a b : BitVector) (w : Nat), w = max a.width b.width →
    (aluSubtract rule a b).1.width = w ∧
    ((aluSubtract rule a b).1.uval : Int) = (a.sval - b.sval) % 2 ^ w ∧
    (aluSubtract rule a b).2.ov =
      some (match rule with
        | .carryOut => decide (b.sval ≠ 0 ∧ b.sval % 2 ^ w ≤ a.sval % 2 ^ w)
        | .signed => decide (a.sval - b.sval < minSigned w ∨ maxSigned w < a.sval - b.sval)) ∧
    (aluSubtract rule a b).2.uf = some (decide (a.sval - b.sval < minSigned w)) ∧
    (aluSubtract rule a b).2.dz = none

/-- R156: MULTIPLY gives the low 40 bits of the exact signed product and overflows exactly when the product does not fit;
two Words never overflow. -/
def Obligations.MultiplyResultAndFlags : Prop :=
  ∀ a b : BitVector,
    (aluMultiply a b).1.width = 40 ∧
    ((aluMultiply a b).1.uval : Int) = a.sval * b.sval % 2 ^ 40 ∧
    (aluMultiply a b).2.ov = some (decide (a.sval * b.sval < minSigned 40 ∨ maxSigned 40 < a.sval * b.sval)) ∧
    (aluMultiply a b).2.uf = none ∧ (aluMultiply a b).2.dz = none ∧
    (a.width = 20 → b.width = 20 → (aluMultiply a b).2.ov = some false)

/-- R157: DIVIDE by a non-zero divisor gives the floored quotient and the remainder with the divisor's sign, packed as two
20-bit halves; by zero, quotient 0, the remainder the parameter `DIVZERO_REMAINDER` gives for the dividend (R5), and the
divide-by-zero flag. The parameter is 0 by default, and as a table (log 5) it can be any function of the dividends. -/
def Obligations.DivideResultAndFlags : Prop :=
  (∀ (table : RemainderTable) (a b : BitVector),
    (b.sval ≠ 0 → ∃ q rm : Int, a.sval = b.sval * q + rm ∧
      (0 < b.sval → 0 ≤ rm ∧ rm < b.sval) ∧ (b.sval < 0 → b.sval < rm ∧ rm ≤ 0) ∧
      (aluDivide table a b).1.width = 40 ∧
      ((aluDivide table a b).1.uval : Int) = q % 2 ^ 20 * 2 ^ 20 + rm % 2 ^ 20 ∧
      (aluDivide table a b).2 = ⟨none, none, some false⟩) ∧
    (b.sval = 0 → (aluDivide table a b).1.width = 40 ∧
      (aluDivide table a b).1.uval = (remainderByZero table a).toNat ∧
      (aluDivide table a b).2 = ⟨none, none, some true⟩)) ∧
  (∀ a : BitVector, remainderByZero Params.standard.divZeroRemainder a = 0) ∧
  (∀ (f : BitVector → Word) (dividends : List BitVector),
    ∃ table, ∀ a ∈ dividends, remainderByZero table a = f a)

/-- R147, R148: a started ALU with both operands computes in its one step what its control code says, of R145's five, and
clears the operands; with one missing it stops; not started it does nothing. With the control code NONE there is no new
result and every flag is unchanged; that the earlier result then stands is DEDUCED (log 11). -/
def Obligations.AluStepComputesOrStops : Prop :=
  (∀ s : State,
    (s.alu.state ≠ .startComputation → aluStep s = .ok () s) ∧
    (s.alu.state = .startComputation → s.alu.op1 = none ∨ s.alu.op2 = none → aluStep s = .stop .missingOperand) ∧
    (∀ a b, s.alu.state = .startComputation → s.alu.op1 = some a → s.alu.op2 = some b →
      ∃ t, aluStep s = .ok () t ∧ t.alu.state = .computationFinished ∧ t.alu.op1 = none ∧ t.alu.op2 = none ∧
        t.alu.ctl = s.alu.ctl ∧ t = { s with alu := t.alu } ∧
        (s.alu.ctl = .none → t.alu.result = s.alu.result ∧ t.alu.flags = ⟨none, none, none⟩) ∧
        (s.alu.ctl = .add → t.alu.result = some (aluAdd s.cfg.overflowRule a b).1 ∧
          t.alu.flags = (aluAdd s.cfg.overflowRule a b).2) ∧
        (s.alu.ctl = .subtract → t.alu.result = some (aluSubtract s.cfg.overflowRule a b).1 ∧
          t.alu.flags = (aluSubtract s.cfg.overflowRule a b).2) ∧
        (s.alu.ctl = .multiply → t.alu.result = some (aluMultiply a b).1 ∧ t.alu.flags = (aluMultiply a b).2) ∧
        (s.alu.ctl = .divide → t.alu.result = some (aluDivide s.cfg.divZeroRemainder a b).1 ∧
          t.alu.flags = (aluDivide s.cfg.divZeroRemainder a b).2))) ∧
  (∀ (p : Params) (a b : BitVector),
    aluCompute p .none a b = (none, ⟨none, none, none⟩) ∧
    aluCompute p .add a b = (some (aluAdd p.overflowRule a b).1, (aluAdd p.overflowRule a b).2) ∧
    aluCompute p .subtract a b = (some (aluSubtract p.overflowRule a b).1, (aluSubtract p.overflowRule a b).2) ∧
    aluCompute p .multiply a b = (some (aluMultiply a b).1, (aluMultiply a b).2) ∧
    aluCompute p .divide a b = (some (aluDivide p.divZeroRemainder a b).1, (aluDivide p.divZeroRemainder a b).2))

/-- R150: a flag is written unless it is `unchanged`; ADD and SUBTRACT leave DZ, MULTIPLY leaves UF and DZ, DIVIDE leaves
OV and UF. -/
def Obligations.FlagMergeWritesDefinedFlags : Prop :=
  ∀ (cc : CondCodes) (rule : OverflowRule) (table : RemainderTable) (a b : BitVector),
    (cc.merge (aluAdd rule a b).2).dz = cc.dz ∧ (cc.merge (aluSubtract rule a b).2).dz = cc.dz ∧
    (cc.merge (aluMultiply a b).2).uf = cc.uf ∧ (cc.merge (aluMultiply a b).2).dz = cc.dz ∧
    (cc.merge (aluDivide table a b).2).ov = cc.ov ∧ (cc.merge (aluDivide table a b).2).uf = cc.uf ∧
    (∀ g : FlagsRecord, cc.merge g =
      ⟨match g.ov with | some x => x | none => cc.ov, match g.uf with | some x => x | none => cc.uf,
        match g.dz with | some x => x | none => cc.dz⟩)

/-! ## Memory and cache -/

/-- R61: the striping into banks and cells, and which addresses share a bank. -/
def Obligations.AddressesAreStriped : Prop :=
  ∀ a : Nat, bankOf a = a % 8 ∧ cellOf a = a / 8 ∧ addressOf (bankOf a) (cellOf a) = a ∧
    bankOf (a + 8) = bankOf a ∧ cellOf (a + 8) ≠ cellOf a ∧ bankOf (a + 1) ≠ bankOf a

/-- R84, R97: a direct read answers the value of memory and changes no value and no register; with the cache enabled it
leaves the block resident and most recently used (R95); of an invalid address it raises, with no other effect (R62). -/
def Obligations.DirectReadAnswersTheValueOfMemory : Prop :=
  ∀ (s : State) (a : Nat), s.MemoryOk →
    (validAddress a → ∃ t, directRead a s = .ok (s.memval a) t ∧ t = { s with mem := t.mem } ∧ t.MemoryOk ∧
      t.mem.pending = s.mem.pending ∧ s.SameMemory t ∧
      (s.cfg.cacheEnabled = true → s.Accessed t a false) ∧ (s.cfg.cacheEnabled = false → t = s)) ∧
    (¬validAddress a → directRead a s = .raise (.illegalMemoryAddress a) s)

/-- R85, R97: a direct write sets one Word's value and no other; with the cache enabled it leaves the block resident, dirty
and most recently used (R95), and otherwise writes the backing store; to an invalid address it raises, with no other
effect (R62). -/
def Obligations.DirectWriteSetsOneWord : Prop :=
  ∀ (s : State) (a : Nat) (w : Word), s.MemoryOk →
    (validAddress a → ∃ t, directWrite a w s = .ok () t ∧ t = { s with mem := t.mem } ∧ t.MemoryOk ∧
      t.mem.pending = s.mem.pending ∧ s.SameMemoryBut t a w ∧
      (s.cfg.cacheEnabled = true → s.Accessed t a true) ∧
      (s.cfg.cacheEnabled = false → t.mem.lines = s.mem.lines ∧ t.mem.lruClock = s.mem.lruClock ∧
        t.backingRead a = w)) ∧
    (¬validAddress a → directWrite a w s = .raise (.illegalMemoryAddress a) s)

/-- R95: a new block goes to the lowest-numbered invalid line, or, if every line is valid, to a line no other was used
before. -/
def Obligations.AllocationPrefersUnusedThenLeastRecent : Prop :=
  ∀ m : MemorySystem,
    (∀ i : Fin 8, (m.line i).valid = false → (∀ j : Fin 8, j < i → (m.line j).valid = true) → m.victim = i) ∧
    ((∀ i : Fin 8, (m.line i).valid = true) → ∀ i : Fin 8, (m.line m.victim).lastUsed ≤ (m.line i).lastUsed)

/-- R95, R96: allocating a missing block writes a dirty victim's Words back to its block and touches no other Word of the
backing store; a clean or invalid victim is replaced without any write. -/
def Obligations.EvictionWritesBackADirtyLine : Prop :=
  ∀ (m : MemorySystem) (tg : Tag), m.Coherent → m.lineOf tg = none →
    ((m.line m.victim).valid = true → (m.line m.victim).dirty = true →
      (∀ j : Fin 32, (m.allocate tg).backing.read (blockAddress (m.line m.victim).tag j.val) =
        (m.line m.victim).data[j.val]) ∧
      (∀ a, validAddress a → tagOf a ≠ (m.line m.victim).tag →
        (m.allocate tg).backing.read a = m.backing.read a)) ∧
    ((m.line m.victim).valid = false ∨ (m.line m.victim).dirty = false →
      (m.allocate tg).backing = m.backing) ∧
    (m.allocate tg).Coherent ∧ (m.allocate tg).lineOf tg = some m.victim ∧
    ((m.allocate tg).line m.victim).dirty = false ∧
    (∀ i : Fin 8, i ≠ m.victim → (m.allocate tg).line i = m.line i)

/-- R73, R74, R99: a request at a valid address, issued with no load pending, completes in the memory step that issues it,
or on a cache miss `BLOCK_LOAD_TICKS` memory steps later: a fetch leaves the Word in MBR, a store writes MBR to that Word
alone; with the cache enabled the block is then resident and most recently used, after a store dirty (R82, R83, R86). -/
def Obligations.MemoryRequestsComplete : Prop :=
  ∀ s : State, s.MemoryOk → s.mem.pending = none → s.cfg.Legal → validAddress s.mar.toNat →
    (s.mcuState = .preFetch → ∃ t, memorySteps (s.missTicks s.mar.toNat + 1) s = .ok () t ∧
      t = { s with mem := t.mem, mbr := s.memval s.mar.toNat, mcuState := .none } ∧ t.MemoryOk ∧
      t.mem.pending = none ∧ s.SameMemory t ∧ (s.cfg.cacheEnabled = true → s.Accessed t s.mar.toNat false)) ∧
    (s.mcuState = .preStore → ∃ t, memorySteps (s.missTicks s.mar.toNat + 1) s = .ok () t ∧
      t = { s with mem := t.mem, mcuState := .none } ∧ t.MemoryOk ∧
      t.mem.pending = none ∧ s.SameMemoryBut t s.mar.toNat s.mbr ∧
      (s.cfg.cacheEnabled = true → s.Accessed t s.mar.toNat true))

/-! ## The effective address -/

/-- R185: the four addressing modes, in terms of the value of memory, the index field 1, 2 or 3 naming `IX[1]`, `IX[2]` or
`IX[3]` (R23; `getIx j` is `IX[j + 1]`); computing the address changes no register and no value of memory (R186). -/
def Obligations.EffectiveAddressModes : Prop :=
  ∀ (f : Fields) (s : State), s.MemoryOk →
    (f.i = false → f.x = 0 → computeEA f s = .ok f.addr.toNat s) ∧
    (∀ j : Fin 3, f.i = false → j.val + 1 = f.x.toNat →
      ∃ t, computeEA f s = .ok ((s.getIx j).toNat + (s.memval f.addr.toNat).toNat) t ∧
        t = { s with mem := t.mem } ∧ t.MemoryOk ∧ t.mem.pending = s.mem.pending ∧ s.SameMemory t) ∧
    (f.i = true → f.x = 0 → validAddress (s.memval f.addr.toNat).toNat →
      ∃ t, computeEA f s = .ok (s.memval (s.memval f.addr.toNat).toNat).toNat t ∧
        t = { s with mem := t.mem } ∧ t.MemoryOk ∧ t.mem.pending = s.mem.pending ∧ s.SameMemory t) ∧
    (∀ j : Fin 3, f.i = true → j.val + 1 = f.x.toNat → validAddress ((s.getIx j).toNat + (s.memval f.addr.toNat).toNat) →
      ∃ t, computeEA f s = .ok (s.memval ((s.getIx j).toNat + (s.memval f.addr.toNat).toNat)).toNat t ∧
        t = { s with mem := t.mem } ∧ t.MemoryOk ∧ t.mem.pending = s.mem.pending ∧ s.SameMemory t)

/-- R186: an indirection through an address no memory backs raises ILLEGAL_MEMORY_ADDRESS of that address, no register and
no value of memory changed. -/
def Obligations.InvalidIndirectionRaises : Prop :=
  ∀ (f : Fields) (s : State), s.MemoryOk → f.i = true →
    (f.x = 0 → ¬validAddress (s.memval f.addr.toNat).toNat →
      ∃ t, computeEA f s = .raise (.illegalMemoryAddress (s.memval f.addr.toNat).toNat) t ∧
        t = { s with mem := t.mem } ∧ t.MemoryOk ∧ s.SameMemory t) ∧
    (∀ j : Fin 3, j.val + 1 = f.x.toNat → ¬validAddress ((s.getIx j).toNat + (s.memval f.addr.toNat).toNat) →
      ∃ t, computeEA f s = .raise (.illegalMemoryAddress ((s.getIx j).toNat + (s.memval f.addr.toNat).toNat)) t ∧
        t = { s with mem := t.mem } ∧ t.MemoryOk ∧ s.SameMemory t)

/-! ## What each instruction does: its result, its completion and its frame -/

/-- R211: LDR loads the Word at the effective address into `GPR[r]`. -/
def Obligations.LdrLoadsTheWord : Prop :=
  ∀ (f : Fields) (s u : State) (ea : Nat), s.Ready → computeEA f (enterExecute s) = .ok ea u → validAddress ea →
    ∃ t, exec (.ldr f) s = .next t ∧ t.getGpr f.r = s.memval ea ∧ s.SameGprBut t f.r ∧ t.ix = s.ix ∧ t.cc = s.cc ∧
      t.alu = s.alu ∧ t.mar.toNat = ea ∧ t.mbr = s.memval ea ∧ t.ea = ea ∧ t.imm = s.imm ∧ s.SameSpecial t ∧
      s.SameMemory t ∧ s.Completed t

/-- R212: STR stores `GPR[r]` at the effective address and changes no other Word. -/
def Obligations.StrStoresTheRegister : Prop :=
  ∀ (f : Fields) (s u : State) (ea : Nat), s.Ready → computeEA f (enterExecute s) = .ok ea u → validAddress ea →
    ∃ t, exec (.str f) s = .next t ∧ s.SameMemoryBut t ea (s.getGpr f.r) ∧ t.gpr = s.gpr ∧ t.ix = s.ix ∧ t.cc = s.cc ∧
      t.alu = s.alu ∧ t.mar.toNat = ea ∧ t.mbr = s.getGpr f.r ∧ t.ea = ea ∧ t.imm = s.imm ∧ s.SameSpecial t ∧
      s.Completed t

/-- R213, R217: LDA loads the Word at the effective address into `IX[r]` (R23), when it fits 13 bits. -/
def Obligations.LdaLoadsTheIndexRegister : Prop :=
  ∀ (f : Fields) (s u : State) (ea : Nat) (j : Fin 3), s.Ready → computeEA f (enterExecute s) = .ok ea u →
    validAddress ea → j.val + 1 = f.r.toNat → (s.memval ea).toNat ≤ 8191 →
    ∃ t, exec (.lda f) s = .next t ∧ (t.getIx j).toNat = (s.memval ea).toNat ∧
      (∀ k, k ≠ j → t.getIx k = s.getIx k) ∧ t.gpr = s.gpr ∧ t.cc = s.cc ∧
      t.alu = s.alu ∧ t.mar.toNat = ea ∧ t.mbr = s.memval ea ∧ t.ea = ea ∧ t.imm = s.imm ∧ s.SameSpecial t ∧
      s.SameMemory t ∧ s.Completed t

/-- R214, R217: LDX loads the Word at the effective address, which the old `IX[x]` indexes, into `IX[x]` (R23). -/
def Obligations.LdxLoadsTheIndexRegister : Prop :=
  ∀ (f : Fields) (s u : State) (ea : Nat) (j : Fin 3), s.Ready → computeEA f (enterExecute s) = .ok ea u →
    validAddress ea → j.val + 1 = f.x.toNat → (s.memval ea).toNat ≤ 8191 →
    ∃ t, exec (.ldx f) s = .next t ∧ (t.getIx j).toNat = (s.memval ea).toNat ∧
      (∀ k, k ≠ j → t.getIx k = s.getIx k) ∧ t.gpr = s.gpr ∧ t.cc = s.cc ∧
      t.alu = s.alu ∧ t.mar.toNat = ea ∧ t.mbr = s.memval ea ∧ t.ea = ea ∧ t.imm = s.imm ∧ s.SameSpecial t ∧
      s.SameMemory t ∧ s.Completed t

/-- R215: STX stores `IX[x]` (R23), zero-extended to a Word, at the effective address and changes no other Word. -/
def Obligations.StxStoresTheIndexRegister : Prop :=
  ∀ (f : Fields) (s u : State) (ea : Nat) (j : Fin 3), s.Ready → computeEA f (enterExecute s) = .ok ea u →
    validAddress ea → j.val + 1 = f.x.toNat →
    ∃ t, exec (.stx f) s = .next t ∧ s.SameMemoryBut t ea (BitVec.ofNat 20 (s.getIx j).toNat) ∧ t.gpr = s.gpr ∧
      t.ix = s.ix ∧ t.cc = s.cc ∧ t.alu = s.alu ∧ t.mar.toNat = ea ∧ t.mbr = BitVec.ofNat 20 (s.getIx j).toNat ∧
      t.ea = ea ∧ t.imm = s.imm ∧ s.SameSpecial t ∧ s.Completed t

/-- R241: AMR adds the Word at the effective address to `GPR[r]`; OV and UF are ADD's, DZ as before. -/
def Obligations.AmrAddsTheWord : Prop :=
  ∀ (f : Fields) (s u : State) (ea : Nat), s.Ready → s.cfg.arithPolicy = .implement →
    computeEA f (enterExecute s) = .ok ea u → validAddress ea →
    ∃ t, exec (.amr f) s = .next t ∧ t.getGpr f.r = s.getGpr f.r + s.memval ea ∧ s.SameGprBut t f.r ∧ t.ix = s.ix ∧
      t.cc =
        ⟨overflowFlag s.cfg.overflowRule 20 (decide (2 ^ 20 ≤ (s.getGpr f.r).toNat + (s.memval ea).toNat))
            ((s.getGpr f.r).toInt + (s.memval ea).toInt),
          decide ((s.getGpr f.r).toInt + (s.memval ea).toInt < minSigned 20), s.cc.dz⟩ ∧
      t.alu.state = .computationFinished ∧ t.alu.op1 = none ∧ t.alu.op2 = none ∧ t.alu.ctl = .add ∧
      t.alu.flags = ⟨some t.cc.ov, some t.cc.uf, none⟩ ∧
      t.alu.result = some (BitVector.ofWord (s.getGpr f.r + s.memval ea)) ∧
      t.mar.toNat = ea ∧ t.mbr = s.memval ea ∧ t.ea = ea ∧ t.imm = s.imm ∧ s.SameSpecial t ∧
      s.SameMemory t ∧ s.Completed t

/-- R242: SMR subtracts the Word at the effective address from `GPR[r]`; OV and UF are SUBTRACT's, DZ as before. -/
def Obligations.SmrSubtractsTheWord : Prop :=
  ∀ (f : Fields) (s u : State) (ea : Nat), s.Ready → s.cfg.arithPolicy = .implement →
    computeEA f (enterExecute s) = .ok ea u → validAddress ea →
    ∃ t, exec (.smr f) s = .next t ∧ t.getGpr f.r = s.getGpr f.r - s.memval ea ∧ s.SameGprBut t f.r ∧ t.ix = s.ix ∧
      t.cc =
        ⟨overflowFlag s.cfg.overflowRule 20
            (decide (s.memval ea ≠ 0 ∧ (s.memval ea).toNat ≤ (s.getGpr f.r).toNat))
            ((s.getGpr f.r).toInt - (s.memval ea).toInt),
          decide ((s.getGpr f.r).toInt - (s.memval ea).toInt < minSigned 20), s.cc.dz⟩ ∧
      t.alu.state = .computationFinished ∧ t.alu.op1 = none ∧ t.alu.op2 = none ∧ t.alu.ctl = .subtract ∧
      t.alu.flags = ⟨some t.cc.ov, some t.cc.uf, none⟩ ∧
      t.alu.result = some (BitVector.ofWord (s.getGpr f.r - s.memval ea)) ∧
      t.mar.toNat = ea ∧ t.mbr = s.memval ea ∧ t.ea = ea ∧ t.imm = s.imm ∧ s.SameSpecial t ∧
      s.SameMemory t ∧ s.Completed t

/-- R243, R245: AIR adds the address field, zero-extended, to `GPR[r]`, whatever x, i and t are, with no memory access. -/
def Obligations.AirAddsTheImmediate : Prop :=
  ∀ (f : Fields) (s : State), s.Ready → s.cfg.arithPolicy = .implement →
    ∃ t, exec (.air f) s = .next t ∧ t.getGpr f.r = s.getGpr f.r + BitVec.ofNat 20 f.addr.toNat ∧ s.SameGprBut t f.r ∧
      t.ix = s.ix ∧
      t.cc =
        ⟨overflowFlag s.cfg.overflowRule 20 (decide (2 ^ 20 ≤ (s.getGpr f.r).toNat + f.addr.toNat))
            ((s.getGpr f.r).toInt + f.addr.toNat),
          decide ((s.getGpr f.r).toInt + f.addr.toNat < minSigned 20), s.cc.dz⟩ ∧
      t.alu.state = .computationFinished ∧ t.alu.op1 = none ∧ t.alu.op2 = none ∧ t.alu.ctl = .add ∧
      t.alu.flags = ⟨some t.cc.ov, some t.cc.uf, none⟩ ∧
      t.alu.result = some (BitVector.ofWord (s.getGpr f.r + BitVec.ofNat 20 f.addr.toNat)) ∧
      t.mar = s.mar ∧ t.mbr = s.mbr ∧ t.ea = s.ea ∧ t.imm = BitVec.ofNat 20 f.addr.toNat ∧ s.SameSpecial t ∧
      t.mem = s.mem ∧ s.Completed t

/-- R244, R245: SIR subtracts the address field, zero-extended, from `GPR[r]`. -/
def Obligations.SirSubtractsTheImmediate : Prop :=
  ∀ (f : Fields) (s : State), s.Ready → s.cfg.arithPolicy = .implement →
    ∃ t, exec (.sir f) s = .next t ∧ t.getGpr f.r = s.getGpr f.r - BitVec.ofNat 20 f.addr.toNat ∧ s.SameGprBut t f.r ∧
      t.ix = s.ix ∧
      t.cc =
        ⟨overflowFlag s.cfg.overflowRule 20 (decide (f.addr ≠ 0 ∧ f.addr.toNat ≤ (s.getGpr f.r).toNat))
            ((s.getGpr f.r).toInt - f.addr.toNat),
          decide ((s.getGpr f.r).toInt - f.addr.toNat < minSigned 20), s.cc.dz⟩ ∧
      t.alu.state = .computationFinished ∧ t.alu.op1 = none ∧ t.alu.op2 = none ∧ t.alu.ctl = .subtract ∧
      t.alu.flags = ⟨some t.cc.ov, some t.cc.uf, none⟩ ∧
      t.alu.result = some (BitVector.ofWord (s.getGpr f.r - BitVec.ofNat 20 f.addr.toNat)) ∧
      t.mar = s.mar ∧ t.mbr = s.mbr ∧ t.ea = s.ea ∧ t.imm = BitVec.ofNat 20 f.addr.toNat ∧ s.SameSpecial t ∧
      t.mem = s.mem ∧ s.Completed t

/-- R260, R261, R276: JNE, JCC, SOB and JGE have no handler: each raises ILLEGAL_OPCODE, which is vectored, and branches
nowhere. -/
def Obligations.BranchOpcodesRaiseIllegalOpcode : Prop :=
  ∀ (i : Instr) (s : State), isBranch i = true → s.MemoryOk →
    ∃ t, exec i s = .next t ∧ s.Vectored t (.illegalOpcode (opcodeOf s.cfg.opcodes i)) ∧
      t.mar = s.mar ∧ t.mbr = s.mbr ∧ t.ea = s.ea ∧ t.imm = s.imm ∧ t.dec = s.dec ∧
      t.Ready ∧ (s.Ready → t.alu = { s.alu with state := .none, op1 := none, op2 := none })

/-! ## Where instructions stop or fault -/

/-- R213, R214, R215, R23, D16: LDA with r = 0, LDX and STX with x = 0 name index register 0, which does not exist: the run
stops with UNDEFINED_REGISTER (after the memory read of LDA and LDX; before any access of STX). With any other number the
named register is `IX[1]`, `IX[2]` or `IX[3]`, and no instruction stops so. -/
def Obligations.IndexRegisterZeroStops : Prop :=
  (∀ (f : Fields) (s u : State) (ea : Nat), s.Ready → computeEA f (enterExecute s) = .ok ea u →
    (f.r = 0 → validAddress ea → exec (.lda f) s = .refused (.fatal .undefinedRegister)) ∧
    (f.x = 0 → validAddress ea → exec (.ldx f) s = .refused (.fatal .undefinedRegister)) ∧
    (f.x = 0 → exec (.stx f) s = .refused (.fatal .undefinedRegister)) ∧
    (f.r ≠ 0 → exec (.lda f) s ≠ .refused (.fatal .undefinedRegister)) ∧
    (f.x ≠ 0 → exec (.ldx f) s ≠ .refused (.fatal .undefinedRegister) ∧
      exec (.stx f) s ≠ .refused (.fatal .undefinedRegister))) ∧
  (∀ n : BitVec 2, (indexOf n = none ↔ n = 0) ∧ ∀ j : Fin 3, indexOf n = some j ↔ j.val + 1 = n.toNat)

/-- R217: LDA and LDX of a Word above 8191 into an index register that exists, `IX[j + 1]` as R23 numbers it, stop with
RANGE. -/
def Obligations.WideWordIntoAnIndexRegisterStops : Prop :=
  ∀ (f : Fields) (s u : State) (ea : Nat) (j : Fin 3), s.Ready → computeEA f (enterExecute s) = .ok ea u →
    validAddress ea → 8191 < (s.memval ea).toNat →
    (j.val + 1 = f.r.toNat → exec (.lda f) s = .refused (.fatal .range)) ∧
    (j.val + 1 = f.x.toNat → exec (.ldx f) s = .refused (.fatal .range))

/-- R246: under `ARITH_POLICY = fail_fast`, AMR, SMR, AIR and SIR stop with NOT_IMPLEMENTED in E0. -/
def Obligations.FailFastStopsArithmetic : Prop :=
  ∀ (i : Instr) (s : State), isArithmetic i = true → s.cfg.arithPolicy = .failFast →
    exec i s = .refused (.fatal .notImplemented) ∧ handlerOf i 0 s = .stop .notImplemented

/-- R188, R210, R271, R277: an effective address above 2047 raises ILLEGAL_MEMORY_ADDRESS, which is vectored, and the
instruction has written no general or index register, no flag and no Word. An address above 8191 does not enter MAR, and
a store has then not set MBR; otherwise a store has put its Word there. -/
def Obligations.UnbackedEffectiveAddressFaults : Prop :=
  ∀ (i : Instr) (s u : State) (ea : Nat), s.Ready → usesMemory i = true →
    computeEA i.fields (enterExecute s) = .ok ea u → ¬validAddress ea →
    (isArithmetic i = true → s.cfg.arithPolicy = .implement) → (∀ f, i = .stx f → f.x ≠ 0) →
    ∃ t, exec i s = .next t ∧ s.Vectored t (.illegalMemoryAddress ea) ∧ t.Ready ∧
      (8191 < ea → t.mar = s.mar) ∧ (ea ≤ 8191 → t.mar.toNat = ea) ∧ (isStore i = false ∨ 8191 < ea → t.mbr = s.mbr) ∧
      (∀ f, i = .str f → ea ≤ 8191 → t.mbr = s.getGpr f.r) ∧
      (∀ f (j : Fin 3), i = .stx f → j.val + 1 = f.x.toNat → ea ≤ 8191 →
        t.mbr = BitVec.ofNat 20 (s.getIx j).toNat) ∧
      t.ea = ea ∧ t.imm = s.imm ∧ t.dec = s.dec ∧ t.alu = { s.alu with state := .none, op1 := none, op2 := none }

/-- R186, R271, R277: an effective-address read of an address no memory backs is vectored the same way. -/
def Obligations.UnbackedIndirectionFaults : Prop :=
  ∀ (i : Instr) (s u : State) (g : MachineFault), s.Ready → usesMemory i = true →
    computeEA i.fields (enterExecute s) = .raise g u →
    (isArithmetic i = true → s.cfg.arithPolicy = .implement) →
    ∃ t, exec i s = .next t ∧ s.Vectored t g ∧ t.Ready ∧ t.mar = s.mar ∧ t.mbr = s.mbr ∧ t.ea = s.ea ∧ t.imm = s.imm ∧
      t.dec = s.dec ∧ t.alu = { s.alu with state := .none, op1 := none, op2 := none } ∧
      ∃ a, g = .illegalMemoryAddress a ∧ ¬validAddress a

/-! ## Taking a fault -/

/-- R276: the vectoring sequence, from every state whose memory is in order. -/
def Obligations.VectoringSequence : Prop :=
  ∀ (f : MachineFault) (s : State), s.MemoryOk →
    s.Vectored (takeFault f s) f ∧ (takeFault f s).MemoryOk ∧ (takeFault f s).dec = s.dec ∧
    (takeFault f s).mar = s.mar ∧ (takeFault f s).mbr = s.mbr ∧ (takeFault f s).alu.result = s.alu.result ∧
    (takeFault f s).alu.ctl = s.alu.ctl ∧ (takeFault f s).alu.flags = s.alu.flags ∧
    (takeFault f s).ea = s.ea ∧ (takeFault f s).imm = s.imm

/-- R273: no tick raises ILLEGAL_TRAP_CODE, from any state at all. -/
def Obligations.IllegalTrapCodeIsNeverRaised : Prop :=
  ∀ s t : State, tickBody controlStep s ≠ .raise .illegalTrapCode t

/-- R271, R311: fetching at a PC above 2047 faults in the first tick, and the step is that tick's vectoring. -/
def Obligations.FetchBeyondMemoryFaults : Prop :=
  ∀ s : State, s.Inv → ¬validAddress s.pc.toNat →
    ∃ t, step s = .next t ∧ tick s = .next t ∧ s.Vectored t (.illegalMemoryAddress s.pc.toNat) ∧ t.mar = s.pc

/-! ## The step and the tick -/

/-- At an instruction boundary, when the Word at the PC decodes to an instruction, the step is that instruction executed
from the state its fetch and decode leave (R180 to R184). -/
def Obligations.StepRunsTheDecodedInstruction : Prop :=
  ∀ (s : State) (i : Instr), s.Inv → validAddress s.pc.toNat →
    decode s.cfg.opcodes (s.memval s.pc.toNat) = .ok i →
    ∃ u, s.Fetched u (s.memval s.pc.toNat) ∧ step s = exec i u

/-- R115, R118, R260: a Word whose opcode field is no mnemonic's number is fetched and decoded, then ILLEGAL_OPCODE is
raised and vectored. -/
def Obligations.StepOfAnUnassignedOpcodeFaults : Prop :=
  ∀ (s : State) (op : BitVec 6), s.Inv → validAddress s.pc.toNat →
    decode s.cfg.opcodes (s.memval s.pc.toNat) = .error (.noMnemonic op) →
    ∃ u t, s.Fetched u (s.memval s.pc.toNat) ∧ step s = .next t ∧ u.Vectored t (.illegalOpcode op) ∧
      op = (s.memval s.pc.toNat).extractLsb' 14 6

/-- A step is the ticks from its state to the next instruction boundary, no more and no fewer, and stops exactly where a
tick stops: from every state of a machine whose run has not ended (R305, R307; the grain of a step is log 1's). -/
def Obligations.StepIsTicksToTheNextBoundary : Prop :=
  ∀ s : State, s.outcome = .running →
    (∀ t, step s = .next t → t.atBoundary = true ∧ ∃ k, ticks (k + 1) s = .next t ∧
      ∀ j, j < k → ∃ u, ticks (j + 1) s = .next u ∧ u.atBoundary = false) ∧
    (∀ r, step s = .refused r → ∃ k u, ticks k s = .next u ∧ tick u = .refused r ∧
      ∀ j, j < k → ∃ v, ticks (j + 1) s = .next v ∧ v.atBoundary = false)

/-- R309: forward progress. From every state at all, a step ends within the model's own tick budget, so that its fault
`stalled` is never answered (the budget and the fault are a DESIGN CHOICE, log 1). From an instruction boundary the
instruction ends within `7 + 2 * BLOCK_LOAD_TICKS` ticks, at the next boundary or in a stop. -/
def Obligations.StepNeverStalls : Prop :=
  (∀ (s : State) (r : Fault), step s ≠ .fault r) ∧
  (∀ s : State, s.Inv → (s.cfg.cacheEnabled = true → 1 ≤ s.cfg.blockLoadTicks) →
    (∀ t, step s = .next t → ∃ n, 0 < n ∧ n ≤ 7 + 2 * s.cfg.blockLoadTicks ∧ s.ReachesIn n t) ∧
    (∀ r, step s = .refused r →
      ∃ n u, n + 1 ≤ 7 + 2 * s.cfg.blockLoadTicks ∧ ticks n s = .next u ∧ tick u = .refused r))

/-- What holds at an instruction boundary holds at the next one (R95, R247, R276, R300, R308). -/
def Obligations.StepKeepsTheBoundaryInvariant : Prop :=
  ∀ s t : State, s.Inv → step s = .next t → t.Inv

/-- The reset state is an instruction boundary of the invariant. -/
def Obligations.ResetSatisfiesTheInvariant : Prop :=
  State.reset.Inv

/-- R300, R40, R35 to R39: reset under any parameters leaves every register and every latch zero but the PC, the memory
unit, the ALU and the sequencer idle, the boot image in memory and zero elsewhere, and the boundary invariant holding; with
the cache disabled or an empty boot image every cache line is invalid, clean and unused. -/
def Obligations.ResetWithAnyBootImage : Prop :=
  ∀ p : Params, p.Legal →
    (State.resetWith p).Inv ∧ (State.resetWith p).cfg = p ∧ (State.resetWith p).pc = 10 ∧
    (∀ r, (State.resetWith p).getGpr r = 0) ∧ (∀ j, (State.resetWith p).getIx j = 0) ∧
    (State.resetWith p).ir = 0 ∧ (State.resetWith p).msr = 0 ∧ (State.resetWith p).mfr = 0 ∧
    (State.resetWith p).cc = ⟨false, false, false⟩ ∧ (State.resetWith p).mar = 0 ∧ (State.resetWith p).mbr = 0 ∧
    (State.resetWith p).mcuState = .none ∧ (State.resetWith p).mem.pending = none ∧
    (State.resetWith p).alu.state = .none ∧ (State.resetWith p).alu.ctl = .none ∧
    (State.resetWith p).alu.op1 = none ∧ (State.resetWith p).alu.op2 = none ∧
    (State.resetWith p).alu.result = none ∧
    (State.resetWith p).phase = .fetch ∧ (State.resetWith p).micro = 0 ∧
    (State.resetWith p).dec = ⟨0, ⟨0, 0, false, false, 0⟩⟩ ∧ (State.resetWith p).ea = 0 ∧
    (State.resetWith p).imm = 0 ∧ (State.resetWith p).outcome = .running ∧
    (∀ a w, (a, w) ∈ p.bootImage → (State.resetWith p).memval a.toNat = w) ∧
    (∀ b, validAddress b → (∀ c ∈ p.bootImage, c.1.toNat ≠ b) → (State.resetWith p).memval b = 0) ∧
    (p.cacheEnabled = false ∨ p.bootImage = [] → (State.resetWith p).mem.lruClock = 0 ∧
      ∀ i : Fin 8, ((State.resetWith p).mem.line i).valid = false ∧ ((State.resetWith p).mem.line i).dirty = false ∧
        ((State.resetWith p).mem.line i).lastUsed = 0)

/-- R312: with the cache enabled and with it disabled, states that look alike take steps that look alike: the same
registers, flags, latches and values of memory, or the same stop. -/
def Obligations.CacheIsTransparent : Prop :=
  ∀ s u : State, s.Inv → u.Inv → s.cfg.cacheEnabled = true → u.cfg = { s.cfg with cacheEnabled := false } →
    s.SameView u →
    (∀ t, step s = .next t → ∃ v, step u = .next v ∧ t.SameView v) ∧
    (∀ r, step s = .refused r → step u = .refused r)

/-- R190, R191, R276: from an instruction boundary control goes only to the next Word or, on a fault, to 43. -/
def Obligations.ControlOnlyAdvancesOrVectors : Prop :=
  ∀ s t : State, s.Inv → step s = .next t → t.pc = s.pc + 1 ∨ t.pc = 43

/-- R22, R24, R27, R30: whatever state it starts from, an instruction that answers a next state writes at most its own
target register, never MSR, the divide-by-zero flag or the parameters, and the other flags only if it is AMR, SMR, AIR or
SIR; MFR changes only when control goes to 43. -/
def Obligations.InstructionsWriteOnlyTheirTargets : Prop :=
  ∀ (i : Instr) (s t : State), exec i s = .next t →
    (∀ q, targetGpr i ≠ some q → t.getGpr q = s.getGpr q) ∧
    (∀ j : Fin 3, (∀ f, i = .lda f → j.val + 1 ≠ f.r.toNat) → (∀ f, i = .ldx f → j.val + 1 ≠ f.x.toNat) →
      t.getIx j = s.getIx j) ∧
    t.msr = s.msr ∧ t.ir = s.ir ∧ t.dec = s.dec ∧ t.cfg = s.cfg ∧ t.outcome = s.outcome ∧
    t.cc.dz = s.cc.dz ∧ (isArithmetic i = false → t.cc = s.cc) ∧ (t.mfr = s.mfr ∨ t.pc = 43)

/-- R102, R276: from a ready state no instruction but STR and STX changes a Word, unless a fault is vectored, control is at
43 and the Word at `FAULT_PC_SAVE`, alone, is the saved PC. -/
def Obligations.OnlyStoresChangeMemory : Prop :=
  ∀ (i : Instr) (s t : State), s.Ready → isStore i = false → exec i s = .next t →
    ∀ a, validAddress a → t.memval a = s.memval a ∨
      (a = s.cfg.faultPcSave.toNat ∧ t.pc = 43 ∧ t.memval a = s.pc.setWidth 20)

/-- R194, R311: the ticks of an instruction: 3 for fetch and decode and `BLOCK_LOAD_TICKS` more if the fetch misses the
cache, then, for an instruction that reaches the next boundary without a bad address, 4 (LDR, STR, LDA, LDX, STX, AMR, SMR)
and `BLOCK_LOAD_TICKS` more if its access misses, 3 (AIR, SIR) or 1 (an opcode without a handler, assigned or not). -/
def Obligations.InstructionTiming : Prop :=
  ∀ s : State, s.Inv → (s.cfg.cacheEnabled = true → 1 ≤ s.cfg.blockLoadTicks) → validAddress s.pc.toNat →
    ∃ u, s.Fetched u (s.memval s.pc.toNat) ∧ s.ReachesIn (3 + s.missTicks s.pc.toNat) u ∧
      (∀ i t, decode s.cfg.opcodes (s.memval s.pc.toNat) = .ok i → step s = .next t →
        (∀ ea v, usesMemory i = true → computeEA i.fields u = .ok ea v → validAddress ea →
          s.ReachesIn (7 + s.missTicks s.pc.toNat + v.missTicks ea) t) ∧
        (usesMemory i = false → isArithmetic i = true → s.ReachesIn (6 + s.missTicks s.pc.toNat) t) ∧
        (isBranch i = true → s.ReachesIn (4 + s.missTicks s.pc.toNat) t)) ∧
      (∀ op t, decode s.cfg.opcodes (s.memval s.pc.toNat) = .error (.noMnemonic op) → step s = .next t →
        s.ReachesIn (4 + s.missTicks s.pc.toNat) t)

/-- A machine whose run has ended makes no tick and no step (R9, R305). -/
def Obligations.EndedRunsMakeNoTick : Prop :=
  ∀ (s : State) (r : FatalReason), s.outcome = .fatal r → tick s = .refused (.ended r) ∧ step s = .refused (.ended r)

/-- Placing an instruction at a backed PC makes the value of memory there its Word and keeps the boundary invariant; the
ticks that follow fetch that Word (R181 to R183), and if it decodes to an instruction the next step executes it: the
model's way to stand for a program loaded from outside (log 4). -/
def Obligations.PlacedWordIsFetchedNext : Prop :=
  ∀ (s : State) (n w : Nat), s.Inv → validAddress s.pc.toNat →
    (s.withFetchWord n w).Inv ∧ (s.withFetchWord n w).memval s.pc.toNat = tableWord n w ∧
    (∀ a, validAddress a → a ≠ s.pc.toNat → (s.withFetchWord n w).memval a = s.memval a) ∧
    s.withFetchWord n w = { s with mem := (s.withFetchWord n w).mem } ∧
    ∃ k u, (s.withFetchWord n w).ReachesIn k u ∧ (s.withFetchWord n w).Fetched u (tableWord n w) ∧
      ∀ i, decode s.cfg.opcodes (tableWord n w) = .ok i → step (s.withFetchWord n w) = exec i u

/-! ## The host -/

/-- R310: an engineer write, a deposit and a reset are rejected away from an instruction boundary. -/
def Obligations.HostWritesNeedABoundary : Prop :=
  ∀ s : State, s.atBoundary = false →
    (∀ a w, hostAct (.engineerWrite a w) s = .rejected) ∧
    (∀ d, hostAct (.depositRegister d) s = .rejected) ∧ hostAct .reset s = .rejected

/-- R310, R44, R131: a register read answers the register its identifier names; at an instruction boundary a deposit in
range sets that register to the checked pattern of its width, CC to its three Booleans, and changes no other register; out
of range it is Fatal(RANGE). That a deposit into MAR or MBR leaves the memory unit as it is, is the model's choice
(log 16). -/
def Obligations.DepositsAreChecked : Prop :=
  ∀ s : State, s.NamesRegisters ∧
    (∀ id, hostAct (.readRegister id) s = .done (.register (readRegister id s)) s) ∧
    (s.atBoundary = true →
      (∀ (r : NumberedRegister) (k : Int),
        (minSigned (registerWidth r) ≤ k ∧ k ≤ maxUnsigned (registerWidth r) →
          ∃ t, hostAct (.depositRegister (.number r k)) s = .done .nothing t ∧
            (readNumber r t : Int) = k % 2 ^ registerWidth r ∧ s.SameButRegister t (.numbered r)) ∧
        (k < minSigned (registerWidth r) ∨ maxUnsigned (registerWidth r) < k →
          hostAct (.depositRegister (.number r k)) s = .fatal .range)) ∧
      (∀ cc, ∃ t, hostAct (.depositRegister (.flags cc)) s = .done .nothing t ∧
        readRegister .cc t = .flags cc ∧ s.SameButRegister t .cc))

/-- R310: an engineer read answers the value of memory, an engineer write at an instruction boundary sets one Word, and an
engineer read of an invalid address is reported to the host with no vectoring. That an invalid write is reported the same
way, and that a read is admitted between any two ticks, are DEDUCED (log 16). -/
def Obligations.EngineerAccessIsDirect : Prop :=
  ∀ (s : State) (a : Nat) (w : Word), s.MemoryOk →
    (validAddress a →
      (∃ t, hostAct (.engineerRead a) s = .done (.word (s.memval a)) t ∧ t = { s with mem := t.mem } ∧
        s.SameMemory t) ∧
      (s.atBoundary = true → ∃ t, hostAct (.engineerWrite a w) s = .done .nothing t ∧ t = { s with mem := t.mem } ∧
        s.SameMemoryBut t a w)) ∧
    (¬validAddress a → hostAct (.engineerRead a) s = .addressFault a ∧
      (s.atBoundary = true → hostAct (.engineerWrite a w) s = .addressFault a))

/-- R263: the branch-history recorder records exactly the addresses whose Word has one of the four branch opcodes, each
predicted taken, and changes no state. -/
def Obligations.ScanRecordsBranchOpcodes : Prop :=
  ∀ s : State, hostAct .scanMemory s = .done (.records (scanMemory s)) s ∧
    ∀ a taken,
      (∃ text, ⟨a, text, taken⟩ ∈ scanMemory s) ↔
        (taken = true ∧ validAddress a ∧
          ((s.memval a).extractLsb' 14 6 = s.cfg.opcodes.jcc ∨ (s.memval a).extractLsb' 14 6 = s.cfg.opcodes.jne ∨
            (s.memval a).extractLsb' 14 6 = s.cfg.opcodes.jge ∨ (s.memval a).extractLsb' 14 6 = s.cfg.opcodes.sob))
end

