-- ==== Sys2Proof/Laws/Memory.lean ====
section
/-! SUPPORT. The backing store: what a read after a write gives, and that every operation keeps the canonical form. -/

namespace Sys2Proof.Machine

theorem readCells_filter_same (l : List (Nat × Word)) (a : Nat) :
    readCells (l.filter fun c => c.1 != a) a = unlistedWord := by
  induction l with
  | nil => rfl
  | cons c rest ih =>
    by_cases h : c.1 = a
    · simpa [List.filter_cons, h] using ih
    · obtain ⟨k, v⟩ := c
      have h' : ¬a = k := fun e => h e.symm
      simpa [List.filter_cons, readCells, h, h'] using ih

theorem readCells_filter_other (l : List (Nat × Word)) (a b : Nat) (hb : b ≠ a) :
    readCells (l.filter fun c => c.1 != a) b = readCells l b := by
  induction l with
  | nil => rfl
  | cons c rest ih =>
    obtain ⟨k, v⟩ := c
    by_cases h : k = a
    · subst h
      simpa [List.filter_cons, readCells, hb] using ih
    · by_cases hk : b = k <;> simp [readCells, h, hk, ih]

theorem readCells_insert_same (l : List (Nat × Word)) (a : Nat) (w : Word) :
    readCells (insertCell l a w) a = w := by
  induction l with
  | nil => simp [insertCell, readCells]
  | cons c rest ih =>
    obtain ⟨k, v⟩ := c
    unfold insertCell
    split_ifs with h1 h2
    · simp [readCells]
    · simp [readCells]
    · simp [readCells, h2, ih]

theorem readCells_insert_other (l : List (Nat × Word)) (a b : Nat) (w : Word) (hb : b ≠ a) :
    readCells (insertCell l a w) b = readCells l b := by
  induction l with
  | nil => simp [insertCell, readCells, hb]
  | cons c rest ih =>
    obtain ⟨k, v⟩ := c
    unfold insertCell
    split_ifs with h1 h2
    · simp [readCells, hb]
    · subst h2
      simp [readCells, hb]
    · by_cases hk : b = k <;> simp [readCells, hk, ih]

@[simp] theorem Memory.empty_read (a : Nat) : Memory.empty.read a = unlistedWord := rfl

@[simp] theorem Memory.read_write_same (m : Memory) (a : Nat) (w : Word) : (m.write a w).read a = w := by
  unfold Memory.write
  split_ifs with h
  · simpa [Memory.read, h] using readCells_filter_same m.cells a
  · exact readCells_insert_same m.cells a w

theorem Memory.read_write_other (m : Memory) (a b : Nat) (w : Word) (h : b ≠ a) :
    (m.write a w).read b = m.read b := by
  unfold Memory.write
  split_ifs with hw
  · exact readCells_filter_other m.cells a b h
  · exact readCells_insert_other m.cells a b w h

theorem Memory.read_write (m : Memory) (a b : Nat) (w : Word) :
    (m.write a w).read b = if b = a then w else m.read b := by
  split_ifs with h
  · subst h; exact m.read_write_same b w
  · exact m.read_write_other a b w h

theorem mem_insertCell {l : List (Nat × Word)} {a : Nat} {w : Word} {c : Nat × Word}
    (h : c ∈ insertCell l a w) : c = (a, w) ∨ c ∈ l := by
  induction l with
  | nil => simpa [insertCell] using h
  | cons d rest ih =>
    obtain ⟨k, v⟩ := d
    unfold insertCell at h
    split_ifs at h with h1 h2
    · simpa using h
    · rcases List.mem_cons.1 h with h | h
      · exact .inl h
      · exact .inr (List.mem_cons_of_mem _ h)
    · rcases List.mem_cons.1 h with h | h
      · exact .inr (h ▸ List.mem_cons_self)
      · exact (ih h).imp id (List.mem_cons_of_mem _)

theorem insertCell_sorted (l : List (Nat × Word)) (a : Nat) (w : Word)
    (h : l.Pairwise fun c d => c.1 < d.1) : (insertCell l a w).Pairwise fun c d => c.1 < d.1 := by
  induction l with
  | nil => simp [insertCell]
  | cons d rest ih =>
    obtain ⟨k, v⟩ := d
    have hk := List.pairwise_cons.1 h
    unfold insertCell
    split_ifs with h1 h2
    · refine List.pairwise_cons.2 ⟨fun c hc => ?_, h⟩
      rcases List.mem_cons.1 hc with rfl | hc
      · exact h1
      · exact h1.trans (hk.1 c hc)
    · subst h2
      exact List.pairwise_cons.2 ⟨hk.1, hk.2⟩
    · refine List.pairwise_cons.2 ⟨fun c hc => ?_, ih hk.2⟩
      rcases mem_insertCell hc with rfl | hc
      · exact lt_of_le_of_ne (not_lt.1 h1) (Ne.symm h2)
      · exact hk.1 c hc

theorem Memory.empty_wf : Memory.empty.wf := ⟨List.Pairwise.nil, fun _ h => nomatch h⟩

/-- Every write keeps the canonical form. -/
theorem Memory.write_wf (m : Memory) (a : Nat) (w : Word) (h : m.wf) (ha : validAddress a) : (m.write a w).wf := by
  unfold Memory.write
  split_ifs with hw
  · exact ⟨h.1.sublist List.filter_sublist, fun c hc => h.2 c (List.mem_of_mem_filter hc)⟩
  · refine ⟨insertCell_sorted _ _ _ h.1, fun c hc => ?_⟩
    rcases mem_insertCell hc with rfl | hc
    · exact ⟨hw, ha⟩
    · exact h.2 c hc

end Sys2Proof.Machine
end

