-- ==== Sys2Proof/Laws/Cache.lean ====
section
/-! SUPPORT. The cache: what each operation does to the value of memory and to the lines, and that a coherent memory system
stays coherent. -/

namespace Sys2Proof.Machine

/-! ### Blocks and addresses -/

theorem blockAddress_valid (tg : Tag) (j : Fin 32) : validAddress (blockAddress tg j.val) := by
  have := tg.bank.isLt
  have := tg.block.isLt
  simp only [validAddress, Config.memWords, blockAddress, addressOf]
  omega

@[simp] theorem tagOf_blockAddress (tg : Tag) (j : Fin 32) : tagOf (blockAddress tg j.val) = tg := by
  obtain ⟨b, k⟩ := tg
  have := b.isLt
  have := k.isLt
  simp only [tagOf, blockAddress, addressOf, bankOf, cellOf, Tag.mk.injEq, Fin.ext_iff, Fin.val_ofNat]
  omega

@[simp] theorem offsetOf_blockAddress (tg : Tag) (j : Fin 32) : offsetOf (blockAddress tg j.val) = j := by
  obtain ⟨b, k⟩ := tg
  simp only [offsetOf, blockAddress, addressOf, cellOf, Fin.ext_iff, Fin.val_ofNat]
  omega

/-- A valid address is the address of its own Word in its own block. -/
theorem blockAddress_tagOf (a : Nat) (h : validAddress a) : blockAddress (tagOf a) (offsetOf a).val = a := by
  simp only [validAddress, Config.memWords] at h
  simp only [tagOf, offsetOf, blockAddress, addressOf, bankOf, cellOf, Fin.val_ofNat]
  omega

theorem eq_of_tag_offset {a b : Nat} (ha : validAddress a) (hb : validAddress b) (ht : tagOf a = tagOf b)
    (ho : offsetOf a = offsetOf b) : a = b := by
  rw [← blockAddress_tagOf a ha, ← blockAddress_tagOf b hb, ht, ho]

@[simp] theorem Memory.readBlock_get (mem : Memory) (tg : Tag) (j : Nat) (hj : j < 32) :
    (mem.readBlock tg)[j] = mem.read (blockAddress tg j) := by simp [Memory.readBlock]

theorem foldl_write_read (tg : Tag) (data : Vector Word 32) (l : List (Fin 32)) (mem : Memory) (a : Nat) :
    (l.foldl (fun mem j => mem.write (blockAddress tg j.val) data[j.val]) mem).read a =
      if tagOf a = tg ∧ validAddress a ∧ offsetOf a ∈ l then data[(offsetOf a).val] else mem.read a := by
  induction l generalizing mem with
  | nil => simp
  | cons j rest ih =>
    rw [List.foldl_cons, ih, Memory.read_write]
    by_cases h : a = blockAddress tg j.val
    · subst h
      simp [blockAddress_valid]
    · have hne : tagOf a = tg → validAddress a → offsetOf a ≠ j := fun ht hv ho =>
        h (by rw [← ht, ← ho, blockAddress_tagOf a hv])
      by_cases ht : tagOf a = tg <;> by_cases hv : validAddress a
      · simp [ht, hv, hne ht hv, h]
      all_goals simp [ht, hv, h]

/-- Writing a block back sets exactly the Words of that block. -/
theorem Memory.writeBlock_read (mem : Memory) (tg : Tag) (data : Vector Word 32) (a : Nat) :
    (mem.writeBlock tg data).read a =
      if tagOf a = tg ∧ validAddress a then data[(offsetOf a).val] else mem.read a := by
  simp [Memory.writeBlock, foldl_write_read]

theorem Memory.writeBlock_wf (mem : Memory) (tg : Tag) (data : Vector Word 32) (h : mem.wf) :
    (mem.writeBlock tg data).wf := by
  unfold Memory.writeBlock
  generalize List.finRange 32 = l
  induction l generalizing mem with
  | nil => exact h
  | cons j rest ih => exact ih _ (Memory.write_wf _ _ _ h (blockAddress_valid tg j))

/-! ### Lines -/

section Lines
variable (m : MemorySystem)

@[simp] theorem setLine_line (i j : Fin 8) (l : CacheLine) :
    (m.setLine i l).line j = if j = i then l else m.line j := by
  by_cases h : j = i
  · subst h; simp [MemorySystem.setLine, MemorySystem.line]
  · have hne : i.val ≠ j.val := fun e => h (Fin.ext e.symm)
    simp [MemorySystem.setLine, MemorySystem.line, hne, h]

@[simp] theorem setLine_backing (i : Fin 8) (l : CacheLine) : (m.setLine i l).backing = m.backing := rfl
@[simp] theorem setLine_lruClock (i : Fin 8) (l : CacheLine) : (m.setLine i l).lruClock = m.lruClock := rfl
@[simp] theorem setLine_pending (i : Fin 8) (l : CacheLine) : (m.setLine i l).pending = m.pending := rfl

@[simp] theorem touch_line (i j : Fin 8) :
    (m.touch i).line j = if j = i then { m.line i with lastUsed := m.lruClock + 1 } else m.line j :=
  setLine_line m i j _
@[simp] theorem touch_backing (i : Fin 8) : (m.touch i).backing = m.backing := rfl
@[simp] theorem touch_lruClock (i : Fin 8) : (m.touch i).lruClock = m.lruClock + 1 := rfl
@[simp] theorem touch_pending (i : Fin 8) : (m.touch i).pending = m.pending := rfl

theorem line_mem_numbers : ∀ i : Fin 8, i ∈ lineNumbers := by decide

theorem lineOf_some {tg : Tag} {i : Fin 8} (h : m.lineOf tg = some i) :
    (m.line i).valid = true ∧ (m.line i).tag = tg := by
  have := List.find?_some h
  simpa using this

theorem lineOf_none {tg : Tag} (h : m.lineOf tg = none) (i : Fin 8) (hv : (m.line i).valid = true) :
    (m.line i).tag ≠ tg := by
  have := List.find?_eq_none.1 h i (line_mem_numbers i)
  simpa [hv] using this

theorem lineOf_eq_none_iff {tg : Tag} :
    m.lineOf tg = none ↔ ∀ i, (m.line i).valid = true → (m.line i).tag ≠ tg := by
  constructor
  · exact fun h i => lineOf_none m h i
  · intro h
    refine List.find?_eq_none.2 fun i _ => ?_
    simpa using h i

end Lines

variable {m : MemorySystem}

/-- Two systems with the same valid lines and tags find the same line. -/
theorem lineOf_congr {m n : MemorySystem} (tg : Tag)
    (h : ∀ i, (n.line i).valid = (m.line i).valid ∧ (n.line i).tag = (m.line i).tag) : n.lineOf tg = m.lineOf tg := by
  unfold MemorySystem.lineOf
  congr 1
  funext i
  rw [(h i).1, (h i).2]

/-- In a coherent system the valid line with a tag is the one found. -/
theorem MemorySystem.Coherent.lineOf_eq (h : m.Coherent) {tg : Tag} {i : Fin 8} (hv : (m.line i).valid = true)
    (ht : (m.line i).tag = tg) : m.lineOf tg = some i := by
  cases e : m.lineOf tg with
  | none => exact absurd ht (lineOf_none m e i hv)
  | some j =>
    obtain ⟨hj, htj⟩ := lineOf_some m e
    rw [h.one_line j i hj hv (htj.trans ht.symm)]

theorem memval_of_line {a : Nat} {i : Fin 8} (h : m.lineOf (tagOf a) = some i) :
    m.memval a = (m.line i).data[(offsetOf a).val] := by simp [MemorySystem.memval, h]

theorem memval_of_none {a : Nat} (h : m.lineOf (tagOf a) = none) : m.memval a = m.backing.read a := by
  simp [MemorySystem.memval, h]

/-- With no valid line, memory is the backing store. -/
theorem memval_of_no_lines (h : ∀ i, (m.line i).valid = false) (a : Nat) : m.memval a = m.backing.read a :=
  memval_of_none ((lineOf_eq_none_iff m).2 fun i hv => by simp [h i] at hv)

/-! ### Recency and requests leave every value alone -/

theorem touch_lineOf (i : Fin 8) (tg : Tag) : (m.touch i).lineOf tg = m.lineOf tg :=
  lineOf_congr tg fun j => by by_cases h : j = i <;> simp [h]

theorem touch_memval (i : Fin 8) (a : Nat) : (m.touch i).memval a = m.memval a := by
  cases h : m.lineOf (tagOf a) with
  | none => rw [memval_of_none h, memval_of_none ((touch_lineOf i _).trans h), touch_backing]
  | some j =>
    rw [memval_of_line h, memval_of_line ((touch_lineOf i _).trans h)]
    by_cases hj : j = i
    · subst hj; simp
    · simp [hj]

theorem MemorySystem.Coherent.touch (h : m.Coherent) (i : Fin 8) : (m.touch i).Coherent where
  backing_wf := h.backing_wf
  one_line j k := by
    have := h.one_line j k
    by_cases hj : j = i <;> by_cases hk : k = i <;> simp_all
  clean_agrees j := by
    have := h.clean_agrees j
    by_cases hj : j = i <;> simp_all
  stamped j := by
    have := h.stamped j
    by_cases hj : j = i
    · simp [hj]
    · simp only [touch_line, hj, if_false, touch_lruClock]; omega
  stamps_differ j k := by
    have := h.stamps_differ j k
    have hj' := h.stamped j
    have hk' := h.stamped k
    by_cases hj : j = i <;> by_cases hk : k = i <;> simp_all <;> omega

@[simp] theorem pending_memval (p : Option (Tag × Nat)) (a : Nat) :
    MemorySystem.memval { m with pending := p } a = m.memval a := rfl

theorem MemorySystem.Coherent.setPending (h : m.Coherent) (p : Option (Tag × Nat)) :
    MemorySystem.Coherent { m with pending := p } :=
  ⟨h.backing_wf, h.one_line, h.clean_agrees, h.stamped, h.stamps_differ⟩

theorem requestBlock_eq (n : Nat) (tg : Tag) : ∃ p, m.requestBlock n tg = { m with pending := p } := by
  unfold MemorySystem.requestBlock
  split
  · exact ⟨_, rfl⟩
  · exact ⟨m.pending, rfl⟩

/-! ### Eviction and allocation -/

theorem writeBack_line (i j : Fin 8) : (m.writeBack i).line j = m.line j := by
  unfold MemorySystem.writeBack
  split_ifs <;> rfl

@[simp] theorem writeBack_lruClock (i : Fin 8) : (m.writeBack i).lruClock = m.lruClock := by
  unfold MemorySystem.writeBack; split_ifs <;> rfl

@[simp] theorem writeBack_pending (i : Fin 8) : (m.writeBack i).pending = m.pending := by
  unfold MemorySystem.writeBack; split_ifs <;> rfl

theorem writeBack_lineOf (i : Fin 8) (tg : Tag) : (m.writeBack i).lineOf tg = m.lineOf tg :=
  lineOf_congr tg fun j => by simp [writeBack_line]

/-- Writing a line back: its block's backing Words become the line's, every other stays. -/
theorem writeBack_read (i : Fin 8) (a : Nat) :
    (m.writeBack i).backing.read a =
      if (m.line i).valid = true ∧ (m.line i).dirty = true ∧ tagOf a = (m.line i).tag ∧ validAddress a then
        (m.line i).data[(offsetOf a).val]
      else m.backing.read a := by
  unfold MemorySystem.writeBack
  by_cases hv : (m.line i).valid = true <;> by_cases hd : (m.line i).dirty = true <;>
    simp [hv, hd, Memory.writeBlock_read]

theorem MemorySystem.Coherent.writeBack (h : m.Coherent) (i : Fin 8) : (m.writeBack i).Coherent where
  backing_wf := by
    unfold MemorySystem.writeBack
    split_ifs
    · exact Memory.writeBlock_wf _ _ _ h.backing_wf
    · exact h.backing_wf
  one_line j k := by simpa only [writeBack_line] using h.one_line j k
  clean_agrees j := by
    simp only [writeBack_line]
    intro hv hd l
    rw [writeBack_read, if_neg]
    · exact h.clean_agrees j hv hd l
    · rintro ⟨hvi, hdi, ht, -⟩
      rw [tagOf_blockAddress] at ht
      have := h.one_line j i hv hvi ht
      simp [this, hdi] at hd
  stamped j := by simpa only [writeBack_line, writeBack_lruClock] using h.stamped j
  stamps_differ j k := by simpa only [writeBack_line] using h.stamps_differ j k

theorem writeBack_memval (i : Fin 8) (a : Nat) :
    (m.writeBack i).memval a = m.memval a := by
  cases e : m.lineOf (tagOf a) with
  | some j => rw [memval_of_line e, memval_of_line ((writeBack_lineOf i _).trans e), writeBack_line]
  | none =>
    rw [memval_of_none e, memval_of_none ((writeBack_lineOf i _).trans e), writeBack_read, if_neg]
    rintro ⟨hv, -, ht, -⟩
    exact lineOf_none m e i hv ht.symm

/-- After the write-back, line i's Words are in the backing store. -/
theorem MemorySystem.Coherent.writeBack_agrees (h : m.Coherent) (i : Fin 8) (hv : (m.line i).valid = true)
    (j : Fin 32) : (m.line i).data[j.val] = (m.writeBack i).backing.read (blockAddress (m.line i).tag j.val) := by
  rw [writeBack_read]
  by_cases hd : (m.line i).dirty = true
  · simp [hv, hd, blockAddress_valid]
  · rw [if_neg fun hx => hd hx.2.1]
    exact h.clean_agrees i hv (by simpa using hd) j

@[simp] theorem fill_backing (i : Fin 8) (tg : Tag) : (m.fill i tg).backing = m.backing := rfl
@[simp] theorem fill_pending (i : Fin 8) (tg : Tag) : (m.fill i tg).pending = m.pending := rfl
@[simp] theorem fill_lruClock (i : Fin 8) (tg : Tag) : (m.fill i tg).lruClock = m.lruClock + 1 := rfl

theorem fill_line (i j : Fin 8) (tg : Tag) :
    (m.fill i tg).line j = if j = i then ⟨true, tg, m.backing.readBlock tg, false, m.lruClock + 1⟩ else m.line j := by
  unfold MemorySystem.fill
  by_cases h : j = i <;> simp [h]

theorem MemorySystem.Coherent.fill (h : m.Coherent) (i : Fin 8) (tg : Tag) (hn : m.lineOf tg = none) :
    (m.fill i tg).Coherent where
  backing_wf := h.backing_wf
  one_line j k := by
    have hj := lineOf_none m hn j
    have hk := lineOf_none m hn k
    have := h.one_line j k
    simp only [fill_line]
    by_cases hji : j = i <;> by_cases hki : k = i
    · exact fun _ _ _ => hji.trans hki.symm
    · simp only [hji, hki, if_true, if_false]
      exact fun _ hv ht => absurd ht.symm (hk hv)
    · simp only [hji, hki, if_true, if_false]
      exact fun hv _ ht => absurd ht (hj hv)
    · simpa only [hji, hki, if_false] using this
  clean_agrees j := by
    have := h.clean_agrees j
    simp only [fill_line, fill_backing]
    by_cases hji : j = i <;> simp_all
  stamped j := by
    have := h.stamped j
    simp only [fill_line, fill_lruClock]
    by_cases hji : j = i
    · simp [hji]
    · simp only [hji, if_false]; omega
  stamps_differ j k := by
    have := h.stamps_differ j k
    have hj' := h.stamped j
    have hk' := h.stamped k
    simp only [fill_line]
    by_cases hji : j = i <;> by_cases hki : k = i <;> simp_all <;> omega

theorem MemorySystem.Coherent.fill_lineOf (h : m.Coherent) (i : Fin 8) (tg : Tag) (hn : m.lineOf tg = none) :
    (m.fill i tg).lineOf tg = some i :=
  (h.fill i tg hn).lineOf_eq (by simp [fill_line]) (by simp [fill_line])

theorem MemorySystem.Coherent.fill_memval (h : m.Coherent) (i : Fin 8) (tg : Tag) (hn : m.lineOf tg = none)
    (hi : (m.line i).valid = true →
      ∀ j : Fin 32, (m.line i).data[j.val] = m.backing.read (blockAddress (m.line i).tag j.val))
    (a : Nat) (ha : validAddress a) : (m.fill i tg).memval a = m.memval a := by
  have hc := h.fill i tg hn
  by_cases ht : tagOf a = tg
  · rw [memval_of_line (i := i) (by rw [ht]; exact h.fill_lineOf i tg hn), memval_of_none (by rw [ht]; exact hn)]
    simp only [fill_line, if_true]
    rw [Memory.readBlock_get, ← ht, blockAddress_tagOf a ha]
  · cases e : m.lineOf (tagOf a) with
    | some j =>
      obtain ⟨hv, htj⟩ := lineOf_some m e
      by_cases hji : j = i
      · subst hji
        have hnone : (m.fill j tg).lineOf (tagOf a) = none := by
          refine (lineOf_eq_none_iff _).2 fun k hk => ?_
          by_cases hkj : k = j
          · subst hkj; simpa [fill_line] using fun e => ht e.symm
          · simp only [fill_line, hkj, if_false] at hk ⊢
            exact fun hkt => hkj (h.one_line k j hk hv (hkt.trans htj.symm))
        rw [memval_of_line e, memval_of_none hnone, fill_backing, hi hv (offsetOf a), htj, blockAddress_tagOf a ha]
      · rw [memval_of_line e, memval_of_line (i := j) (hc.lineOf_eq (by simpa [fill_line, hji] using hv)
          (by simpa [fill_line, hji] using htj))]
        simp [fill_line, hji]
    | none =>
      rw [memval_of_none e, memval_of_none, fill_backing]
      refine (lineOf_eq_none_iff _).2 fun k hk => ?_
      by_cases hki : k = i
      · subst hki; simpa [fill_line] using fun e => ht e.symm
      · simp only [fill_line, hki, if_false] at hk ⊢
        exact lineOf_none m e k hk

/-- Allocation (R95): coherent, the block now held, every value as before, a pending load untouched. -/
theorem MemorySystem.Coherent.allocate (h : m.Coherent) (tg : Tag) (hn : m.lineOf tg = none) :
    (m.allocate tg).Coherent ∧ (m.allocate tg).lineOf tg = some m.victim ∧ (m.allocate tg).pending = m.pending ∧
      ∀ a, validAddress a → (m.allocate tg).memval a = m.memval a := by
  have hw := h.writeBack m.victim
  have hn' : (m.writeBack m.victim).lineOf tg = none := (writeBack_lineOf _ _).trans hn
  refine ⟨hw.fill _ _ hn', hw.fill_lineOf _ _ hn', by simp [MemorySystem.allocate], fun a ha => ?_⟩
  rw [MemorySystem.allocate, hw.fill_memval _ _ hn' _ a ha, writeBack_memval]
  simp only [writeBack_line]
  exact h.writeBack_agrees m.victim

/-- Making sure a block is held (R84-R86). -/
theorem MemorySystem.Coherent.ensure (h : m.Coherent) (tg : Tag) :
    (m.ensure tg).Coherent ∧ (∃ i, (m.ensure tg).lineOf tg = some i) ∧ (m.ensure tg).pending = m.pending ∧
      ∀ a, validAddress a → (m.ensure tg).memval a = m.memval a := by
  unfold MemorySystem.ensure
  cases e : m.lineOf tg with
  | some i => exact ⟨h, ⟨i, e⟩, rfl, fun _ _ => rfl⟩
  | none =>
    obtain ⟨h1, h2, h3, h4⟩ := h.allocate tg e
    exact ⟨h1, ⟨_, h2⟩, h3, h4⟩

/-! ### Writing a Word into a line -/

theorem putWord_line (i j : Fin 8) (a : Nat) (w : Word) :
    (m.putWord i a w).line j =
      if j = i then
        { m.line i with
          data := (m.line i).data.set (offsetOf a).val w
          dirty := true
          lastUsed := m.lruClock + 1 }
      else m.line j := by
  unfold MemorySystem.putWord
  by_cases h : j = i <;> simp [h]

@[simp] theorem putWord_backing (i : Fin 8) (a : Nat) (w : Word) : (m.putWord i a w).backing = m.backing := rfl
@[simp] theorem putWord_pending (i : Fin 8) (a : Nat) (w : Word) : (m.putWord i a w).pending = m.pending := rfl
@[simp] theorem putWord_lruClock (i : Fin 8) (a : Nat) (w : Word) : (m.putWord i a w).lruClock = m.lruClock + 1 := rfl

theorem putWord_lineOf (i : Fin 8) (a : Nat) (w : Word) (tg : Tag) : (m.putWord i a w).lineOf tg = m.lineOf tg :=
  lineOf_congr tg fun j => by by_cases h : j = i <;> simp [putWord_line, h]

theorem MemorySystem.Coherent.putWord (h : m.Coherent) (i : Fin 8) (a : Nat) (w : Word) :
    (m.putWord i a w).Coherent where
  backing_wf := h.backing_wf
  one_line j k := by
    have := h.one_line j k
    simp only [putWord_line]
    by_cases hj : j = i <;> by_cases hk : k = i <;> simp_all
  clean_agrees j := by
    have := h.clean_agrees j
    simp only [putWord_line]
    by_cases hj : j = i <;> simp_all
  stamped j := by
    have := h.stamped j
    simp only [putWord_line, putWord_lruClock]
    by_cases hj : j = i
    · simp [hj]
    · simp only [hj, if_false]; omega
  stamps_differ j k := by
    have := h.stamps_differ j k
    have hj' := h.stamped j
    have hk' := h.stamped k
    simp only [putWord_line]
    by_cases hj : j = i <;> by_cases hk : k = i <;> simp_all <;> omega

/-- A write through a hit (R83, R85): that Word alone changes its value. -/
theorem putWord_memval {i : Fin 8} {a : Nat} (w : Word)
    (hi : m.lineOf (tagOf a) = some i) (ha : validAddress a) (b : Nat) (hb : validAddress b) :
    (m.putWord i a w).memval b = if b = a then w else m.memval b := by
  cases e : m.lineOf (tagOf b) with
  | none =>
    have hne : b ≠ a := fun hba => by rw [hba, hi] at e; cases e
    rw [memval_of_none e, memval_of_none ((putWord_lineOf i a w _).trans e), putWord_backing, if_neg hne]
  | some j =>
    rw [memval_of_line e, memval_of_line ((putWord_lineOf i a w _).trans e), putWord_line]
    by_cases hji : j = i
    · subst hji
      have ht : tagOf b = tagOf a := (lineOf_some m e).2.symm.trans (lineOf_some m hi).2
      simp only [if_true]
      rw [Vector.getElem_set]
      by_cases hba : b = a
      · subst hba; simp
      · have ho : (offsetOf a).val ≠ (offsetOf b).val := fun ho =>
          hba (eq_of_tag_offset hb ha ht (Fin.ext ho.symm))
        simp [hba, ho]
    · have hne : b ≠ a := fun hba => by
        rw [hba, hi] at e; exact hji (Option.some.inj e).symm
      simp [hji, hne]

/-! ### The direct accesses -/

/-- `DirectRead` (R84, R97): the value of memory, no value changed. -/
theorem MemorySystem.Coherent.directRead (h : m.Coherent) (en : Bool) (a : Nat) (ha : validAddress a)
    (hoff : en = false → ∀ i, (m.line i).valid = false) :
    (m.directRead en a).1 = m.memval a ∧ (m.directRead en a).2.Coherent ∧
      (m.directRead en a).2.pending = m.pending ∧
      (∀ b, validAddress b → (m.directRead en a).2.memval b = m.memval b) ∧
      (en = false → (m.directRead en a).2 = m) := by
  cases en with
  | false => exact ⟨(memval_of_no_lines (hoff rfl) a).symm, h, rfl, fun _ _ => rfl, fun _ => rfl⟩
  | true =>
    obtain ⟨hc, ⟨i, hi⟩, hp, hv⟩ := h.ensure (tagOf a)
    simp only [MemorySystem.directRead, if_true, hi]
    exact ⟨by rw [← memval_of_line hi, hv a ha], hc.touch i, hp, fun b hb => by rw [touch_memval, hv b hb],
      fun e => by cases e⟩

/-- `DirectWrite` (R85, R97): the Word written, every other value as before. -/
theorem MemorySystem.Coherent.directWrite (h : m.Coherent) (en : Bool) (a : Nat) (w : Word) (ha : validAddress a)
    (hoff : en = false → ∀ i, (m.line i).valid = false) :
    (m.directWrite en a w).Coherent ∧ (m.directWrite en a w).pending = m.pending ∧
      (∀ b, validAddress b → (m.directWrite en a w).memval b = if b = a then w else m.memval b) ∧
      (en = false → ∀ i, ((m.directWrite en a w).line i).valid = false) := by
  cases en with
  | false =>
    have hl : ∀ i, ((m.directWrite false a w).line i) = m.line i := fun _ => rfl
    have hcoh : (m.directWrite false a w).Coherent :=
      { backing_wf := Memory.write_wf _ _ _ h.backing_wf ha
        one_line := h.one_line
        clean_agrees := fun i hv => by rw [hl, hoff rfl i] at hv; cases hv
        stamped := h.stamped
        stamps_differ := h.stamps_differ }
    refine ⟨hcoh, rfl, fun b _ => ?_, fun _ i => (congrArg CacheLine.valid (hl i)).trans (hoff rfl i)⟩
    rw [memval_of_no_lines (fun i => (congrArg CacheLine.valid (hl i)).trans (hoff rfl i)),
      memval_of_no_lines (hoff rfl)]
    exact Memory.read_write _ _ _ _
  | true =>
    obtain ⟨hc, ⟨i, hi⟩, hp, hv⟩ := h.ensure (tagOf a)
    simp only [MemorySystem.directWrite, if_true, hi]
    exact ⟨hc.putWord i a w, hp, fun b hb => by rw [putWord_memval w hi ha b hb, hv b hb], fun e => by cases e⟩

/-! ### The clocked accesses -/

/-- `fetchWord` (R82): on a hit the value of memory; on a miss only a load is requested. -/
theorem MemorySystem.Coherent.fetchWord (h : m.Coherent) (n a : Nat) :
    (m.fetchWord n a).2.Coherent ∧ (∀ b, (m.fetchWord n a).2.memval b = m.memval b) ∧
      ((∃ i, m.lineOf (tagOf a) = some i) ∧ (m.fetchWord n a).1 = some (m.memval a) ∧
          (m.fetchWord n a).2.pending = m.pending ∨
        m.lineOf (tagOf a) = none ∧ (m.fetchWord n a).1 = none ∧
          (m.fetchWord n a).2 = m.requestBlock n (tagOf a)) := by
  unfold MemorySystem.fetchWord
  cases e : m.lineOf (tagOf a) with
  | some i => exact ⟨h.touch i, touch_memval i, .inl ⟨⟨i, rfl⟩, by rw [memval_of_line e], rfl⟩⟩
  | none =>
    obtain ⟨p, hp⟩ := requestBlock_eq (m := m) n (tagOf a)
    refine ⟨by rw [hp]; exact h.setPending p, fun b => by rw [hp]; rfl, .inr ⟨rfl, rfl, rfl⟩⟩

/-- `storeWord` (R83): on a hit the Word written; on a miss only a load is requested. -/
theorem MemorySystem.Coherent.storeWord (h : m.Coherent) (n a : Nat) (w : Word) (ha : validAddress a) :
    (m.storeWord n a w).2.Coherent ∧
      ((∃ i, m.lineOf (tagOf a) = some i) ∧ (m.storeWord n a w).1 = true ∧
          (m.storeWord n a w).2.pending = m.pending ∧
          (∀ b, validAddress b → (m.storeWord n a w).2.memval b = if b = a then w else m.memval b) ∨
        m.lineOf (tagOf a) = none ∧ (m.storeWord n a w).1 = false ∧
          (m.storeWord n a w).2 = m.requestBlock n (tagOf a) ∧
          (∀ b, (m.storeWord n a w).2.memval b = m.memval b)) := by
  unfold MemorySystem.storeWord
  cases e : m.lineOf (tagOf a) with
  | some i => exact ⟨h.putWord i a w, .inl ⟨⟨i, rfl⟩, rfl, rfl, putWord_memval w e ha⟩⟩
  | none =>
    obtain ⟨p, hp⟩ := requestBlock_eq (m := m) n (tagOf a)
    exact ⟨by rw [hp]; exact h.setPending p, .inr ⟨rfl, rfl, rfl, fun b => by rw [hp]; rfl⟩⟩

theorem cacheStep_idle (e : m.pending = none) : m.cacheStep = m := by simp [MemorySystem.cacheStep, e]

theorem cacheStep_count {tg : Tag} {n : Nat} (e : m.pending = some (tg, n)) (hn : 1 < n) :
    m.cacheStep = { m with pending := some (tg, n - 1) } := by simp [MemorySystem.cacheStep, e, hn]

theorem cacheStep_arrive {tg : Tag} {n : Nat} (e : m.pending = some (tg, n)) (hn : n ≤ 1) :
    m.cacheStep = { m.ensure tg with pending := none } := by
  simp [MemorySystem.cacheStep, e, Nat.not_lt.2 hn]

/-- The cache step (R86): no value changes; a load counts down, or its block is now held. -/
theorem MemorySystem.Coherent.cacheStep (h : m.Coherent) :
    m.cacheStep.Coherent ∧ (∀ a, validAddress a → m.cacheStep.memval a = m.memval a) ∧
      (m.pending = none ∧ m.cacheStep = m ∨
        (∃ tg n, m.pending = some (tg, n) ∧ 1 < n ∧ m.cacheStep = { m with pending := some (tg, n - 1) }) ∨
        (∃ tg n, m.pending = some (tg, n) ∧ n ≤ 1 ∧ m.cacheStep.pending = none ∧
          ∃ i, m.cacheStep.lineOf tg = some i)) := by
  cases e : m.pending with
  | none =>
    rw [cacheStep_idle e]
    exact ⟨h, fun _ _ => rfl, .inl ⟨rfl, rfl⟩⟩
  | some p =>
    obtain ⟨tg, n⟩ := p
    by_cases hn : 1 < n
    · rw [cacheStep_count e hn]
      exact ⟨h.setPending _, fun _ _ => rfl, .inr (.inl ⟨tg, n, rfl, hn, rfl⟩)⟩
    · rw [cacheStep_arrive e (Nat.not_lt.1 hn)]
      obtain ⟨hc, ⟨i, hi⟩, -, hv⟩ := h.ensure tg
      exact ⟨hc.setPending _, hv, .inr (.inr ⟨tg, n, rfl, Nat.not_lt.1 hn, rfl, i, hi⟩)⟩

/-! ### Reset -/

theorem cleared_line (i : Fin 8) : MemorySystem.cleared.line i = CacheLine.unused := by
  simp [MemorySystem.cleared, MemorySystem.line]

theorem cleared_coherent : MemorySystem.cleared.Coherent where
  backing_wf := Memory.empty_wf
  one_line i _ hi := by rw [cleared_line] at hi; cases hi
  clean_agrees i hi := by rw [cleared_line] at hi; cases hi
  stamped i := by rw [cleared_line]; exact Nat.zero_le _
  stamps_differ i _ hi := by rw [cleared_line] at hi; cases hi

/-- Loading a boot image keeps the memory system coherent and starts no load. -/
theorem MemorySystem.Coherent.loadImage (en : Bool) (l : List (BitVec 11 × Word)) (h : m.Coherent)
    (hoff : en = false → ∀ i, (m.line i).valid = false) :
    (m.loadImage en l).Coherent ∧ (m.loadImage en l).pending = m.pending ∧
      (en = false → ∀ i, ((m.loadImage en l).line i).valid = false) := by
  induction l generalizing m with
  | nil => exact ⟨h, rfl, hoff⟩
  | cons p rest ih =>
    obtain ⟨a, w⟩ := p
    have ha : validAddress a.toNat := by
      have := a.isLt
      simp only [validAddress, Config.memWords]; omega
    obtain ⟨h1, h2, -, h4⟩ := h.directWrite en a.toNat w ha hoff
    obtain ⟨k1, k2, k3⟩ := ih h1 h4
    exact ⟨k1, k2.trans h2, k3⟩

end Sys2Proof.Machine
end

