-- ==== Sys2Proof/Laws/Flags.lean ====
section
/-! SUPPORT. What the ALU computes on two Words (spec/43_arith_mem_imm.md R245), and the adder forms the flags are stated
with. -/

namespace Sys2Proof.Machine

/-- Inverting, adding one is negating. -/
theorem negated_eq_neg {w : Nat} (b : BitVec w) : negated b = -b := by
  apply BitVec.eq_of_toNat_eq
  simp only [negated, BitVec.toNat_ofNat, BitVec.toNat_not, BitVec.toNat_neg]
  have := b.isLt
  congr 1
  omega

theorem add_negated {w : Nat} (a b : BitVec w) : a + negated b = a - b := by
  rw [negated_eq_neg, BitVec.sub_eq_add_neg]

/-- The "no borrow" carry of the final add of a subtraction (R154). -/
theorem carryOut_negated {w : Nat} (a b : BitVec w) :
    carryOut a (negated b) = decide (b ≠ 0 ∧ b.toNat ≤ a.toNat) := by
  have ha := a.isLt
  have hb := b.isLt
  have hz : b = 0 ↔ b.toNat = 0 := by
    rw [← BitVec.toNat_inj]; simp
  simp only [carryOut, negated_eq_neg, BitVec.toNat_neg, decide_eq_decide, ne_eq, hz]
  by_cases h : b.toNat = 0
  · simp [h]; omega
  · rw [Nat.mod_eq_of_lt (by omega)]; omega

/-- ADD of two Words is their 20-bit sum (R151, R152). -/
theorem aluAdd_ofWord (rule : OverflowRule) (a b : Word) :
    aluAdd rule (BitVector.ofWord a) (BitVector.ofWord b) = (BitVector.ofWord (a + b), addFlags rule a b) := by
  have key : ∀ n, n = 20 → ((⟨n, a.signExtend n + b.signExtend n⟩ : BitVector),
      addFlags rule (a.signExtend n) (b.signExtend n)) = (BitVector.ofWord (a + b), addFlags rule a b) := by
    rintro _ rfl
    simp only [BitVec.signExtend_eq, BitVector.ofWord]
  exact key _ (Nat.max_self 20)

/-- SUBTRACT of two Words is their 20-bit difference (R151, R154). -/
theorem aluSubtract_ofWord (rule : OverflowRule) (a b : Word) :
    aluSubtract rule (BitVector.ofWord a) (BitVector.ofWord b) =
      (BitVector.ofWord (a - b), subtractFlags rule a b) := by
  have key : ∀ n, n = 20 → ((⟨n, a.signExtend n + negated (b.signExtend n)⟩ : BitVector),
      subtractFlags rule (a.signExtend n) (b.signExtend n)) = (BitVector.ofWord (a - b), subtractFlags rule a b) := by
    rintro _ rfl
    simp only [BitVec.signExtend_eq, BitVector.ofWord, add_negated]
  exact key _ (Nat.max_self 20)

@[simp] theorem aluCompute_none (p : Params) (a b : BitVector) :
    aluCompute p .none a b = (Option.none, FlagsRecord.unchanged) := rfl
@[simp] theorem aluCompute_add (p : Params) (a b : BitVector) :
    aluCompute p .add a b = (some (aluAdd p.overflowRule a b).1, (aluAdd p.overflowRule a b).2) := rfl
@[simp] theorem aluCompute_subtract (p : Params) (a b : BitVector) :
    aluCompute p .subtract a b = (some (aluSubtract p.overflowRule a b).1, (aluSubtract p.overflowRule a b).2) := rfl
@[simp] theorem aluCompute_multiply (p : Params) (a b : BitVector) :
    aluCompute p .multiply a b = (some (aluMultiply a b).1, (aluMultiply a b).2) := rfl
@[simp] theorem aluCompute_divide (p : Params) (a b : BitVector) :
    aluCompute p .divide a b = (some (aluDivide p.divZeroRemainder a b).1, (aluDivide p.divZeroRemainder a b).2) := rfl

/-- The default table answers 0 for every dividend (R5). -/
@[simp] theorem remainderByZero_zero (a : BitVector) : remainderByZero RemainderTable.zero a = 0 := rfl

end Sys2Proof.Machine
end

