-- ==== Sys2Proof/Laws/State.lean ====
section
/-! SUPPORT. One lemma per field per update of State, true by rfl, and reading a register after writing one. -/

namespace Sys2Proof.Machine

/-! ### State.setGpr -/

@[simp] theorem setGpr_cfg (s : State) (r : BitVec 2) (w : Word) : (s.setGpr r w).cfg = s.cfg := rfl
@[simp] theorem setGpr_gpr (s : State) (r : BitVec 2) (w : Word) :
    (s.setGpr r w).gpr = s.gpr.set r.toNat w r.isLt := rfl
@[simp] theorem setGpr_ix (s : State) (r : BitVec 2) (w : Word) : (s.setGpr r w).ix = s.ix := rfl
@[simp] theorem setGpr_pc (s : State) (r : BitVec 2) (w : Word) : (s.setGpr r w).pc = s.pc := rfl
@[simp] theorem setGpr_ir (s : State) (r : BitVec 2) (w : Word) : (s.setGpr r w).ir = s.ir := rfl
@[simp] theorem setGpr_msr (s : State) (r : BitVec 2) (w : Word) : (s.setGpr r w).msr = s.msr := rfl
@[simp] theorem setGpr_mfr (s : State) (r : BitVec 2) (w : Word) : (s.setGpr r w).mfr = s.mfr := rfl
@[simp] theorem setGpr_cc (s : State) (r : BitVec 2) (w : Word) : (s.setGpr r w).cc = s.cc := rfl
@[simp] theorem setGpr_mar (s : State) (r : BitVec 2) (w : Word) : (s.setGpr r w).mar = s.mar := rfl
@[simp] theorem setGpr_mbr (s : State) (r : BitVec 2) (w : Word) : (s.setGpr r w).mbr = s.mbr := rfl
@[simp] theorem setGpr_mcuState (s : State) (r : BitVec 2) (w : Word) : (s.setGpr r w).mcuState = s.mcuState := rfl
@[simp] theorem setGpr_mem (s : State) (r : BitVec 2) (w : Word) : (s.setGpr r w).mem = s.mem := rfl
@[simp] theorem setGpr_alu (s : State) (r : BitVec 2) (w : Word) : (s.setGpr r w).alu = s.alu := rfl
@[simp] theorem setGpr_phase (s : State) (r : BitVec 2) (w : Word) : (s.setGpr r w).phase = s.phase := rfl
@[simp] theorem setGpr_micro (s : State) (r : BitVec 2) (w : Word) : (s.setGpr r w).micro = s.micro := rfl
@[simp] theorem setGpr_dec (s : State) (r : BitVec 2) (w : Word) : (s.setGpr r w).dec = s.dec := rfl
@[simp] theorem setGpr_ea (s : State) (r : BitVec 2) (w : Word) : (s.setGpr r w).ea = s.ea := rfl
@[simp] theorem setGpr_imm (s : State) (r : BitVec 2) (w : Word) : (s.setGpr r w).imm = s.imm := rfl
@[simp] theorem setGpr_outcome (s : State) (r : BitVec 2) (w : Word) : (s.setGpr r w).outcome = s.outcome := rfl
@[simp] theorem setGpr_memval (s : State) (r : BitVec 2) (w : Word) (n : Nat) : (s.setGpr r w).memval n = s.memval n := rfl
@[simp] theorem setGpr_pendingTicks (s : State) (r : BitVec 2) (w : Word) : (s.setGpr r w).pendingTicks = s.pendingTicks := rfl
@[simp] theorem setGpr_getIx (s : State) (r : BitVec 2) (w : Word) (k : Fin 3) : (s.setGpr r w).getIx k = s.getIx k := rfl
@[simp] theorem setGpr_isBusy (s : State) (r : BitVec 2) (w : Word) : (s.setGpr r w).isBusy = s.isBusy := rfl

/-! ### State.setIx -/

@[simp] theorem setIx_cfg (s : State) (j : Fin 3) (a : Addr) : (s.setIx j a).cfg = s.cfg := rfl
@[simp] theorem setIx_gpr (s : State) (j : Fin 3) (a : Addr) : (s.setIx j a).gpr = s.gpr := rfl
@[simp] theorem setIx_ix (s : State) (j : Fin 3) (a : Addr) : (s.setIx j a).ix = s.ix.set j.val a := rfl
@[simp] theorem setIx_pc (s : State) (j : Fin 3) (a : Addr) : (s.setIx j a).pc = s.pc := rfl
@[simp] theorem setIx_ir (s : State) (j : Fin 3) (a : Addr) : (s.setIx j a).ir = s.ir := rfl
@[simp] theorem setIx_msr (s : State) (j : Fin 3) (a : Addr) : (s.setIx j a).msr = s.msr := rfl
@[simp] theorem setIx_mfr (s : State) (j : Fin 3) (a : Addr) : (s.setIx j a).mfr = s.mfr := rfl
@[simp] theorem setIx_cc (s : State) (j : Fin 3) (a : Addr) : (s.setIx j a).cc = s.cc := rfl
@[simp] theorem setIx_mar (s : State) (j : Fin 3) (a : Addr) : (s.setIx j a).mar = s.mar := rfl
@[simp] theorem setIx_mbr (s : State) (j : Fin 3) (a : Addr) : (s.setIx j a).mbr = s.mbr := rfl
@[simp] theorem setIx_mcuState (s : State) (j : Fin 3) (a : Addr) : (s.setIx j a).mcuState = s.mcuState := rfl
@[simp] theorem setIx_mem (s : State) (j : Fin 3) (a : Addr) : (s.setIx j a).mem = s.mem := rfl
@[simp] theorem setIx_alu (s : State) (j : Fin 3) (a : Addr) : (s.setIx j a).alu = s.alu := rfl
@[simp] theorem setIx_phase (s : State) (j : Fin 3) (a : Addr) : (s.setIx j a).phase = s.phase := rfl
@[simp] theorem setIx_micro (s : State) (j : Fin 3) (a : Addr) : (s.setIx j a).micro = s.micro := rfl
@[simp] theorem setIx_dec (s : State) (j : Fin 3) (a : Addr) : (s.setIx j a).dec = s.dec := rfl
@[simp] theorem setIx_ea (s : State) (j : Fin 3) (a : Addr) : (s.setIx j a).ea = s.ea := rfl
@[simp] theorem setIx_imm (s : State) (j : Fin 3) (a : Addr) : (s.setIx j a).imm = s.imm := rfl
@[simp] theorem setIx_outcome (s : State) (j : Fin 3) (a : Addr) : (s.setIx j a).outcome = s.outcome := rfl
@[simp] theorem setIx_memval (s : State) (j : Fin 3) (a : Addr) (n : Nat) : (s.setIx j a).memval n = s.memval n := rfl
@[simp] theorem setIx_pendingTicks (s : State) (j : Fin 3) (a : Addr) : (s.setIx j a).pendingTicks = s.pendingTicks := rfl
@[simp] theorem setIx_getGpr (s : State) (j : Fin 3) (a : Addr) (q : BitVec 2) : (s.setIx j a).getGpr q = s.getGpr q := rfl
@[simp] theorem setIx_isBusy (s : State) (j : Fin 3) (a : Addr) : (s.setIx j a).isBusy = s.isBusy := rfl

/-! ### setMar -/

@[simp] theorem setMar_cfg (a : Addr) (s : State) : (setMar a s).cfg = s.cfg := rfl
@[simp] theorem setMar_gpr (a : Addr) (s : State) : (setMar a s).gpr = s.gpr := rfl
@[simp] theorem setMar_ix (a : Addr) (s : State) : (setMar a s).ix = s.ix := rfl
@[simp] theorem setMar_pc (a : Addr) (s : State) : (setMar a s).pc = s.pc := rfl
@[simp] theorem setMar_ir (a : Addr) (s : State) : (setMar a s).ir = s.ir := rfl
@[simp] theorem setMar_msr (a : Addr) (s : State) : (setMar a s).msr = s.msr := rfl
@[simp] theorem setMar_mfr (a : Addr) (s : State) : (setMar a s).mfr = s.mfr := rfl
@[simp] theorem setMar_cc (a : Addr) (s : State) : (setMar a s).cc = s.cc := rfl
@[simp] theorem setMar_mar (a : Addr) (s : State) : (setMar a s).mar = a := rfl
@[simp] theorem setMar_mbr (a : Addr) (s : State) : (setMar a s).mbr = s.mbr := rfl
@[simp] theorem setMar_mcuState (a : Addr) (s : State) : (setMar a s).mcuState = .waiting := rfl
@[simp] theorem setMar_mem (a : Addr) (s : State) : (setMar a s).mem = s.mem := rfl
@[simp] theorem setMar_alu (a : Addr) (s : State) : (setMar a s).alu = s.alu := rfl
@[simp] theorem setMar_phase (a : Addr) (s : State) : (setMar a s).phase = s.phase := rfl
@[simp] theorem setMar_micro (a : Addr) (s : State) : (setMar a s).micro = s.micro := rfl
@[simp] theorem setMar_dec (a : Addr) (s : State) : (setMar a s).dec = s.dec := rfl
@[simp] theorem setMar_ea (a : Addr) (s : State) : (setMar a s).ea = s.ea := rfl
@[simp] theorem setMar_imm (a : Addr) (s : State) : (setMar a s).imm = s.imm := rfl
@[simp] theorem setMar_outcome (a : Addr) (s : State) : (setMar a s).outcome = s.outcome := rfl
@[simp] theorem setMar_memval (a : Addr) (s : State) (n : Nat) : (setMar a s).memval n = s.memval n := rfl
@[simp] theorem setMar_pendingTicks (a : Addr) (s : State) : (setMar a s).pendingTicks = s.pendingTicks := rfl
@[simp] theorem setMar_getGpr (a : Addr) (s : State) (q : BitVec 2) : (setMar a s).getGpr q = s.getGpr q := rfl
@[simp] theorem setMar_getIx (a : Addr) (s : State) (k : Fin 3) : (setMar a s).getIx k = s.getIx k := rfl

/-! ### setMbr -/

@[simp] theorem setMbr_cfg (w : Word) (s : State) : (setMbr w s).cfg = s.cfg := rfl
@[simp] theorem setMbr_gpr (w : Word) (s : State) : (setMbr w s).gpr = s.gpr := rfl
@[simp] theorem setMbr_ix (w : Word) (s : State) : (setMbr w s).ix = s.ix := rfl
@[simp] theorem setMbr_pc (w : Word) (s : State) : (setMbr w s).pc = s.pc := rfl
@[simp] theorem setMbr_ir (w : Word) (s : State) : (setMbr w s).ir = s.ir := rfl
@[simp] theorem setMbr_msr (w : Word) (s : State) : (setMbr w s).msr = s.msr := rfl
@[simp] theorem setMbr_mfr (w : Word) (s : State) : (setMbr w s).mfr = s.mfr := rfl
@[simp] theorem setMbr_cc (w : Word) (s : State) : (setMbr w s).cc = s.cc := rfl
@[simp] theorem setMbr_mar (w : Word) (s : State) : (setMbr w s).mar = s.mar := rfl
@[simp] theorem setMbr_mbr (w : Word) (s : State) : (setMbr w s).mbr = w := rfl
@[simp] theorem setMbr_mcuState (w : Word) (s : State) : (setMbr w s).mcuState = .waiting := rfl
@[simp] theorem setMbr_mem (w : Word) (s : State) : (setMbr w s).mem = s.mem := rfl
@[simp] theorem setMbr_alu (w : Word) (s : State) : (setMbr w s).alu = s.alu := rfl
@[simp] theorem setMbr_phase (w : Word) (s : State) : (setMbr w s).phase = s.phase := rfl
@[simp] theorem setMbr_micro (w : Word) (s : State) : (setMbr w s).micro = s.micro := rfl
@[simp] theorem setMbr_dec (w : Word) (s : State) : (setMbr w s).dec = s.dec := rfl
@[simp] theorem setMbr_ea (w : Word) (s : State) : (setMbr w s).ea = s.ea := rfl
@[simp] theorem setMbr_imm (w : Word) (s : State) : (setMbr w s).imm = s.imm := rfl
@[simp] theorem setMbr_outcome (w : Word) (s : State) : (setMbr w s).outcome = s.outcome := rfl
@[simp] theorem setMbr_memval (w : Word) (s : State) (n : Nat) : (setMbr w s).memval n = s.memval n := rfl
@[simp] theorem setMbr_pendingTicks (w : Word) (s : State) : (setMbr w s).pendingTicks = s.pendingTicks := rfl
@[simp] theorem setMbr_getGpr (w : Word) (s : State) (q : BitVec 2) : (setMbr w s).getGpr q = s.getGpr q := rfl
@[simp] theorem setMbr_getIx (w : Word) (s : State) (k : Fin 3) : (setMbr w s).getIx k = s.getIx k := rfl

/-! ### signalFetch -/

@[simp] theorem signalFetch_cfg (s : State) : (signalFetch s).cfg = s.cfg := rfl
@[simp] theorem signalFetch_gpr (s : State) : (signalFetch s).gpr = s.gpr := rfl
@[simp] theorem signalFetch_ix (s : State) : (signalFetch s).ix = s.ix := rfl
@[simp] theorem signalFetch_pc (s : State) : (signalFetch s).pc = s.pc := rfl
@[simp] theorem signalFetch_ir (s : State) : (signalFetch s).ir = s.ir := rfl
@[simp] theorem signalFetch_msr (s : State) : (signalFetch s).msr = s.msr := rfl
@[simp] theorem signalFetch_mfr (s : State) : (signalFetch s).mfr = s.mfr := rfl
@[simp] theorem signalFetch_cc (s : State) : (signalFetch s).cc = s.cc := rfl
@[simp] theorem signalFetch_mar (s : State) : (signalFetch s).mar = s.mar := rfl
@[simp] theorem signalFetch_mbr (s : State) : (signalFetch s).mbr = s.mbr := rfl
@[simp] theorem signalFetch_mcuState (s : State) : (signalFetch s).mcuState = .preFetch := rfl
@[simp] theorem signalFetch_mem (s : State) : (signalFetch s).mem = s.mem := rfl
@[simp] theorem signalFetch_alu (s : State) : (signalFetch s).alu = s.alu := rfl
@[simp] theorem signalFetch_phase (s : State) : (signalFetch s).phase = s.phase := rfl
@[simp] theorem signalFetch_micro (s : State) : (signalFetch s).micro = s.micro := rfl
@[simp] theorem signalFetch_dec (s : State) : (signalFetch s).dec = s.dec := rfl
@[simp] theorem signalFetch_ea (s : State) : (signalFetch s).ea = s.ea := rfl
@[simp] theorem signalFetch_imm (s : State) : (signalFetch s).imm = s.imm := rfl
@[simp] theorem signalFetch_outcome (s : State) : (signalFetch s).outcome = s.outcome := rfl
@[simp] theorem signalFetch_memval (s : State) (n : Nat) : (signalFetch s).memval n = s.memval n := rfl
@[simp] theorem signalFetch_pendingTicks (s : State) : (signalFetch s).pendingTicks = s.pendingTicks := rfl
@[simp] theorem signalFetch_getGpr (s : State) (q : BitVec 2) : (signalFetch s).getGpr q = s.getGpr q := rfl
@[simp] theorem signalFetch_getIx (s : State) (k : Fin 3) : (signalFetch s).getIx k = s.getIx k := rfl

/-! ### signalStore -/

@[simp] theorem signalStore_cfg (s : State) : (signalStore s).cfg = s.cfg := rfl
@[simp] theorem signalStore_gpr (s : State) : (signalStore s).gpr = s.gpr := rfl
@[simp] theorem signalStore_ix (s : State) : (signalStore s).ix = s.ix := rfl
@[simp] theorem signalStore_pc (s : State) : (signalStore s).pc = s.pc := rfl
@[simp] theorem signalStore_ir (s : State) : (signalStore s).ir = s.ir := rfl
@[simp] theorem signalStore_msr (s : State) : (signalStore s).msr = s.msr := rfl
@[simp] theorem signalStore_mfr (s : State) : (signalStore s).mfr = s.mfr := rfl
@[simp] theorem signalStore_cc (s : State) : (signalStore s).cc = s.cc := rfl
@[simp] theorem signalStore_mar (s : State) : (signalStore s).mar = s.mar := rfl
@[simp] theorem signalStore_mbr (s : State) : (signalStore s).mbr = s.mbr := rfl
@[simp] theorem signalStore_mcuState (s : State) : (signalStore s).mcuState = .preStore := rfl
@[simp] theorem signalStore_mem (s : State) : (signalStore s).mem = s.mem := rfl
@[simp] theorem signalStore_alu (s : State) : (signalStore s).alu = s.alu := rfl
@[simp] theorem signalStore_phase (s : State) : (signalStore s).phase = s.phase := rfl
@[simp] theorem signalStore_micro (s : State) : (signalStore s).micro = s.micro := rfl
@[simp] theorem signalStore_dec (s : State) : (signalStore s).dec = s.dec := rfl
@[simp] theorem signalStore_ea (s : State) : (signalStore s).ea = s.ea := rfl
@[simp] theorem signalStore_imm (s : State) : (signalStore s).imm = s.imm := rfl
@[simp] theorem signalStore_outcome (s : State) : (signalStore s).outcome = s.outcome := rfl
@[simp] theorem signalStore_memval (s : State) (n : Nat) : (signalStore s).memval n = s.memval n := rfl
@[simp] theorem signalStore_pendingTicks (s : State) : (signalStore s).pendingTicks = s.pendingTicks := rfl
@[simp] theorem signalStore_getGpr (s : State) (q : BitVec 2) : (signalStore s).getGpr q = s.getGpr q := rfl
@[simp] theorem signalStore_getIx (s : State) (k : Fin 3) : (signalStore s).getIx k = s.getIx k := rfl

/-! ### startAlu -/

@[simp] theorem startAlu_cfg (c : AluControl) (a b : Word) (s : State) : (startAlu c a b s).cfg = s.cfg := rfl
@[simp] theorem startAlu_gpr (c : AluControl) (a b : Word) (s : State) : (startAlu c a b s).gpr = s.gpr := rfl
@[simp] theorem startAlu_ix (c : AluControl) (a b : Word) (s : State) : (startAlu c a b s).ix = s.ix := rfl
@[simp] theorem startAlu_pc (c : AluControl) (a b : Word) (s : State) : (startAlu c a b s).pc = s.pc := rfl
@[simp] theorem startAlu_ir (c : AluControl) (a b : Word) (s : State) : (startAlu c a b s).ir = s.ir := rfl
@[simp] theorem startAlu_msr (c : AluControl) (a b : Word) (s : State) : (startAlu c a b s).msr = s.msr := rfl
@[simp] theorem startAlu_mfr (c : AluControl) (a b : Word) (s : State) : (startAlu c a b s).mfr = s.mfr := rfl
@[simp] theorem startAlu_cc (c : AluControl) (a b : Word) (s : State) : (startAlu c a b s).cc = s.cc := rfl
@[simp] theorem startAlu_mar (c : AluControl) (a b : Word) (s : State) : (startAlu c a b s).mar = s.mar := rfl
@[simp] theorem startAlu_mbr (c : AluControl) (a b : Word) (s : State) : (startAlu c a b s).mbr = s.mbr := rfl
@[simp] theorem startAlu_mcuState (c : AluControl) (a b : Word) (s : State) :
    (startAlu c a b s).mcuState = s.mcuState := rfl
@[simp] theorem startAlu_mem (c : AluControl) (a b : Word) (s : State) : (startAlu c a b s).mem = s.mem := rfl
@[simp] theorem startAlu_alu (c : AluControl) (a b : Word) (s : State) :
    (startAlu c a b s).alu = { s.alu with state := .startComputation, op1 := some (BitVector.ofWord a), op2 := some (BitVector.ofWord b), ctl := c } := rfl
@[simp] theorem startAlu_phase (c : AluControl) (a b : Word) (s : State) : (startAlu c a b s).phase = s.phase := rfl
@[simp] theorem startAlu_micro (c : AluControl) (a b : Word) (s : State) : (startAlu c a b s).micro = s.micro := rfl
@[simp] theorem startAlu_dec (c : AluControl) (a b : Word) (s : State) : (startAlu c a b s).dec = s.dec := rfl
@[simp] theorem startAlu_ea (c : AluControl) (a b : Word) (s : State) : (startAlu c a b s).ea = s.ea := rfl
@[simp] theorem startAlu_imm (c : AluControl) (a b : Word) (s : State) : (startAlu c a b s).imm = s.imm := rfl
@[simp] theorem startAlu_outcome (c : AluControl) (a b : Word) (s : State) :
    (startAlu c a b s).outcome = s.outcome := rfl
@[simp] theorem startAlu_memval (c : AluControl) (a b : Word) (s : State) (n : Nat) : (startAlu c a b s).memval n = s.memval n := rfl
@[simp] theorem startAlu_pendingTicks (c : AluControl) (a b : Word) (s : State) : (startAlu c a b s).pendingTicks = s.pendingTicks := rfl
@[simp] theorem startAlu_getGpr (c : AluControl) (a b : Word) (s : State) (q : BitVec 2) : (startAlu c a b s).getGpr q = s.getGpr q := rfl
@[simp] theorem startAlu_getIx (c : AluControl) (a b : Word) (s : State) (k : Fin 3) : (startAlu c a b s).getIx k = s.getIx k := rfl
@[simp] theorem startAlu_isBusy (c : AluControl) (a b : Word) (s : State) : (startAlu c a b s).isBusy = s.isBusy := rfl

/-! ### advance -/

@[simp] theorem advance_cfg (s : State) : (advance s).cfg = s.cfg := rfl
@[simp] theorem advance_gpr (s : State) : (advance s).gpr = s.gpr := rfl
@[simp] theorem advance_ix (s : State) : (advance s).ix = s.ix := rfl
@[simp] theorem advance_pc (s : State) : (advance s).pc = s.pc := rfl
@[simp] theorem advance_ir (s : State) : (advance s).ir = s.ir := rfl
@[simp] theorem advance_msr (s : State) : (advance s).msr = s.msr := rfl
@[simp] theorem advance_mfr (s : State) : (advance s).mfr = s.mfr := rfl
@[simp] theorem advance_cc (s : State) : (advance s).cc = s.cc := rfl
@[simp] theorem advance_mar (s : State) : (advance s).mar = s.mar := rfl
@[simp] theorem advance_mbr (s : State) : (advance s).mbr = s.mbr := rfl
@[simp] theorem advance_mcuState (s : State) : (advance s).mcuState = s.mcuState := rfl
@[simp] theorem advance_mem (s : State) : (advance s).mem = s.mem := rfl
@[simp] theorem advance_alu (s : State) : (advance s).alu = s.alu := rfl
@[simp] theorem advance_phase (s : State) : (advance s).phase = s.phase := rfl
@[simp] theorem advance_micro (s : State) : (advance s).micro = s.micro + 1 := rfl
@[simp] theorem advance_dec (s : State) : (advance s).dec = s.dec := rfl
@[simp] theorem advance_ea (s : State) : (advance s).ea = s.ea := rfl
@[simp] theorem advance_imm (s : State) : (advance s).imm = s.imm := rfl
@[simp] theorem advance_outcome (s : State) : (advance s).outcome = s.outcome := rfl
@[simp] theorem advance_memval (s : State) (n : Nat) : (advance s).memval n = s.memval n := rfl
@[simp] theorem advance_pendingTicks (s : State) : (advance s).pendingTicks = s.pendingTicks := rfl
@[simp] theorem advance_getGpr (s : State) (q : BitVec 2) : (advance s).getGpr q = s.getGpr q := rfl
@[simp] theorem advance_getIx (s : State) (k : Fin 3) : (advance s).getIx k = s.getIx k := rfl
@[simp] theorem advance_isBusy (s : State) : (advance s).isBusy = s.isBusy := rfl

/-! ### complete -/

@[simp] theorem complete_cfg (s : State) : (complete s).cfg = s.cfg := rfl
@[simp] theorem complete_gpr (s : State) : (complete s).gpr = s.gpr := rfl
@[simp] theorem complete_ix (s : State) : (complete s).ix = s.ix := rfl
@[simp] theorem complete_pc (s : State) : (complete s).pc = s.pc + 1 := rfl
@[simp] theorem complete_ir (s : State) : (complete s).ir = s.ir := rfl
@[simp] theorem complete_msr (s : State) : (complete s).msr = s.msr := rfl
@[simp] theorem complete_mfr (s : State) : (complete s).mfr = s.mfr := rfl
@[simp] theorem complete_cc (s : State) : (complete s).cc = s.cc := rfl
@[simp] theorem complete_mar (s : State) : (complete s).mar = s.mar := rfl
@[simp] theorem complete_mbr (s : State) : (complete s).mbr = s.mbr := rfl
@[simp] theorem complete_mcuState (s : State) : (complete s).mcuState = s.mcuState := rfl
@[simp] theorem complete_mem (s : State) : (complete s).mem = s.mem := rfl
@[simp] theorem complete_alu (s : State) : (complete s).alu = s.alu := rfl
@[simp] theorem complete_phase (s : State) : (complete s).phase = .fetch := rfl
@[simp] theorem complete_micro (s : State) : (complete s).micro = 0 := rfl
@[simp] theorem complete_dec (s : State) : (complete s).dec = s.dec := rfl
@[simp] theorem complete_ea (s : State) : (complete s).ea = s.ea := rfl
@[simp] theorem complete_imm (s : State) : (complete s).imm = s.imm := rfl
@[simp] theorem complete_outcome (s : State) : (complete s).outcome = s.outcome := rfl
@[simp] theorem complete_memval (s : State) (n : Nat) : (complete s).memval n = s.memval n := rfl
@[simp] theorem complete_pendingTicks (s : State) : (complete s).pendingTicks = s.pendingTicks := rfl
@[simp] theorem complete_getGpr (s : State) (q : BitVec 2) : (complete s).getGpr q = s.getGpr q := rfl
@[simp] theorem complete_getIx (s : State) (k : Fin 3) : (complete s).getIx k = s.getIx k := rfl
@[simp] theorem complete_isBusy (s : State) : (complete s).isBusy = s.isBusy := rfl

/-! ### enterExecute -/

@[simp] theorem enterExecute_cfg (s : State) : (enterExecute s).cfg = s.cfg := rfl
@[simp] theorem enterExecute_gpr (s : State) : (enterExecute s).gpr = s.gpr := rfl
@[simp] theorem enterExecute_ix (s : State) : (enterExecute s).ix = s.ix := rfl
@[simp] theorem enterExecute_pc (s : State) : (enterExecute s).pc = s.pc := rfl
@[simp] theorem enterExecute_ir (s : State) : (enterExecute s).ir = s.ir := rfl
@[simp] theorem enterExecute_msr (s : State) : (enterExecute s).msr = s.msr := rfl
@[simp] theorem enterExecute_mfr (s : State) : (enterExecute s).mfr = s.mfr := rfl
@[simp] theorem enterExecute_cc (s : State) : (enterExecute s).cc = s.cc := rfl
@[simp] theorem enterExecute_mar (s : State) : (enterExecute s).mar = s.mar := rfl
@[simp] theorem enterExecute_mbr (s : State) : (enterExecute s).mbr = s.mbr := rfl
@[simp] theorem enterExecute_mcuState (s : State) : (enterExecute s).mcuState = s.mcuState := rfl
@[simp] theorem enterExecute_mem (s : State) : (enterExecute s).mem = s.mem := rfl
@[simp] theorem enterExecute_alu (s : State) : (enterExecute s).alu = s.alu := rfl
@[simp] theorem enterExecute_phase (s : State) : (enterExecute s).phase = .execute := rfl
@[simp] theorem enterExecute_micro (s : State) : (enterExecute s).micro = 0 := rfl
@[simp] theorem enterExecute_dec (s : State) : (enterExecute s).dec = s.dec := rfl
@[simp] theorem enterExecute_ea (s : State) : (enterExecute s).ea = s.ea := rfl
@[simp] theorem enterExecute_imm (s : State) : (enterExecute s).imm = s.imm := rfl
@[simp] theorem enterExecute_outcome (s : State) : (enterExecute s).outcome = s.outcome := rfl
@[simp] theorem enterExecute_memval (s : State) (n : Nat) : (enterExecute s).memval n = s.memval n := rfl
@[simp] theorem enterExecute_pendingTicks (s : State) : (enterExecute s).pendingTicks = s.pendingTicks := rfl
@[simp] theorem enterExecute_getGpr (s : State) (q : BitVec 2) : (enterExecute s).getGpr q = s.getGpr q := rfl
@[simp] theorem enterExecute_getIx (s : State) (k : Fin 3) : (enterExecute s).getIx k = s.getIx k := rfl
@[simp] theorem enterExecute_isBusy (s : State) : (enterExecute s).isBusy = s.isBusy := rfl

/-! ### takeFault -/

@[simp] theorem takeFault_cfg (f : MachineFault) (s : State) : (takeFault f s).cfg = s.cfg := rfl
@[simp] theorem takeFault_gpr (f : MachineFault) (s : State) : (takeFault f s).gpr = s.gpr := rfl
@[simp] theorem takeFault_ix (f : MachineFault) (s : State) : (takeFault f s).ix = s.ix := rfl
@[simp] theorem takeFault_pc (f : MachineFault) (s : State) : (takeFault f s).pc = Config.faultEntry := rfl
@[simp] theorem takeFault_ir (f : MachineFault) (s : State) : (takeFault f s).ir = s.ir := rfl
@[simp] theorem takeFault_msr (f : MachineFault) (s : State) : (takeFault f s).msr = s.msr := rfl
@[simp] theorem takeFault_mfr (f : MachineFault) (s : State) : (takeFault f s).mfr = faultCode s.cfg.faultCodes f := rfl
@[simp] theorem takeFault_cc (f : MachineFault) (s : State) : (takeFault f s).cc = s.cc := rfl
@[simp] theorem takeFault_mar (f : MachineFault) (s : State) : (takeFault f s).mar = s.mar := rfl
@[simp] theorem takeFault_mbr (f : MachineFault) (s : State) : (takeFault f s).mbr = s.mbr := rfl
@[simp] theorem takeFault_mcuState (f : MachineFault) (s : State) : (takeFault f s).mcuState = .none := rfl
@[simp] theorem takeFault_alu (f : MachineFault) (s : State) :
    (takeFault f s).alu = { s.alu with state := .none, op1 := none, op2 := none } := rfl
@[simp] theorem takeFault_phase (f : MachineFault) (s : State) : (takeFault f s).phase = .fetch := rfl
@[simp] theorem takeFault_micro (f : MachineFault) (s : State) : (takeFault f s).micro = 0 := rfl
@[simp] theorem takeFault_dec (f : MachineFault) (s : State) : (takeFault f s).dec = s.dec := rfl
@[simp] theorem takeFault_ea (f : MachineFault) (s : State) : (takeFault f s).ea = s.ea := rfl
@[simp] theorem takeFault_imm (f : MachineFault) (s : State) : (takeFault f s).imm = s.imm := rfl
@[simp] theorem takeFault_outcome (f : MachineFault) (s : State) : (takeFault f s).outcome = s.outcome := rfl
@[simp] theorem takeFault_getGpr (f : MachineFault) (s : State) (q : BitVec 2) : (takeFault f s).getGpr q = s.getGpr q := rfl
@[simp] theorem takeFault_getIx (f : MachineFault) (s : State) (k : Fin 3) : (takeFault f s).getIx k = s.getIx k := rfl

/-! ### Reading what was written -/

@[simp] theorem setGpr_getGpr_same (s : State) (r : BitVec 2) (w : Word) : (s.setGpr r w).getGpr r = w := by
  simp [State.getGpr]

theorem setGpr_getGpr_other (s : State) (r q : BitVec 2) (w : Word) (h : q ≠ r) :
    (s.setGpr r w).getGpr q = s.getGpr q := by
  have hne : r.toNat ≠ q.toNat := fun e => h (BitVec.eq_of_toNat_eq e.symm)
  simp [State.getGpr, hne]

@[simp] theorem setIx_getIx_same (s : State) (j : Fin 3) (a : Addr) : (s.setIx j a).getIx j = a := by
  simp [State.getIx]

theorem setIx_getIx_other (s : State) (j k : Fin 3) (a : Addr) (h : k ≠ j) : (s.setIx j a).getIx k = s.getIx k := by
  have hne : j.val ≠ k.val := fun e => h (Fin.ext e.symm)
  simp [State.getIx, hne]

@[simp] theorem State.isBusy_eq_false_iff (s : State) :
    s.isBusy = false ↔ s.mcuState = .none ∨ s.mcuState = .waiting := by
  unfold State.isBusy
  cases s.mcuState <;> simp

end Sys2Proof.Machine
end

