-- ==== Sys2Proof/Laws/Ops.lean ====
section
/-! SUPPORT. One lemma per shared operation of the tick: what it can do, said once. -/

namespace Sys2Proof.Machine

/-! ### Results -/

@[simp] theorem Res.bind_ok {α β : Type} (a : α) (s : State) (k : α → State → Res β) : (Res.ok a s).bind k = k a s := rfl
@[simp] theorem Res.bind_raise {α β : Type} (f : MachineFault) (s : State) (k : α → State → Res β) :
    (Res.raise f s).bind k = .raise f s := rfl
@[simp] theorem Res.bind_stop {α β : Type} (r : FatalReason) (k : α → State → Res β) :
    (Res.stop r : Res α).bind k = .stop r := rfl

@[simp] theorem Res.settle_ok (s : State) : (Res.ok () s).settle = .next s := rfl
@[simp] theorem Res.settle_raise (f : MachineFault) (s : State) : (Res.raise f s : Res Unit).settle = .next (takeFault f s) := rfl
@[simp] theorem Res.settle_stop (r : FatalReason) : (Res.stop r : Res Unit).settle = .refused (.fatal r) := rfl

theorem holdIfBusy_busy {s : State} (h : s.isBusy = true) (k : State → Res Unit) : holdIfBusy s k = .ok () s := by
  simp only [holdIfBusy, h, if_true]

theorem holdIfBusy_idle {s : State} (h : s.isBusy = false) (k : State → Res Unit) : holdIfBusy s k = k s := by
  simp only [holdIfBusy, h, Bool.false_eq_true, if_false]

/-! ### Coherent memory in a state -/

/-- Changing the memory system to a coherent one of the same configuration keeps the state's memory in order. -/
theorem State.MemoryOk.of_mem {s t : State} (h : s.MemoryOk) (hcfg : t.cfg = s.cfg) (hmem : t.mem = s.mem) : t.MemoryOk :=
  ⟨hmem ▸ h.coherent, by rw [hcfg, hmem]; exact h.unused_when_disabled⟩

theorem State.MemoryOk.no_lines {s : State} (h : s.MemoryOk) (e : s.cfg.cacheEnabled = false) (i : Fin 8) :
    (s.mem.line i).valid = false := (h.unused_when_disabled e).2 i

/-- What an access that is no store leaves of the memory system: it stays in order and no value changes. -/
structure MemoryKept (s : State) (m : MemorySystem) : Prop where
  ok : State.MemoryOk { s with mem := m }
  pending : m.pending = s.mem.pending
  same : ∀ a, validAddress a → m.memval a = s.memval a

theorem MemoryKept.refl {s : State} (h : s.MemoryOk) : MemoryKept s s.mem := ⟨h, rfl, fun _ _ => rfl⟩

theorem MemoryKept.trans {s : State} {m n : MemorySystem} (h : MemoryKept s m)
    (k : MemoryKept { s with mem := m } n) : MemoryKept s n :=
  ⟨k.ok, k.pending.trans h.pending, fun a ha => (k.same a ha).trans (h.same a ha)⟩

/-- `DirectRead` of a valid address (R84, R97). -/
theorem directRead_valid {s : State} (h : s.MemoryOk) {a : Nat} (ha : validAddress a) :
    ∃ m, directRead a s = .ok (s.memval a) { s with mem := m } ∧ MemoryKept s m := by
  obtain ⟨h1, h2, h3, h4, h5⟩ := h.coherent.directRead s.cfg.cacheEnabled a ha h.no_lines
  refine ⟨(s.mem.directRead s.cfg.cacheEnabled a).2, ?_, ⟨h2, fun e => ?_⟩, h3, h4⟩
  · simp only [directRead, ha, if_true, h1]; rfl
  · have := h.unused_when_disabled e
    rw [h5 e]; exact this

/-- `DirectRead` of an address no memory backs (R62, R84). -/
theorem directRead_invalid {s : State} {a : Nat} (ha : ¬validAddress a) :
    directRead a s = .raise (.illegalMemoryAddress a) s := by simp only [directRead, ha, if_false]

/-- `DirectWrite` of a valid address (R85, R97). -/
theorem directWrite_valid {s : State} (h : s.MemoryOk) {a : Nat} (w : Word) (ha : validAddress a) :
    State.MemoryOk { s with mem := s.mem.directWrite s.cfg.cacheEnabled a w } ∧
      (s.mem.directWrite s.cfg.cacheEnabled a w).pending = s.mem.pending ∧
      ∀ b, validAddress b →
        (s.mem.directWrite s.cfg.cacheEnabled a w).memval b = if b = a then w else s.memval b := by
  obtain ⟨h1, h2, h3, h4⟩ := h.coherent.directWrite s.cfg.cacheEnabled a w ha h.no_lines
  exact ⟨⟨h1, fun e => ⟨h2.trans (h.unused_when_disabled e).1, h4 e⟩⟩, h2, h3⟩

/-! ### The effective address -/

/-- The address an effective-address computation gives by the table R185, read off the value of memory: none where an
index or indirection read names an address no memory backs. -/
def State.effectiveAddress (s : State) (f : Fields) : Option Nat :=
  match f.i, indexOf f.x with
  | false, none => some f.addr.toNat
  | false, some j => some ((s.getIx j).toNat + (s.memval f.addr.toNat).toNat)
  | true, none =>
    if validAddress (s.memval f.addr.toNat).toNat then some (s.memval (s.memval f.addr.toNat).toNat).toNat else none
  | true, some j =>
    if validAddress ((s.getIx j).toNat + (s.memval f.addr.toNat).toNat) then
      some (s.memval ((s.getIx j).toNat + (s.memval f.addr.toNat).toNat)).toNat
    else none

theorem addr_valid (f : Fields) : validAddress f.addr.toNat := by
  have := f.addr.isLt
  simp only [validAddress, Config.memWords]; omega

/-- `computeEA` (R186): only the memory system's recency and allocation change, or the invalid read's fault is raised. -/
theorem computeEA_cases {s : State} (h : s.MemoryOk) (f : Fields) :
    ∃ m, MemoryKept s m ∧
      ((∃ ea, s.effectiveAddress f = some ea ∧ computeEA f s = .ok ea { s with mem := m }) ∨
        ∃ a, ¬validAddress a ∧ s.effectiveAddress f = none ∧
          computeEA f s = .raise (.illegalMemoryAddress a) { s with mem := m }) := by
  obtain ⟨m, hm, km⟩ := directRead_valid h (addr_valid f)
  unfold computeEA State.effectiveAddress
  rcases hi : f.i with _ | _ <;> rcases hx : indexOf f.x with _ | j
  · exact ⟨s.mem, .refl h, .inl ⟨_, rfl, rfl⟩⟩
  · refine ⟨m, km, .inl ⟨_, rfl, ?_⟩⟩
    rw [hm]; rfl
  · by_cases hv : validAddress (s.memval f.addr.toNat).toNat
    · obtain ⟨n, hn, kn⟩ := directRead_valid km.ok hv
      refine ⟨n, km.trans kn, .inl ⟨_, if_pos hv, ?_⟩⟩
      simp only [hm, Res.bind_ok, hn]
      exact congrArg (fun w : Word => Res.ok w.toNat _) (km.same _ hv)
    · refine ⟨m, km, .inr ⟨_, hv, if_neg hv, ?_⟩⟩
      simp only [hm, Res.bind_ok, directRead_invalid hv, Res.bind_raise]
  · by_cases hv : validAddress ((s.getIx j).toNat + (s.memval f.addr.toNat).toNat)
    · obtain ⟨n, hn, kn⟩ := directRead_valid km.ok hv
      refine ⟨n, km.trans kn, .inl ⟨_, if_pos hv, ?_⟩⟩
      simp only [hm, Res.bind_ok]
      rw [show State.getIx { s with mem := m } j = s.getIx j from rfl, hn]
      exact congrArg (fun w : Word => Res.ok w.toNat _) (km.same _ hv)
    · refine ⟨m, km, .inr ⟨_, hv, if_neg hv, ?_⟩⟩
      simp only [hm, Res.bind_ok]
      rw [show State.getIx { s with mem := m } j = s.getIx j from rfl, directRead_invalid hv]
      rfl

end Sys2Proof.Machine
end

