-- ==== Sys2Proof/Laws/PerInstr.lean ====
section
/-! SUPPORT. The family `TableMatch`: under R114's opcode numbers every encoded instruction has, under the opcode table's
mask 0xFC000, the table's match word (spec/30_encoding.md R114, spec/opcode_table.json). -/

namespace Sys2Proof.Laws

/-- The "match" column of spec/opcode_table.json. -/
def tableMatch : Instr → Word
  | .ldr _ => 0x04000
  | .str _ => 0x08000
  | .lda _ => 0x0C000
  | .amr _ => 0x10000
  | .smr _ => 0x14000
  | .air _ => 0x18000
  | .sir _ => 0x1C000
  | .jne _ => 0x24000
  | .jcc _ => 0x28000
  | .sob _ => 0x38000
  | .jge _ => 0x3C000
  | .ldx _ => 0x84000
  | .stx _ => 0x88000

theorem append_masked (op : BitVec 6) (r x : BitVec 2) (i t : BitVec 1) (addr : BitVec 8) :
    (op ++ r ++ x ++ i ++ t ++ addr) &&&
        ((0x3F : BitVec 6) ++ (0 : BitVec 2) ++ (0 : BitVec 2) ++ (0 : BitVec 1) ++ (0 : BitVec 1) ++ (0 : BitVec 8)) =
      op ++ (0 : BitVec 2) ++ (0 : BitVec 2) ++ (0 : BitVec 1) ++ (0 : BitVec 1) ++ (0 : BitVec 8) := by
  have ho : ∀ op : BitVec 6, op &&& 0x3F = op := by decide
  have hz : ∀ (w : Nat) (v : BitVec w), v &&& 0 = 0 := fun w v => BitVec.and_zero
  simp only [BitVec.and_append, ho, hz]

/-- Masking a Word to its opcode field clears the operand fields. -/
theorem encodeFields_masked (d : Decoded) (op : BitVec 6) (w : Word) (ho : d.op = op)
    (hw : op ++ (0 : BitVec 2) ++ (0 : BitVec 2) ++ (0 : BitVec 1) ++ (0 : BitVec 1) ++ (0 : BitVec 8) = w) :
    encodeFields d &&& 0xFC000 = w :=
  (append_masked _ _ _ _ _ _).trans (by rw [ho]; exact hw)

namespace TableMatch

/-- The Word of i matches its row of the opcode table. -/
def Statement (i : Instr) : Prop := encode OpcodeMap.standard i &&& 0xFC000 = tableMatch i

theorem ldr (f : Fields) : Statement (.ldr f) := encodeFields_masked _ 1 0x04000 rfl (by decide)
theorem str (f : Fields) : Statement (.str f) := encodeFields_masked _ 2 0x08000 rfl (by decide)
theorem lda (f : Fields) : Statement (.lda f) := encodeFields_masked _ 3 0x0C000 rfl (by decide)
theorem amr (f : Fields) : Statement (.amr f) := encodeFields_masked _ 4 0x10000 rfl (by decide)
theorem smr (f : Fields) : Statement (.smr f) := encodeFields_masked _ 5 0x14000 rfl (by decide)
theorem air (f : Fields) : Statement (.air f) := encodeFields_masked _ 6 0x18000 rfl (by decide)
theorem sir (f : Fields) : Statement (.sir f) := encodeFields_masked _ 7 0x1C000 rfl (by decide)
theorem jne (f : Fields) : Statement (.jne f) := encodeFields_masked _ 9 0x24000 rfl (by decide)
theorem jcc (f : Fields) : Statement (.jcc f) := encodeFields_masked _ 10 0x28000 rfl (by decide)
theorem sob (f : Fields) : Statement (.sob f) := encodeFields_masked _ 14 0x38000 rfl (by decide)
theorem jge (f : Fields) : Statement (.jge f) := encodeFields_masked _ 15 0x3C000 rfl (by decide)
theorem ldx (f : Fields) : Statement (.ldx f) := encodeFields_masked _ 33 0x84000 rfl (by decide)
theorem stx (f : Fields) : Statement (.stx f) := encodeFields_masked _ 34 0x88000 rfl (by decide)

end TableMatch

end Sys2Proof.Laws
end

