-- ==== Sys2Proof/Laws/Runs.lean ====
section
/-! SUPPORT. Runs of ticks: what a tick does when the ALU and the memory unit are idle, how a memory request is served
within the ticks of a block load (spec/20_memory.md R99, spec/41_cycle_and_ea.md R192, R193), and how a run unrolls. -/

namespace Sys2Proof.Machine

/-! ### The idle units -/

theorem aluStep_idle {s : State} (h : s.alu.state ≠ .startComputation) : aluStep s = .ok () s := by
  unfold aluStep
  cases e : s.alu.state <;> first | rfl | exact absurd e h

theorem aluStep_started {s : State} {a b : BitVector} (h : s.alu.state = .startComputation) (ha : s.alu.op1 = some a)
    (hb : s.alu.op2 = some b) :
    aluStep s = .ok ()
      { s with
        alu :=
          { s.alu with
            state := .computationFinished
            op1 := none
            op2 := none
            result := (aluCompute s.cfg s.alu.ctl a b).1.or s.alu.result
            flags := (aluCompute s.cfg s.alu.ctl a b).2 } } := by
  unfold aluStep
  rw [h, ha, hb]

theorem cacheStep_no_load {s : State} (h : s.mem.pending = none) : cacheStep s = s := by
  unfold cacheStep
  split_ifs
  · rw [cacheStep_idle h]
  · rfl

theorem memoryStep_idle {s : State} (h : s.isBusy = false) (hp : s.mem.pending = none) : memoryStep s = .ok () s := by
  rw [memoryStep, cacheStep_no_load hp, requestStep]
  rcases (State.isBusy_eq_false_iff s).1 h with e | e <;> rw [e]

/-- A tick whose ControlUnit step leaves both units idle is that step (R305). -/
theorem tickOf_idle {c : State → Res Unit} {s t : State} (h : c s = .ok () t) (ha : t.alu.state ≠ .startComputation)
    (hb : t.isBusy = false) (hp : t.mem.pending = none) : tickOf c s = .next t := by
  rw [tickOf, tickBody, h, Res.bind_ok, aluStep_idle ha, Res.bind_ok, memoryStep_idle hb hp, Res.settle_ok]

/-- A tick whose ControlUnit step leaves the ALU idle is that step and the memory step (R305). -/
theorem tickOf_memory {c : State → Res Unit} {s t : State} (h : c s = .ok () t) (ha : t.alu.state ≠ .startComputation) :
    tickOf c s = (memoryStep t).settle := by
  rw [tickOf, tickBody, h, Res.bind_ok, aluStep_idle ha, Res.bind_ok]

theorem tickOf_raise {c : State → Res Unit} {s t : State} {f : MachineFault} (h : c s = .raise f t) :
    tickOf c s = .next (takeFault f t) := by rw [tickOf, tickBody, h]; rfl

theorem tickOf_stop {c : State → Res Unit} {s : State} {r : FatalReason} (h : c s = .stop r) :
    tickOf c s = .refused (.fatal r) := by rw [tickOf, tickBody, h]; rfl

/-! ### Runs unrolled -/

section Run
variable {more : State → Bool} {one : State → Host.Outcome State Fault Refusal} {s t : State}

theorem runWhile_more (n : Nat) (h : one s = .next t) (hm : more t = true) :
    runWhile more one (n + 1) s = runWhile more one n t := by simp [runWhile, h, hm]

theorem runWhile_last (n : Nat) (h : one s = .next t) (hm : more t = false) :
    runWhile more one (n + 1) s = .next t := by simp [runWhile, h, hm]

theorem runWhile_refused (n : Nat) {r : Refusal} (h : one s = .refused r) :
    runWhile more one (n + 1) s = .refused r := by simp [runWhile, h]

theorem runWhile_fault (n : Nat) {r : Fault} (h : one s = .fault r) : runWhile more one (n + 1) s = .fault r := by
  simp [runWhile, h]

end Run

/-! ### Requests served -/

theorem memoryStep_preFetch {s : State} (hp : s.mem.pending = none) (hq : s.mcuState = .preFetch) :
    memoryStep s = fetchRequestStep s := by
  simp only [memoryStep, cacheStep_no_load hp, requestStep, hq]

theorem memoryStep_preStore {s : State} (hp : s.mem.pending = none) (hq : s.mcuState = .preStore) :
    memoryStep s = storeRequestStep s := by
  simp only [memoryStep, cacheStep_no_load hp, requestStep, hq]

/-- A fetch request issued to an idle memory system is served in its own tick, or its block load is started (R73,
R82). -/
theorem fetch_issued {s : State} (h : s.MemoryOk) (hp : s.mem.pending = none) (hq : s.mcuState = .preFetch)
    (ha : validAddress s.mar.toNat) :
    (∃ m, MemoryKept s m ∧
        memoryStep s = .ok () { s with mem := m, mbr := s.memval s.mar.toNat, mcuState := .none }) ∨
      s.cfg.cacheEnabled = true ∧ s.mem.lineOf (tagOf s.mar.toNat) = none ∧
        memoryStep s =
          .ok () { s with mem := { s.mem with pending := some (tagOf s.mar.toNat, s.cfg.blockLoadTicks) } } := by
  simp only [memoryStep_preFetch hp hq, fetchRequestStep, ha, if_true]
  cases e : s.cfg.cacheEnabled with
  | false =>
    refine .inl ⟨s.mem, .refl h, ?_⟩
    simp only [Bool.false_eq_true, if_false]
    rw [State.memval, memval_of_no_lines (h.no_lines e)]
  | true =>
    obtain ⟨hc, hv, ⟨-, h1, h2⟩ | ⟨h0, h1, h2⟩⟩ := h.coherent.fetchWord s.cfg.blockLoadTicks s.mar.toNat
    · refine .inl ⟨_, ⟨⟨hc, fun e' => ?_⟩, h2, fun a _ => hv a⟩, ?_⟩
      · exact absurd (e.symm.trans e') (by simp)
      · simp only [if_true, h1]; rfl
    · refine .inr ⟨rfl, h0, ?_⟩
      simp only [if_true, h1, h2]
      simp only [MemorySystem.requestBlock, hp]

/-- With its block now held, the waiting fetch request is served (R77, R86). -/
theorem fetch_arrives {s : State} {n : Nat} (h : s.MemoryOk) (he : s.cfg.cacheEnabled = true)
    (hp : s.mem.pending = some (tagOf s.mar.toNat, n)) (hn : n ≤ 1) (hq : s.mcuState = .preFetch)
    (ha : validAddress s.mar.toNat) :
    ∃ m, MemoryKept { s with mem := { s.mem with pending := none } } m ∧
      memoryStep s = .ok () { s with mem := m, mbr := s.memval s.mar.toNat, mcuState := .none } := by
  obtain ⟨hc, ⟨i, hi⟩, -, hv⟩ := h.coherent.ensure (tagOf s.mar.toNat)
  have hc' := hc.setPending none
  obtain ⟨kc, kv, ⟨-, h1, h2⟩ | ⟨h0, -⟩⟩ := hc'.fetchWord s.cfg.blockLoadTicks s.mar.toNat
  · refine ⟨_, ⟨⟨kc, fun e' => ?_⟩, h2, fun a hva => (kv a).trans (hv a hva)⟩, ?_⟩
    · exact absurd (he.symm.trans e') (by simp)
    · rw [memoryStep, cacheStep, he, if_pos rfl, cacheStep_arrive hp hn, requestStep]
      simp only [hq, fetchRequestStep, ha, if_true, he, h1]
      rw [pending_memval, hv _ ha]
      rfl
  · exact absurd (h0.symm.trans hi) (by simp)

/-- A fetch request waits while its block load counts down (R86, R82). -/
theorem fetch_waits {s : State} {n : Nat} (he : s.cfg.cacheEnabled = true)
    (hp : s.mem.pending = some (tagOf s.mar.toNat, n)) (hn : 1 < n) (hq : s.mcuState = .preFetch)
    (ha : validAddress s.mar.toNat) (hl : s.mem.lineOf (tagOf s.mar.toNat) = none) :
    memoryStep s = .ok () { s with mem := { s.mem with pending := some (tagOf s.mar.toNat, n - 1) } } := by
  have hl' : MemorySystem.lineOf { s.mem with pending := some (tagOf s.mar.toNat, n - 1) } (tagOf s.mar.toNat) = none := hl
  rw [memoryStep, cacheStep, he, if_pos rfl, cacheStep_count hp hn, requestStep]
  simp only [hq, fetchRequestStep, ha, if_true, he, MemorySystem.fetchWord, hl', MemorySystem.requestBlock]

/-- A store request issued to an idle memory system is served in its own tick, or its block load is started (R74,
R83). -/
theorem store_issued {s : State} (h : s.MemoryOk) (hp : s.mem.pending = none) (hq : s.mcuState = .preStore)
    (ha : validAddress s.mar.toNat) :
    (∃ m, State.MemoryOk { s with mem := m } ∧ m.pending = none ∧
        (∀ b, validAddress b → m.memval b = if b = s.mar.toNat then s.mbr else s.memval b) ∧
        memoryStep s = .ok () { s with mem := m, mcuState := .none }) ∨
      s.cfg.cacheEnabled = true ∧ s.mem.lineOf (tagOf s.mar.toNat) = none ∧
        memoryStep s =
          .ok () { s with mem := { s.mem with pending := some (tagOf s.mar.toNat, s.cfg.blockLoadTicks) } } := by
  simp only [memoryStep_preStore hp hq, storeRequestStep, ha, if_true]
  cases e : s.cfg.cacheEnabled with
  | false =>
    obtain ⟨h1, h2, h3⟩ := directWrite_valid h s.mbr ha
    rw [e] at h1 h2 h3
    exact .inl ⟨_, h1, h2.trans hp, h3, rfl⟩
  | true =>
    obtain ⟨hc, ⟨-, h1, h2, h3⟩ | ⟨h0, h1, h2, -⟩⟩ := h.coherent.storeWord s.cfg.blockLoadTicks s.mar.toNat s.mbr ha
    · refine .inl ⟨_, ⟨hc, fun e' => ?_⟩, h2.trans hp, h3, ?_⟩
      · exact absurd (e.symm.trans e') (by simp)
      · simp only [if_true, h1]
    · refine .inr ⟨rfl, h0, ?_⟩
      simp only [if_true, h1, Bool.false_eq_true, if_false, h2]
      simp only [MemorySystem.requestBlock, hp]

/-- With its block now held, the waiting store request is served (R77, R86). -/
theorem store_arrives {s : State} {n : Nat} (h : s.MemoryOk) (he : s.cfg.cacheEnabled = true)
    (hp : s.mem.pending = some (tagOf s.mar.toNat, n)) (hn : n ≤ 1) (hq : s.mcuState = .preStore)
    (ha : validAddress s.mar.toNat) :
    ∃ m, State.MemoryOk { s with mem := m } ∧ m.pending = none ∧
      (∀ b, validAddress b → m.memval b = if b = s.mar.toNat then s.mbr else s.memval b) ∧
      memoryStep s = .ok () { s with mem := m, mcuState := .none } := by
  obtain ⟨hc, ⟨i, hi⟩, -, hv⟩ := h.coherent.ensure (tagOf s.mar.toNat)
  have hc' := hc.setPending none
  obtain ⟨kc, ⟨-, h1, h2, h3⟩ | ⟨h0, -⟩⟩ := hc'.storeWord s.cfg.blockLoadTicks s.mar.toNat s.mbr ha
  · refine ⟨_, ⟨kc, fun e' => ?_⟩, h2, fun b hb => ?_, ?_⟩
    · exact absurd (he.symm.trans e') (by simp)
    · rw [h3 b hb, pending_memval, hv b hb]; rfl
    · rw [memoryStep, cacheStep, he, if_pos rfl, cacheStep_arrive hp hn, requestStep]
      simp only [hq, storeRequestStep, ha, if_true, he, h1]
  · exact absurd (h0.symm.trans hi) (by simp)

/-- A store request waits while its block load counts down (R86, R83). -/
theorem store_waits {s : State} {n : Nat} (he : s.cfg.cacheEnabled = true)
    (hp : s.mem.pending = some (tagOf s.mar.toNat, n)) (hn : 1 < n) (hq : s.mcuState = .preStore)
    (ha : validAddress s.mar.toNat) (hl : s.mem.lineOf (tagOf s.mar.toNat) = none) :
    memoryStep s = .ok () { s with mem := { s.mem with pending := some (tagOf s.mar.toNat, n - 1) } } := by
  have hl' : MemorySystem.lineOf { s.mem with pending := some (tagOf s.mar.toNat, n - 1) } (tagOf s.mar.toNat) = none := hl
  rw [memoryStep, cacheStep, he, if_pos rfl, cacheStep_count hp hn, requestStep]
  simp only [hq, storeRequestStep, ha, if_true, he, MemorySystem.storeWord, hl', MemorySystem.requestBlock,
    Bool.false_eq_true, if_false]

/-- What a run does while a request is outstanding: each tick is the memory step alone, and goes on. -/
structure Holding (more : State → Bool) (one : State → Host.Outcome State Fault Refusal) (s : State) : Prop where
  tick : ∀ m, one { s with mem := m } = (memoryStep { s with mem := m }).settle
  more : ∀ m b q, more { s with mem := m, mbr := b, mcuState := q } = true

theorem runWhile_skip {more : State → Bool} {one : State → Host.Outcome State Fault Refusal} {s t : State} (k : Nat)
    (h : ∀ j, runWhile more one (1 + j) s = runWhile more one j t) {u : State}
    (g : ∀ j, runWhile more one (k + j) t = runWhile more one j u) (j : Nat) :
    runWhile more one (k + 1 + j) s = runWhile more one j u := by
  rw [show k + 1 + j = 1 + (k + j) by omega, h, g]

/-- A waiting fetch request is served within the ticks its load has left (R99, R193). -/
theorem fetch_served_waiting {more : State → Bool} {one : State → Host.Outcome State Fault Refusal} (n : Nat) {s : State}
    (hold : Holding more one s) (h : s.MemoryOk) (he : s.cfg.cacheEnabled = true)
    (hp : s.mem.pending = some (tagOf s.mar.toNat, n)) (hq : s.mcuState = .preFetch)
    (ha : validAddress s.mar.toNat) (hl : s.mem.lineOf (tagOf s.mar.toNat) = none) :
    ∃ m, MemoryKept { s with mem := { s.mem with pending := none } } m ∧
      ∀ j, runWhile more one (max n 1 + j) s =
        runWhile more one j { s with mem := m, mbr := s.memval s.mar.toNat, mcuState := .none } := by
  induction n generalizing s with
  | zero =>
    obtain ⟨m, hm, hs⟩ := fetch_arrives h he hp (Nat.zero_le 1) hq ha
    refine ⟨m, hm, fun j => ?_⟩
    rw [show max 0 1 + j = j + 1 by omega]
    exact runWhile_more j ((hold.tick s.mem).trans (by rw [hs, Res.settle_ok])) (hold.more _ _ _)
  | succ n ih =>
    by_cases hn : n = 0
    · subst hn
      obtain ⟨m, hm, hs⟩ := fetch_arrives h he hp (le_refl 1) hq ha
      refine ⟨m, hm, fun j => ?_⟩
      rw [show max (0 + 1) 1 + j = j + 1 by omega]
      exact runWhile_more j ((hold.tick s.mem).trans (by rw [hs, Res.settle_ok])) (hold.more _ _ _)
    · have hs := fetch_waits he hp (by omega) hq ha hl
      have hok : State.MemoryOk { s with mem := { s.mem with pending := some (tagOf s.mar.toNat, n) } } :=
        ⟨h.coherent.setPending _, fun e => absurd (he.symm.trans e) (by simp)⟩
      obtain ⟨m, hm, hrun⟩ := ih (s := { s with mem := { s.mem with pending := some (tagOf s.mar.toNat, n) } })
        ⟨fun m => hold.tick m, hold.more⟩ hok he rfl hq ha hl
      refine ⟨m, hm, fun j => ?_⟩
      rw [show max (n + 1) 1 + j = (max n 1 + j) + 1 by omega]
      rw [runWhile_more _ ((hold.tick s.mem).trans (by rw [hs, Res.settle_ok])) (hold.more _ s.mbr s.mcuState)]
      exact hrun j

/-- A waiting store request is served within the ticks its load has left (R99, R193). -/
theorem store_served_waiting {more : State → Bool} {one : State → Host.Outcome State Fault Refusal} (n : Nat) {s : State}
    (hold : Holding more one s) (h : s.MemoryOk) (he : s.cfg.cacheEnabled = true)
    (hp : s.mem.pending = some (tagOf s.mar.toNat, n)) (hq : s.mcuState = .preStore)
    (ha : validAddress s.mar.toNat) (hl : s.mem.lineOf (tagOf s.mar.toNat) = none) :
    ∃ m, State.MemoryOk { s with mem := m } ∧ m.pending = none ∧
      (∀ b, validAddress b → m.memval b = if b = s.mar.toNat then s.mbr else s.memval b) ∧
      ∀ j, runWhile more one (max n 1 + j) s = runWhile more one j { s with mem := m, mcuState := .none } := by
  induction n generalizing s with
  | zero =>
    obtain ⟨m, h1, h2, h3, hs⟩ := store_arrives h he hp (Nat.zero_le 1) hq ha
    refine ⟨m, h1, h2, h3, fun j => ?_⟩
    rw [show max 0 1 + j = j + 1 by omega]
    exact runWhile_more j ((hold.tick s.mem).trans (by rw [hs, Res.settle_ok])) (hold.more _ s.mbr _)
  | succ n ih =>
    by_cases hn : n = 0
    · subst hn
      obtain ⟨m, h1, h2, h3, hs⟩ := store_arrives h he hp (le_refl 1) hq ha
      refine ⟨m, h1, h2, h3, fun j => ?_⟩
      rw [show max (0 + 1) 1 + j = j + 1 by omega]
      exact runWhile_more j ((hold.tick s.mem).trans (by rw [hs, Res.settle_ok])) (hold.more _ s.mbr _)
    · have hs := store_waits he hp (by omega) hq ha hl
      have hok : State.MemoryOk { s with mem := { s.mem with pending := some (tagOf s.mar.toNat, n) } } :=
        ⟨h.coherent.setPending _, fun e => absurd (he.symm.trans e) (by simp)⟩
      obtain ⟨m, h1, h2, h3, hrun⟩ := ih (s := { s with mem := { s.mem with pending := some (tagOf s.mar.toNat, n) } })
        ⟨fun m => hold.tick m, hold.more⟩ hok he rfl hq ha hl
      refine ⟨m, h1, h2, h3, fun j => ?_⟩
      rw [show max (n + 1) 1 + j = (max n 1 + j) + 1 by omega]
      rw [runWhile_more _ ((hold.tick s.mem).trans (by rw [hs, Res.settle_ok])) (hold.more _ s.mbr s.mcuState)]
      exact hrun j

/-- The tick that issues a fetch, and those that wait for it: within `BLOCK_LOAD_TICKS` more (at least one), the Word is in
MBR and the memory unit is idle again (R73, R99, R193). `s` is the state as the ControlUnit step leaves it. -/
theorem fetch_served {more : State → Bool} {one : State → Host.Outcome State Fault Refusal} {r s : State}
    (hone : one r = (memoryStep s).settle) (hold : Holding more one s) (h : s.MemoryOk)
    (hp : s.mem.pending = none) (hq : s.mcuState = .preFetch) (ha : validAddress s.mar.toNat) :
    ∃ k m, k ≤ max s.cfg.blockLoadTicks 1 ∧ (s.cfg.cacheEnabled = false → k = 0) ∧ MemoryKept s m ∧
      ∀ j, runWhile more one (k + 1 + j) r =
        runWhile more one j { s with mem := m, mbr := s.memval s.mar.toNat, mcuState := .none } := by
  rcases fetch_issued h hp hq ha with ⟨m, hm, hs⟩ | ⟨he, hl, hs⟩
  · refine ⟨0, m, Nat.zero_le _, fun _ => rfl, hm, fun j => ?_⟩
    rw [show 0 + 1 + j = j + 1 by omega]
    exact runWhile_more j (hone.trans (by rw [hs, Res.settle_ok])) (hold.more _ _ _)
  · have hok : State.MemoryOk
        { s with mem := { s.mem with pending := some (tagOf s.mar.toNat, s.cfg.blockLoadTicks) } } :=
      ⟨h.coherent.setPending _, fun e => absurd (he.symm.trans e) (by simp)⟩
    obtain ⟨m, hm, hrun⟩ := fetch_served_waiting s.cfg.blockLoadTicks
      (s := { s with mem := { s.mem with pending := some (tagOf s.mar.toNat, s.cfg.blockLoadTicks) } })
      ⟨fun m => hold.tick m, hold.more⟩ hok he rfl hq ha hl
    refine ⟨max s.cfg.blockLoadTicks 1, m, le_refl _, fun e => absurd (he.symm.trans e) (by simp),
      ⟨hm.ok, hm.pending.trans hp.symm, hm.same⟩, fun j => ?_⟩
    rw [show max s.cfg.blockLoadTicks 1 + 1 + j = (max s.cfg.blockLoadTicks 1 + j) + 1 by omega]
    rw [runWhile_more _ (hone.trans (by rw [hs, Res.settle_ok])) (hold.more _ s.mbr s.mcuState)]
    exact hrun j

/-- The tick that issues a store, and those that wait for it: within `BLOCK_LOAD_TICKS` more (at least one), the Word at
MAR is MBR's and no other has changed (R74, R99, R103). -/
theorem store_served {more : State → Bool} {one : State → Host.Outcome State Fault Refusal} {r s : State}
    (hone : one r = (memoryStep s).settle) (hold : Holding more one s) (h : s.MemoryOk)
    (hp : s.mem.pending = none) (hq : s.mcuState = .preStore) (ha : validAddress s.mar.toNat) :
    ∃ k m, k ≤ max s.cfg.blockLoadTicks 1 ∧ (s.cfg.cacheEnabled = false → k = 0) ∧ State.MemoryOk { s with mem := m } ∧
      m.pending = none ∧ (∀ b, validAddress b → m.memval b = if b = s.mar.toNat then s.mbr else s.memval b) ∧
      ∀ j, runWhile more one (k + 1 + j) r = runWhile more one j { s with mem := m, mcuState := .none } := by
  rcases store_issued h hp hq ha with ⟨m, h1, h2, h3, hs⟩ | ⟨he, hl, hs⟩
  · refine ⟨0, m, Nat.zero_le _, fun _ => rfl, h1, h2, h3, fun j => ?_⟩
    rw [show 0 + 1 + j = j + 1 by omega]
    exact runWhile_more j (hone.trans (by rw [hs, Res.settle_ok])) (hold.more _ s.mbr _)
  · have hok : State.MemoryOk
        { s with mem := { s.mem with pending := some (tagOf s.mar.toNat, s.cfg.blockLoadTicks) } } :=
      ⟨h.coherent.setPending _, fun e => absurd (he.symm.trans e) (by simp)⟩
    obtain ⟨m, h1, h2, h3, hrun⟩ := store_served_waiting s.cfg.blockLoadTicks
      (s := { s with mem := { s.mem with pending := some (tagOf s.mar.toNat, s.cfg.blockLoadTicks) } })
      ⟨fun m => hold.tick m, hold.more⟩ hok he rfl hq ha hl
    refine ⟨max s.cfg.blockLoadTicks 1, m, le_refl _, fun e => absurd (he.symm.trans e) (by simp), h1, h2, h3,
      fun j => ?_⟩
    rw [show max s.cfg.blockLoadTicks 1 + 1 + j = (max s.cfg.blockLoadTicks 1 + j) + 1 by omega]
    rw [runWhile_more _ (hone.trans (by rw [hs, Res.settle_ok])) (hold.more _ s.mbr s.mcuState)]
    exact hrun j

/-! ### Counting ticks -/

/-- m ticks and then n are m + n. -/
theorem ticks_add {m n : Nat} {s u : State} (h : ticks m s = .next u) : ticks (m + n) s = ticks n u := by
  induction m generalizing s with
  | zero => cases h; rw [Nat.zero_add]
  | succ m ih =>
    rw [Nat.add_right_comm]
    simp only [ticks] at h ⊢
    cases e : tick s with
    | next v => rw [e] at h; exact ih h
    | fault r => rw [e] at h; cases h
    | refused r => rw [e] at h; cases h

/-- Two stretches of ticks with no boundary inside either, nor between them, are one. -/
theorem State.ReachesIn.trans {s u t : State} {m n : Nat} (h : s.ReachesIn m u) (k : u.ReachesIn n t)
    (hu : u.atBoundary = false) : s.ReachesIn (m + n) t where
  reaches := (ticks_add h.reaches).trans k.reaches
  between j h0 hj := by
    rcases Nat.lt_trichotomy j m with hlt | rfl | hgt
    · exact h.between j h0 hlt
    · exact ⟨u, h.reaches, hu⟩
    · obtain ⟨v, hv, hb⟩ := k.between (j - m) (by omega) (by omega)
      refine ⟨v, ?_, hb⟩
      rw [← hv, ← ticks_add h.reaches, Nat.add_sub_cancel' hgt.le]

theorem missTicks_disabled {s : State} (h : s.cfg.cacheEnabled = false) (a : Nat) : s.missTicks a = 0 := by
  simp [State.missTicks, h]

theorem missTicks_held {s : State} {a : Nat} {i : Fin 8} (h : s.mem.lineOf (tagOf a) = some i) : s.missTicks a = 0 := by
  simp [State.missTicks, h]

theorem missTicks_missed {s : State} {a : Nat} (hc : s.cfg.cacheEnabled = true) (h : s.mem.lineOf (tagOf a) = none) :
    s.missTicks a = s.cfg.blockLoadTicks := by
  simp [State.missTicks, hc, h]

/-! ### The vectoring sequence -/

/-- Taking a fault in a state whose memory is in order (R276). -/
theorem takeFault_vectored {s : State} (h : s.MemoryOk) (f : MachineFault) :
    s.Vectored (takeFault f s) f ∧ (takeFault f s).Ready := by
  have ha : validAddress s.cfg.faultPcSave.toNat := by
    have := s.cfg.faultPcSave.isLt
    simp only [validAddress, Config.memWords]; omega
  obtain ⟨h1, -, h3⟩ := directWrite_valid h (s.pc.setWidth 20) ha
  refine ⟨⟨rfl, ⟨?_, fun a hva hne => ?_⟩, rfl, ⟨rfl, rfl⟩, ⟨rfl, rfl, rfl⟩, ⟨rfl, rfl⟩, rfl, rfl, rfl, rfl, rfl, rfl,
    rfl⟩, ⟨⟨h1.coherent.setPending none, fun e => ⟨rfl, (h1.unused_when_disabled e).2⟩⟩, rfl, rfl, ?_⟩⟩
  · exact (h3 _ ha).trans (if_pos rfl)
  · exact (h3 a hva).trans (if_neg hne)
  · simp

end Sys2Proof.Machine
end

