-- ==== Sys2Proof/Tests/Slice0.lean ====
section
/-! SUPPORT. Tests: the well-formedness check, decoding of Words written out from spec/30_encoding.md, single steps and
datapath vectors of spec/95_test_vectors.md (its identifiers are named in the comments), and, for every statement with
hypotheses, a state and operands that meet them. -/

namespace Sys2Proof.Tests

open Sys2Proof.Machine

/-! ### A small machine -/

/-- Parameters with the cache on or off. -/
def params (cache : Bool) : Params := { Params.standard with cacheEnabled := cache }

/-- The reset machine with general registers, index registers and Words of memory set, no cache line valid. -/
def core (cache : Bool) (gpr : Vector Word 4) (ix : Vector Addr 3) (words : List (Nat × Word)) : State :=
  { State.resetWith (params cache) with
    gpr := gpr
    ix := ix
    mem := { MemorySystem.cleared with backing := words.foldl (fun m c => m.write c.1 c.2) Memory.empty } }

theorem written_wf (words : List (Nat × Word)) (m : Memory) (hm : m.wf) (h : ∀ c ∈ words, validAddress c.1) :
    (words.foldl (fun m c => m.write c.1 c.2) m).wf := by
  induction words generalizing m with
  | nil => exact hm
  | cons c rest ih =>
    exact ih (m.write c.1 c.2) (Memory.write_wf m _ _ hm (h c (by simp))) fun d hd => h d (by simp [hd])

theorem core_inv (cache : Bool) (gpr : Vector Word 4) (ix : Vector Addr 3) (words : List (Nat × Word))
    (h : ∀ c ∈ words, validAddress c.1) : (core cache gpr ix words).Inv where
  memory := by
    refine ⟨⟨written_wf words _ Memory.empty_wf h, ?_, ?_, ?_, ?_⟩, fun _ => ⟨rfl, fun i => ?_⟩⟩
    · exact cleared_coherent.one_line
    · exact fun i hi => absurd (hi.symm.trans (congrArg CacheLine.valid (cleared_line i))) (by simp [CacheLine.unused])
    · exact cleared_coherent.stamped
    · exact cleared_coherent.stamps_differ
    · exact congrArg CacheLine.valid (cleared_line i)
  running := rfl
  boundary := rfl
  mcu_idle := rfl
  no_load := rfl
  alu_idle := by simp [core, State.resetWith, Alu.reset]
  operands_absent := ⟨rfl, rfl⟩
  word_result := by simp [core, State.resetWith, Alu.reset]
  ea_bound := Nat.zero_le _

theorem ready_of_inv {s : State} (h : s.Inv) : s.Ready :=
  ⟨h.memory, by rw [State.isBusy, h.mcu_idle], h.no_load, h.alu_idle⟩

/-- The address a handler's E0 latches, from the table R185. -/
theorem computes {s : State} (h : s.Ready) {f : Fields} {ea : Nat}
    (he : (enterExecute s).effectiveAddress f = some ea) : ∃ u, computeEA f (enterExecute s) = .ok ea u := by
  have hm : (enterExecute s).MemoryOk := ⟨h.memory.coherent, h.memory.unused_when_disabled⟩
  obtain ⟨m, -, ⟨a, ha, hc⟩ | ⟨a, -, ha, -⟩⟩ := computeEA_cases hm f
  · rw [he] at ha
    cases ha
    exact ⟨_, hc⟩
  · rw [he] at ha
    cases ha

/-- The state a step answers, if it answers one. -/
def nextOf : Host.Outcome State Fault Refusal → Option State
  | .next s => some s
  | .fault _ => none
  | .refused _ => none

/-- Why a step is refused, if it is. -/
def refusalOf : Host.Outcome State Fault Refusal → Option Refusal
  | .refused r => some r
  | .next _ => none
  | .fault _ => none

theorem exists_next {o : Host.Outcome State Fault Refusal} (h : (nextOf o).isSome = true) : ∃ t, o = .next t := by
  cases o <;> simp_all [nextOf]

/-- No register set, no Word set. -/
def bare (cache : Bool) : State := core cache #v[0, 0, 0, 0] #v[0, 0, 0] []

theorem bare_inv (cache : Bool) : (bare cache).Inv := core_inv _ _ _ _ (by simp)

/-! ### The well-formedness check (R117) -/

theorem test_wf_refuses_lda_of_index_register_0 : Instr.wellFormed (.lda ⟨0, 1, false, false, 40⟩) = false := by decide
theorem test_wf_refuses_ldx_of_index_register_0 : Instr.wellFormed (.ldx ⟨1, 0, false, false, 40⟩) = false := by decide
theorem test_wf_refuses_stx_of_index_register_0 : Instr.wellFormed (.stx ⟨1, 0, true, false, 40⟩) = false := by decide
theorem test_wf_accepts_index_registers_1_to_3 :
    Instr.wellFormed (.lda ⟨3, 0, false, false, 40⟩) = true ∧ Instr.wellFormed (.ldx ⟨0, 1, false, false, 40⟩) = true ∧
      Instr.wellFormed (.stx ⟨0, 2, false, false, 40⟩) = true ∧ Instr.wellFormed (.ldr ⟨0, 0, false, false, 0⟩) = true := by
  decide

/-! ### Decoding: each Word written out as `oooooo rr xx i t aaaaaaaa` (R110) with the opcode number of R114 -/

-- LS1 `LDR 2,0,50` and R113's `LDR 3,0,31`.
theorem test_decode_ldr : decodeTableWord 24 0b00000110000000110010 = some (.ldr ⟨2, 0, false, false, 50⟩) := by decide
theorem test_decode_ldr_example : decodeTableWord 24 28703 = some (.ldr ⟨3, 0, false, false, 31⟩) := by decide
-- LS2 `STR 1,0,60`.
theorem test_decode_str : decodeTableWord 24 0b00001001000000111100 = some (.str ⟨1, 0, false, false, 60⟩) := by decide
-- LS3 `LDA 2,0,70`.
theorem test_decode_lda : decodeTableWord 24 0b00001110000001000110 = some (.lda ⟨2, 0, false, false, 70⟩) := by decide
-- LS4 `LDX 1,12`.
theorem test_decode_ldx : decodeTableWord 24 0b10000100010000001100 = some (.ldx ⟨0, 1, false, false, 12⟩) := by decide
-- LS5 `STX 3,0`.
theorem test_decode_stx : decodeTableWord 24 0b10001000110000000000 = some (.stx ⟨0, 3, false, false, 0⟩) := by decide
-- AR1 `AMR 0,0,40`, with the indirection flag set as in AR14's form.
theorem test_decode_amr : decodeTableWord 24 0b00010000001000101000 = some (.amr ⟨0, 0, true, false, 40⟩) := by decide
-- AR4 `SMR 1,0,41`.
theorem test_decode_smr : decodeTableWord 24 0b00010101000000101001 = some (.smr ⟨1, 0, false, false, 41⟩) := by decide
-- AR12, every field set: `0x19FFF`.
theorem test_decode_air : decodeTableWord 24 0b00011001111111111111 = some (.air ⟨1, 3, true, true, 255⟩) := by decide
-- AR9 `SIR 2,1`.
theorem test_decode_sir : decodeTableWord 24 0b00011110000000000001 = some (.sir ⟨2, 0, false, false, 1⟩) := by decide
-- UO2 `0x26B4D`, UO3 `0x2AB4D`, UO4's opcodes 14 and 15 with one flag bit set each.
theorem test_decode_jne : decodeTableWord 24 0b00100110101101001101 = some (.jne ⟨2, 2, true, true, 77⟩) := by decide
theorem test_decode_jcc : decodeTableWord 24 0b00101010101101001101 = some (.jcc ⟨2, 2, true, true, 77⟩) := by decide
theorem test_decode_sob : decodeTableWord 24 0b00111000000100000000 = some (.sob ⟨0, 0, false, true, 0⟩) := by decide
theorem test_decode_jge : decodeTableWord 24 0b00111100001000000000 = some (.jge ⟨0, 0, true, false, 0⟩) := by decide
-- UO1 opcode 0 and UO4's opcodes 8 and 63 have no mnemonic.
theorem test_decode_refuses_unassigned :
    decodeTableWord 24 0 = none ∧ decodeTableWord 24 0b00100000000000000000 = none ∧
      decodeTableWord 24 0b11111100000000000000 = none := by decide
theorem test_encode_fields : encode OpcodeMap.standard (.stx ⟨0, 1, true, false, 44⟩) = 0b10001000011000101100 := by decide

/-! ### Single steps, from spec/95_test_vectors.md -/

/-- The first step of the machine at its boot PC, with the instruction's Word placed there by the interface. -/
def first (s : State) (w : Nat) : Option State := nextOf (step (s.withFetchWord 24 w))

-- LS1.
theorem test_ldr :
    (first (core false #v[0, 0, 0, 0] #v[0, 0, 0] [(50, 7)]) 0x06032).map
      (fun t => (t.getGpr 2, t.pc, t.mar, t.mbr)) = some (7, 11, 50, 7) := by decide +kernel
-- EA1d as the address of an LDR: `memval(IX[2] + memval(5))` = 40; the cache on.
theorem test_ldr_indexed_indirect :
    (first (core true #v[0, 0, 0, 0] #v[0, 100, 0] [(5, 20), (20, 30), (40, 9), (120, 40)]) 0x04A05).map
      (fun t => (t.getGpr 0, t.ea, t.pc)) = some (9, 40, 11) := by decide +kernel
-- LS2.
theorem test_str :
    (first (core false #v[0, 9, 0, 0] #v[0, 0, 0] []) 0x0903C).map (fun t => (t.memval 60, t.mbr, t.pc)) =
      some (9, 9, 11) := by decide +kernel
-- LS12's second instruction: EA 2048 faults after MAR and MBR are set.
theorem test_str_beyond_memory :
    (first (core true #v[0, 0, 7, 0] #v[2000, 0, 0] [(41, 48)]) 0x0A429).map
      (fun t => (t.mar, t.mbr, t.mfr, t.memval 4, t.pc)) = some (2048, 7, 3, 10, 43) := by decide +kernel
-- LS3.
theorem test_lda :
    (first (core false #v[0, 0, 0, 0] #v[0, 0, 0] [(70, 300)]) 0x0E046).map (fun t => (t.getIx 1, t.getGpr 2, t.pc)) =
      some (300, 0, 11) := by decide +kernel
-- LS7 and LS8.
theorem test_lda_stops :
    refusalOf (step ((core false #v[0, 0, 0, 0] #v[0, 0, 0] [(40, 5)]).withFetchWord 24 0x0C028)) =
        some (.fatal .undefinedRegister) ∧
      refusalOf (step ((core false #v[0, 0, 0, 0] #v[0, 0, 0] [(40, 8192)]).withFetchWord 24 0x0D028)) =
        some (.fatal .range) := by decide +kernel
-- LS4.
theorem test_ldx :
    (first (core false #v[0, 0, 0, 0] #v[0, 0, 0] [(12, 40), (40, 5)]) 0x8440C).map (fun t => (t.getIx 0, t.ea, t.pc)) =
      some (5, 40, 11) := by decide +kernel
-- LS9.
theorem test_ldx_stops :
    refusalOf (step ((bare false).withFetchWord 24 0x84028)) = some (.fatal .undefinedRegister) := by decide +kernel
-- LS5.
theorem test_stx :
    (first (core false #v[0, 0, 0, 0] #v[0, 0, 7] []) 0x88C00).map (fun t => (t.memval 7, t.ea, t.pc)) =
      some (7, 7, 11) := by decide +kernel
-- LS6.
theorem test_stx_beyond_memory :
    (first (core false #v[0, 0, 0, 0] #v[0, 0, 8191] []) 0x88C00).map
      (fun t => (t.mar, t.mbr, t.mfr, t.memval 4, t.pc)) = some (8191, 0x01FFF, 3, 10, 43) := by decide +kernel
-- AR3.
theorem test_amr :
    (first (core false #v[0x80001, 0, 0, 0] #v[0, 0, 0] [(40, 0xFFFFF)]) 0x10028).map
      (fun t => (t.getGpr 0, t.cc, t.pc)) = some (0x80000, ⟨true, true, false⟩, 11) := by decide +kernel
-- AR14.
theorem test_amr_faults :
    (first (core false #v[5, 0, 0, 0] #v[0, 0, 0] [(20, 3000)]) 0x10214).map
      (fun t => (t.getGpr 0, t.cc, t.mfr, t.pc)) = some (5, ⟨false, false, false⟩, 3, 43) := by decide +kernel
-- AR4 and AR5.
theorem test_smr_no_borrow :
    (first (core false #v[0, 17, 0, 0] #v[0, 0, 0] [(41, 14)]) 0x15029).map (fun t => (t.getGpr 1, t.cc, t.pc)) =
      some (3, ⟨true, false, false⟩, 11) := by decide +kernel
theorem test_smr_borrow :
    (first (core false #v[0, 3, 0, 0] #v[0, 0, 0] [(41, 5)]) 0x15029).map (fun t => (t.getGpr 1, t.cc)) =
      some (0xFFFFE, ⟨false, false, false⟩) := by decide +kernel
-- AR7 and AR12.
theorem test_air :
    (first (core false #v[0, 0, 0, 10] #v[0, 0, 0] []) 0x1B019).map (fun t => (t.getGpr 3, t.cc, t.pc)) =
      some (35, ⟨false, false, false⟩, 11) := by decide +kernel
theorem test_air_ignores_the_other_fields :
    (first (core false #v[0, 1, 0, 0] #v[0, 0, 9] []) 0x19FFF).map (fun t => (t.getGpr 1, t.pc)) = some (256, 11) := by
  decide +kernel
-- AR9 and AR11.
theorem test_sir :
    (first (core false #v[0, 0, 100, 0] #v[0, 0, 0] []) 0x1E001).map (fun t => (t.getGpr 2, t.cc, t.pc)) =
      some (99, ⟨true, false, false⟩, 11) := by decide +kernel
theorem test_sir_underflow :
    (first (core false #v[0, 0, 0x80001, 0] #v[0, 0, 0] []) 0x1E001).map (fun t => (t.getGpr 2, t.cc)) =
      some (0x80000, ⟨true, true, false⟩) := by decide +kernel
-- UO1, UO2, UO3, UO4: each faults at 10.
theorem test_opcode_0 :
    (first (bare false) 0).map (fun t => (t.mfr, t.memval 4, t.pc)) = some (2, 10, 43) := by decide +kernel
theorem test_jne :
    (first (bare false) 0x26B4D).map (fun t => (t.mfr, t.memval 4, t.pc)) = some (2, 10, 43) := by decide +kernel
theorem test_jcc :
    (first (bare false) 0x2AB4D).map (fun t => (t.mfr, t.memval 4, t.pc)) = some (2, 10, 43) := by decide +kernel
theorem test_sob :
    (first (bare true) 0x38000).map (fun t => (t.mfr, t.memval 4, t.pc)) = some (2, 10, 43) := by decide +kernel
theorem test_jge :
    (first (bare true) 0x3C000).map (fun t => (t.mfr, t.memval 4, t.pc)) = some (2, 10, 43) := by decide +kernel
-- TM1: the LDR of §8 is at its next fetch after exactly 7 ticks.
theorem test_seven_ticks :
    (nextOf (ticks 7 ((core false #v[0, 0, 0, 0] #v[0, 0, 0] [(30, 5)]).withFetchWord 24 0x0401E))).map
      (fun t => (t.getGpr 0, t.atBoundary, t.pc)) = some (5, true, 11) := by decide +kernel

/-! ### Datapath vectors -/

-- BV1, BV2, BV3, BV5.
theorem test_make :
    makeBits 5 (-15) = .ok ⟨5, 0b10001⟩ ∧ makeBits 5 16 = .ok ⟨5, 0b10000⟩ ∧ makeBits 20 (-524288) = .error .range ∧
      makeBits 0 0 = .error .range ∧ makeBits 65 0 = .error .range := by decide +kernel
-- BV6, BV7: document bits 12..19 and 0..5 of `0x0701F`.
theorem test_sub_vector :
    subVector ⟨20, 0x0701F⟩ 12 19 = .ok ⟨8, 31⟩ ∧ subVector ⟨20, 0x0701F⟩ 0 5 = .ok ⟨6, 1⟩ := by decide +kernel
-- BV11, BV12, BV14, BV15, BV16, BV17.
theorem test_logic_and_shifts :
    andBits ⟨3, 0b101⟩ ⟨5, 0b00111⟩ = ⟨5, 0b00101⟩ ∧ shiftLeftLogical ⟨5, 0b00111⟩ 2 = .ok ⟨5, 0b11100⟩ ∧
      shiftRightArithmetic ⟨5, 0b10110⟩ 9 = .ok ⟨5, 0b11111⟩ ∧ shiftLeftArithmetic ⟨5, 0b10011⟩ 1 = .ok ⟨5, 0b00110⟩ ∧
      rotateLeft ⟨5, 0b10011⟩ 1 = .ok ⟨5, 0b00111⟩ ∧ rotateRight ⟨5, 0b10011⟩ 6 = .ok ⟨5, 0b11001⟩ ∧
      shiftLeftLogical ⟨5, 1⟩ (-1) = .error .range := by decide +kernel
-- ADD3, ADD4, SUB1, SUB4.
theorem test_add_and_subtract :
    aluAdd .signed ⟨5, 0b01111⟩ ⟨5, 0b01111⟩ = (⟨5, 0b11110⟩, ⟨some true, some false, none⟩) ∧
      aluAdd .carryOut ⟨5, 0b11000⟩ ⟨5, 0b11000⟩ = (⟨5, 0b10000⟩, ⟨some true, some true, none⟩) ∧
      aluSubtract .carryOut ⟨5, 0b10001⟩ ⟨5, 0b01110⟩ = (⟨5, 0b00011⟩, ⟨some true, some true, none⟩) ∧
      aluSubtract .carryOut ⟨5, 0⟩ ⟨5, 0⟩ = (⟨5, 0⟩, ⟨some false, some false, none⟩) := by decide +kernel
-- MUL6, MUL7.
theorem test_multiply :
    aluMultiply ⟨5, 0b10001⟩ ⟨5, 0b00011⟩ = (⟨40, 0xFFFFFFFFD3⟩, ⟨some false, none, none⟩) ∧
      aluMultiply ⟨40, 0x7FFFFFFFFF⟩ ⟨20, 2⟩ = (⟨40, 0xFFFFFFFFFE⟩, ⟨some true, none, none⟩) := by decide +kernel
-- DIV3, DIV9.
theorem test_divide :
    aluDivide RemainderTable.zero ⟨20, 7⟩ ⟨20, 0xFFFFE⟩ = (⟨40, 0xFFFFCFFFFF⟩, ⟨none, none, some false⟩) ∧
      aluDivide RemainderTable.zero ⟨20, 0x80000⟩ ⟨20, 0xFFFFF⟩ = (⟨40, 0x8000000000⟩, ⟨none, none, some false⟩) := by decide +kernel
-- DIV8 and SRC6 under the default, and the remainder of another choice of the parameter.
theorem test_divide_by_zero :
    aluDivide Params.standard.divZeroRemainder ⟨20, 12345⟩ ⟨20, 0⟩ = (⟨40, 0⟩, ⟨none, none, some true⟩) ∧
      aluDivide ⟨[(⟨20, 12345⟩, 9)], 4⟩ ⟨20, 12345⟩ ⟨20, 0⟩ = (⟨40, 9⟩, ⟨none, none, some true⟩) ∧
      aluDivide ⟨[(⟨20, 12345⟩, 9)], 4⟩ ⟨20, 1⟩ ⟨20, 0⟩ = (⟨40, 4⟩, ⟨none, none, some true⟩) := by decide +kernel
-- MEM9: the block of address 300.
theorem test_block_of_300 :
    bankOf 300 = 4 ∧ cellOf 300 = 37 ∧ offsetOf 300 = 5 ∧ tagOf 300 = ⟨4, 1⟩ ∧ blockAddress ⟨4, 1⟩ 31 = 508 := by decide

/-! ### The hypotheses of the statements are met

One theorem for each statement that has hypotheses: a state and operands that meet all of them together, one for each
clause, at a boundary value where the clause has a range. -/

theorem witness_DecodeOfEncodeIsTheInstruction : OpcodeMap.standard.Distinct := by decide

theorem witness_EncodeOfDecodeIsTheWord :
    decode OpcodeMap.standard 0x19FFF = .ok (.air ⟨1, 3, true, true, 255⟩) := by decide

/-- Widths 1 and 64; the ends of the asymmetric range of 5 bits, and the first numbers beyond them. -/
theorem witness_CheckedConstructionReadsBack :
    (1 ≤ 1 ∧ 1 ≤ 64 ∧ -((2 : Int) ^ (1 - 1) - 1) ≤ 0 ∧ (0 : Int) ≤ 2 ^ 1 - 1) ∧
    (1 ≤ 64 ∧ 64 ≤ 64 ∧ -((2 : Int) ^ (64 - 1) - 1) ≤ 2 ^ 64 - 1 ∧ (2 : Int) ^ 64 - 1 ≤ 2 ^ 64 - 1) ∧
    (-((2 : Int) ^ (5 - 1) - 1) ≤ -15 ∧ (-15 : Int) ≤ 2 ^ 5 - 1 ∧ (-15 : Int) < 0) ∧
    (-16 : Int) < -(2 ^ (5 - 1) - 1) ∧ (2 : Int) ^ 5 - 1 < 32 := by decide

/-- Lengths 1 and 64 build; 0, 65 and another character do not. -/
theorem witness_BinaryStringsRoundTrip :
    (⟨1, 1⟩ : BitVector).legal ∧ (⟨64, 0⟩ : BitVector).legal ∧
    fromBinaryString ['1', '0', '1', '1', '0'] = .ok ⟨5, 22⟩ ∧
    ([] : List Char).length = 0 ∧ 64 < (List.replicate 65 '1').length ∧
    (∃ c ∈ ['1', '2'], c ≠ '0' ∧ c ≠ '1') :=
  ⟨by decide, by decide, by rfl, rfl, by simp, '2', by simp, by simp⟩

theorem witness_ShiftsAndRotates : (-1 : Int) < 0 ∧ (4 : Nat) < (⟨5, 19⟩ : BitVector).width := by decide

theorem witness_LogicIsBitwise : 4 < max (⟨3, 5⟩ : BitVector).width (⟨5, 7⟩ : BitVector).width := by decide

theorem witness_RippleCarryIsAddition : (0 : Nat) < 20 ∧ (19 : Nat) < 20 := by decide

theorem witness_AddResultAndFlags : 20 = max (⟨5, 17⟩ : BitVector).width (⟨20, 1⟩ : BitVector).width := by decide

theorem witness_SubtractResultAndFlags : 5 = max (⟨5, 17⟩ : BitVector).width (⟨5, 0⟩ : BitVector).width := by decide

theorem witness_MultiplyResultAndFlags :
    (⟨20, 0x80000⟩ : BitVector).width = 20 ∧ (⟨20, 0x7FFFF⟩ : BitVector).width = 20 := ⟨rfl, rfl⟩

/-- A divisor of either sign, and zero. -/
theorem witness_DivideResultAndFlags :
    0 < (⟨20, 1⟩ : BitVector).sval ∧ (⟨20, 0xFFFFF⟩ : BitVector).sval < 0 ∧ (⟨20, 0⟩ : BitVector).sval = 0 := by
  decide +kernel

/-- The reset ALU is not started; started with one operand it has the other missing; started with both it computes under
each control code. -/
theorem witness_AluStepComputesOrStops :
    (bare false).alu.state ≠ .startComputation ∧
    (signalReady (setOperand1 (BitVector.ofWord 1) (bare false))).alu.state = .startComputation ∧
    (signalReady (setOperand1 (BitVector.ofWord 1) (bare false))).alu.op2 = none ∧
    ∀ c : AluControl, (startAlu c 5 0 (bare false)).alu.state = .startComputation ∧
      (startAlu c 5 0 (bare false)).alu.op1 = some (BitVector.ofWord 5) ∧
      (startAlu c 5 0 (bare false)).alu.op2 = some (BitVector.ofWord 0) ∧ (startAlu c 5 0 (bare false)).alu.ctl = c :=
  ⟨nofun, rfl, rfl, fun _ => ⟨rfl, rfl, rfl, rfl⟩⟩

/-- The last backed address and the first beyond it, with the cache on and off. -/
theorem witness_DirectReadAnswersTheValueOfMemory :
    ((bare true).MemoryOk ∧ (bare true).cfg.cacheEnabled = true) ∧
      ((bare false).MemoryOk ∧ (bare false).cfg.cacheEnabled = false) ∧ validAddress 2047 ∧ ¬validAddress 2048 :=
  ⟨⟨(bare_inv true).memory, rfl⟩, ⟨(bare_inv false).memory, rfl⟩, by decide, by decide⟩

theorem witness_DirectWriteSetsOneWord :
    ((bare true).MemoryOk ∧ (bare true).cfg.cacheEnabled = true) ∧
      ((bare false).MemoryOk ∧ (bare false).cfg.cacheEnabled = false) ∧ validAddress 2047 ∧ ¬validAddress 2048 :=
  ⟨⟨(bare_inv true).memory, rfl⟩, ⟨(bare_inv false).memory, rfl⟩, by decide, by decide⟩

/-- Eight blocks read in turn: every line valid. -/
def full : MemorySystem :=
  (List.range 8).foldl (fun m a => (m.directRead true a).2) MemorySystem.cleared

/-- The same, line 0's block written first: the victim is dirty. -/
def fullDirty : MemorySystem :=
  (List.range 8).foldl (fun m a => (m.directRead true a).2) (MemorySystem.cleared.directWrite true 0 7)

theorem witness_AllocationPrefersUnusedThenLeastRecent :
    ((MemorySystem.cleared.line 0).valid = false ∧ ∀ j : Fin 8, j < 0 → (MemorySystem.cleared.line j).valid = true) ∧
    ∀ i : Fin 8, (full.line i).valid = true := by decide +kernel

theorem reads_coherent (l : List Nat) (m : MemorySystem) (h : m.Coherent) (hl : ∀ a ∈ l, validAddress a) :
    (l.foldl (fun m a => (m.directRead true a).2) m).Coherent := by
  induction l generalizing m with
  | nil => exact h
  | cons a rest ih =>
    exact ih _ (h.directRead true a (hl a (by simp)) (fun e => nomatch e)).2.1 fun b hb => hl b (by simp [hb])

/-- A dirty victim, a clean one and an invalid one, block (0, 1) missing each time. -/
theorem witness_EvictionWritesBackADirtyLine :
    (fullDirty.Coherent ∧ fullDirty.lineOf ⟨0, 1⟩ = none ∧ (fullDirty.line fullDirty.victim).valid = true ∧
      (fullDirty.line fullDirty.victim).dirty = true) ∧
    (full.Coherent ∧ full.lineOf ⟨0, 1⟩ = none ∧ (full.line full.victim).dirty = false) ∧
    (MemorySystem.cleared.Coherent ∧ MemorySystem.cleared.lineOf ⟨0, 1⟩ = none ∧
      (MemorySystem.cleared.line MemorySystem.cleared.victim).valid = false) := by
  refine ⟨⟨reads_coherent _ _ ?_ (by decide), by decide +kernel⟩, ⟨reads_coherent _ _ cleared_coherent (by decide),
    by decide +kernel⟩, cleared_coherent, by decide +kernel⟩
  exact (cleared_coherent.directWrite true 0 7 (by decide) (fun e => nomatch e)).1

theorem params_legal (cache : Bool) : (params cache).Legal := by cases cache <;> decide

/-- A fetch and a store just issued at the last backed address, its block not in the cache. -/
theorem witness_MemoryRequestsComplete :
    (State.MemoryOk { bare true with mar := 2047, mcuState := .preFetch } ∧ (bare true).mem.pending = none ∧
      (bare true).cfg.Legal ∧ validAddress (2047 : Addr).toNat) ∧
    State.MemoryOk { bare true with mar := 2047, mbr := 5, mcuState := .preStore } :=
  ⟨⟨(bare_inv true).memory.of_mem rfl rfl, rfl, params_legal true, by decide⟩, (bare_inv true).memory.of_mem rfl rfl⟩

/-- Address 5 points to 2047, the last backed address; `IX[2]` is 2027 and address 6 holds 20, so their sum is 2047. -/
def pointing (cache : Bool) : State := core cache #v[0, 0, 0, 0] #v[0, 2027, 0] [(5, 2047), (6, 20), (2047, 60)]

theorem pointing_inv (cache : Bool) : (pointing cache).Inv := core_inv _ _ _ _ (by decide)

/-- The four modes of the table, the indirect ones through address 2047. -/
theorem witness_EffectiveAddressModes :
    (pointing true).MemoryOk ∧ (1 : Fin 3).val + 1 = (2 : BitVec 2).toNat ∧
    validAddress ((pointing true).memval 5).toNat ∧
    validAddress (((pointing true).getIx 1).toNat + ((pointing true).memval 6).toNat) :=
  ⟨(pointing_inv true).memory, rfl, by decide +kernel, by decide +kernel⟩

/-- Address 5 points to 2048, the first address nothing backs, and so does `IX[2]` with address 6. -/
def astray (cache : Bool) : State := core cache #v[0, 0, 0, 0] #v[0, 2028, 0] [(5, 2048), (6, 20)]

theorem astray_inv (cache : Bool) : (astray cache).Inv := core_inv _ _ _ _ (by decide)

theorem witness_InvalidIndirectionRaises :
    (astray true).MemoryOk ∧ (1 : Fin 3).val + 1 = (2 : BitVec 2).toNat ∧
    ¬validAddress ((astray true).memval 5).toNat ∧
    ¬validAddress (((astray true).getIx 1).toNat + ((astray true).memval 6).toNat) :=
  ⟨(astray_inv true).memory, rfl, by decide +kernel, by decide +kernel⟩

/-- `IX[2] + memval(6)` is 2047 and the Word there, 60, fits an index register; with the cache off and on. -/
theorem witness_effective_address (cache : Bool) :
    (pointing cache).Ready ∧
      (∃ u, computeEA ⟨1, 2, false, false, 6⟩ (enterExecute (pointing cache)) = .ok 2047 u) ∧ validAddress 2047 :=
  ⟨ready_of_inv (pointing_inv cache),
    computes (ready_of_inv (pointing_inv cache)) (by cases cache <;> decide +kernel), by decide⟩

theorem witness_LdrLoadsTheWord :
    (pointing true).Ready ∧
      (∃ u, computeEA ⟨1, 2, false, false, 6⟩ (enterExecute (pointing true)) = .ok 2047 u) ∧ validAddress 2047 :=
  witness_effective_address true

theorem witness_StrStoresTheRegister :
    (pointing true).Ready ∧
      (∃ u, computeEA ⟨1, 2, false, false, 6⟩ (enterExecute (pointing true)) = .ok 2047 u) ∧ validAddress 2047 :=
  witness_effective_address true

theorem witness_LdaLoadsTheIndexRegister :
    ((pointing true).Ready ∧
      (∃ u, computeEA ⟨1, 2, false, false, 6⟩ (enterExecute (pointing true)) = .ok 2047 u) ∧ validAddress 2047) ∧
    (0 : Fin 3).val + 1 = (1 : BitVec 2).toNat ∧ ((pointing true).memval 2047).toNat ≤ 8191 :=
  ⟨witness_effective_address true, by decide, by decide +kernel⟩

theorem witness_LdxLoadsTheIndexRegister :
    ((pointing false).Ready ∧
      (∃ u, computeEA ⟨1, 2, false, false, 6⟩ (enterExecute (pointing false)) = .ok 2047 u) ∧ validAddress 2047) ∧
    (1 : Fin 3).val + 1 = (2 : BitVec 2).toNat ∧ ((pointing false).memval 2047).toNat ≤ 8191 :=
  ⟨witness_effective_address false, by decide, by decide +kernel⟩

theorem witness_StxStoresTheIndexRegister :
    ((pointing true).Ready ∧
      (∃ u, computeEA ⟨1, 2, false, false, 6⟩ (enterExecute (pointing true)) = .ok 2047 u) ∧ validAddress 2047) ∧
    (1 : Fin 3).val + 1 = (2 : BitVec 2).toNat := ⟨witness_effective_address true, by decide⟩

theorem witness_AmrAddsTheWord :
    ((pointing true).Ready ∧
      (∃ u, computeEA ⟨1, 2, false, false, 6⟩ (enterExecute (pointing true)) = .ok 2047 u) ∧ validAddress 2047) ∧
    (pointing true).cfg.arithPolicy = .implement := ⟨witness_effective_address true, rfl⟩

theorem witness_SmrSubtractsTheWord :
    ((pointing false).Ready ∧
      (∃ u, computeEA ⟨1, 2, false, false, 6⟩ (enterExecute (pointing false)) = .ok 2047 u) ∧ validAddress 2047) ∧
    (pointing false).cfg.arithPolicy = .implement := ⟨witness_effective_address false, rfl⟩

theorem witness_AirAddsTheImmediate : (bare true).Ready ∧ (bare true).cfg.arithPolicy = .implement :=
  ⟨ready_of_inv (bare_inv true), rfl⟩

theorem witness_SirSubtractsTheImmediate : (bare false).Ready ∧ (bare false).cfg.arithPolicy = .implement :=
  ⟨ready_of_inv (bare_inv false), rfl⟩

theorem witness_BranchOpcodesRaiseIllegalOpcode :
    isBranch (.jne ⟨0, 0, false, false, 0⟩) = true ∧ isBranch (.jcc ⟨0, 0, false, false, 0⟩) = true ∧
      isBranch (.sob ⟨0, 0, false, false, 0⟩) = true ∧ isBranch (.jge ⟨0, 0, false, false, 0⟩) = true ∧
      (bare true).MemoryOk := ⟨rfl, rfl, rfl, rfl, (bare_inv true).memory⟩

/-- Fields 0 0 with the address field at its highest: the direct address 255. -/
theorem witness_IndexRegisterZeroStops :
    (bare true).Ready ∧ (∃ u, computeEA ⟨0, 0, false, false, 255⟩ (enterExecute (bare true)) = .ok 255 u) ∧
      validAddress 255 :=
  ⟨ready_of_inv (bare_inv true), computes (ready_of_inv (bare_inv true)) (by decide +kernel), by decide⟩

/-- 8192 is the lowest Word an index register cannot hold. -/
def wide : State := core true #v[0, 0, 0, 0] #v[0, 0, 0] [(40, 8192), (6, 40)]

theorem wide_inv : wide.Inv := core_inv _ _ _ _ (by decide)

theorem witness_WideWordIntoAnIndexRegisterStops :
    wide.Ready ∧ (∃ u, computeEA ⟨3, 3, false, false, 6⟩ (enterExecute wide) = .ok 40 u) ∧ validAddress 40 ∧
      8191 < (wide.memval 40).toNat ∧ (2 : Fin 3).val + 1 = (3 : BitVec 2).toNat :=
  ⟨ready_of_inv wide_inv, computes (ready_of_inv wide_inv) (by decide +kernel), by decide, by decide +kernel, by decide⟩

theorem witness_FailFastStopsArithmetic :
    isArithmetic (.amr ⟨0, 0, false, false, 40⟩) = true ∧ isArithmetic (.sir ⟨0, 0, false, false, 1⟩) = true ∧
      State.cfg { bare false with cfg := { params false with arithPolicy := .failFast } } =
        { params false with arithPolicy := .failFast } := ⟨rfl, rfl, rfl⟩

/-- Effective addresses 2048, 8191 and 8192: the first no memory backs, the last MAR holds, the first MAR does not. -/
def beyond : State := core true #v[0, 0, 0, 0] #v[2028, 8171, 8172] [(6, 20)]

theorem beyond_inv : beyond.Inv := core_inv _ _ _ _ (by decide)

theorem witness_UnbackedEffectiveAddressFaults :
    beyond.Ready ∧ usesMemory (.stx ⟨0, 1, false, false, 6⟩) = true ∧
      (∃ u, computeEA ⟨0, 1, false, false, 6⟩ (enterExecute beyond) = .ok 2048 u) ∧
      (∃ u, computeEA ⟨0, 2, false, false, 6⟩ (enterExecute beyond) = .ok 8191 u) ∧
      (∃ u, computeEA ⟨0, 3, false, false, 6⟩ (enterExecute beyond) = .ok 8192 u) ∧
      ¬validAddress 2048 ∧ ¬validAddress 8191 ∧ ¬validAddress 8192 ∧ beyond.cfg.arithPolicy = .implement ∧
      (1 : BitVec 2) ≠ 0 ∧ (0 : Fin 3).val + 1 = (1 : BitVec 2).toNat :=
  ⟨ready_of_inv beyond_inv, rfl, computes (ready_of_inv beyond_inv) (by decide +kernel),
    computes (ready_of_inv beyond_inv) (by decide +kernel), computes (ready_of_inv beyond_inv) (by decide +kernel),
    by decide, by decide, by decide, rfl, by decide, rfl⟩

theorem witness_UnbackedIndirectionFaults :
    (astray false).Ready ∧ usesMemory (.ldr ⟨0, 0, true, false, 5⟩) = true ∧
      (∃ g u, computeEA ⟨0, 0, true, false, 5⟩ (enterExecute (astray false)) = .raise g u) ∧
      (astray false).cfg.arithPolicy = .implement :=
  ⟨ready_of_inv (astray_inv false), rfl, ⟨_, _, rfl⟩, rfl⟩

theorem witness_VectoringSequence : (bare true).MemoryOk := (bare_inv true).memory

/-- The first PC no memory backs. -/
theorem witness_FetchBeyondMemoryFaults :
    State.Inv { bare true with pc := 2048 } ∧ ¬validAddress (2048 : Addr).toNat :=
  ⟨{ bare_inv true with memory := (bare_inv true).memory.of_mem rfl rfl }, by decide⟩

/-- `LDR 0,0,30` at the boot PC (TM1). -/
def loaded (cache : Bool) : State := core cache #v[0, 0, 0, 0] #v[0, 0, 0] [(10, 0x0401E), (30, 5)]

theorem loaded_inv (cache : Bool) : (loaded cache).Inv := core_inv _ _ _ _ (by decide)

theorem witness_StepRunsTheDecodedInstruction :
    (loaded true).Inv ∧ validAddress (loaded true).pc.toNat ∧
      decode (loaded true).cfg.opcodes ((loaded true).memval (loaded true).pc.toNat) =
        .ok (.ldr ⟨0, 0, false, false, 30⟩) := ⟨loaded_inv true, by decide, by decide +kernel⟩

theorem witness_StepOfAnUnassignedOpcodeFaults :
    (bare true).Inv ∧ validAddress (bare true).pc.toNat ∧
      decode (bare true).cfg.opcodes ((bare true).memval (bare true).pc.toNat) = .error (.noMnemonic 0) :=
  ⟨bare_inv true, by decide, by decide +kernel⟩

theorem loaded_steps (cache : Bool) : ∃ t, step (loaded cache) = .next t :=
  exists_next (by cases cache <;> decide +kernel)

/-- `LDX 0,40` at the boot PC (LS9). -/
def stopping : State := core false #v[0, 0, 0, 0] #v[0, 0, 0] [(10, 0x84028)]

/-- A step that answers a next state, and one that is refused. -/
theorem witness_StepIsTicksToTheNextBoundary :
    (loaded true).outcome = .running ∧ (∃ t, step (loaded true) = .next t) ∧
      stopping.outcome = .running ∧ refusalOf (step stopping) = some (.fatal .undefinedRegister) :=
  ⟨rfl, loaded_steps true, rfl, by decide +kernel⟩

theorem stopping_inv : stopping.Inv := core_inv _ _ _ _ (by decide)

theorem witness_StepNeverStalls :
    ((loaded true).Inv ∧ (loaded true).cfg.cacheEnabled = true ∧ 1 ≤ (loaded true).cfg.blockLoadTicks ∧
      ∃ t, step (loaded true) = .next t) ∧
    stopping.Inv ∧ stopping.cfg.cacheEnabled = false ∧
      refusalOf (step stopping) = some (.fatal .undefinedRegister) :=
  ⟨⟨loaded_inv true, rfl, by decide, loaded_steps true⟩, stopping_inv, rfl, by decide +kernel⟩

theorem witness_StepKeepsTheBoundaryInvariant : (loaded true).Inv ∧ ∃ t, step (loaded true) = .next t :=
  ⟨loaded_inv true, loaded_steps true⟩

/-- A boot image of two Words, at the first and the last address. -/
theorem witness_ResetWithAnyBootImage :
    Params.Legal { params true with bootImage := [(0, 7), (2047, 9)] } ∧ (params true).Legal ∧ (params false).Legal ∧
      (params true).bootImage = [] ∧ (params false).cacheEnabled = false := by decide

/-- TM1's machine with the cache on and off. -/
theorem witness_CacheIsTransparent :
    (loaded true).Inv ∧ (loaded false).Inv ∧ (loaded true).cfg.cacheEnabled = true ∧
      (loaded false).cfg = { (loaded true).cfg with cacheEnabled := false } ∧ (loaded true).SameView (loaded false) ∧
      ∃ t, step (loaded true) = .next t :=
  ⟨loaded_inv true, loaded_inv false, rfl, rfl,
    ⟨rfl, rfl, rfl, rfl, rfl, rfl, rfl, rfl, rfl, rfl, rfl, rfl, rfl, fun _ _ => rfl⟩, loaded_steps true⟩

theorem witness_ControlOnlyAdvancesOrVectors : (loaded false).Inv ∧ ∃ t, step (loaded false) = .next t :=
  ⟨loaded_inv false, loaded_steps false⟩

theorem witness_InstructionsWriteOnlyTheirTargets :
    ∃ t, exec (.amr ⟨0, 0, false, false, 30⟩) (loaded true) = .next t := exists_next (by decide +kernel)

theorem witness_OnlyStoresChangeMemory :
    (loaded true).Ready ∧ isStore (.amr ⟨0, 0, false, false, 30⟩) = false ∧
      (∃ t, exec (.amr ⟨0, 0, false, false, 30⟩) (loaded true) = .next t) ∧ validAddress 2047 ∧
      validAddress (loaded true).cfg.faultPcSave.toNat :=
  ⟨ready_of_inv (loaded_inv true), rfl, exists_next (by decide +kernel), by decide, by decide⟩

/-- The cache on and off; a load from a backed address, an immediate, a branch opcode and a Word with opcode 0. -/
theorem witness_InstructionTiming :
    ((loaded true).Inv ∧ (loaded true).cfg.cacheEnabled = true ∧ 1 ≤ (loaded true).cfg.blockLoadTicks ∧
      (loaded false).Inv ∧ (loaded false).cfg.cacheEnabled = false ∧ validAddress (10 : Addr).toNat) ∧
    (decode (loaded true).cfg.opcodes ((loaded true).memval 10) = .ok (.ldr ⟨0, 0, false, false, 30⟩) ∧
      (∃ u ea v, computeEA ⟨0, 0, false, false, 30⟩ u = .ok ea v ∧ validAddress ea) ∧
      ∃ t, step (loaded true) = .next t) ∧
    (usesMemory (.air ⟨1, 3, true, true, 255⟩) = false ∧ isArithmetic (.air ⟨1, 3, true, true, 255⟩) = true ∧
      ∃ t, step ((bare true).withFetchWord 24 0x19FFF) = .next t) ∧
    (isBranch (.jne ⟨2, 2, true, true, 77⟩) = true ∧ ∃ t, step ((bare true).withFetchWord 24 0x26B4D) = .next t) ∧
    decode (bare true).cfg.opcodes ((bare true).memval 10) = .error (.noMnemonic 0) ∧
      ∃ t, step (bare true) = .next t :=
  ⟨⟨loaded_inv true, rfl, by decide, loaded_inv false, rfl, by decide⟩,
    ⟨by decide +kernel, ⟨loaded true, 30, _, rfl, by decide⟩, loaded_steps true⟩,
    ⟨rfl, rfl, exists_next (by decide +kernel)⟩, ⟨rfl, exists_next (by decide +kernel)⟩, by decide +kernel,
    exists_next (by decide +kernel)⟩

theorem witness_EndedRunsMakeNoTick :
    State.outcome { bare false with outcome := .fatal .range } = .fatal .range := rfl

theorem witness_PlacedWordIsFetchedNext :
    State.Inv { bare true with pc := 2047 } ∧ validAddress (2047 : Addr).toNat ∧
      decode (params true).opcodes (tableWord 24 0x06032) = .ok (.ldr ⟨2, 0, false, false, 50⟩) :=
  ⟨{ bare_inv true with memory := (bare_inv true).memory.of_mem rfl rfl }, by decide, by decide⟩

theorem witness_HostWritesNeedABoundary : State.atBoundary { bare false with micro := 1 } = false := by decide

-- R310: CC is deposited and read back under its identifier, as its three Booleans.
theorem test_deposit_cc :
    hostAct (.depositRegister (.flags ⟨true, false, true⟩)) (bare false) =
        .done .nothing { bare false with cc := ⟨true, false, true⟩ } ∧
      hostAct (.readRegister .cc) { bare false with cc := ⟨true, false, true⟩ } =
        .done (.register (.flags ⟨true, false, true⟩)) { bare false with cc := ⟨true, false, true⟩ } := ⟨rfl, rfl⟩

/-- The ends of the range of a 13-bit and a 4-bit register, and the first numbers beyond them. -/
theorem witness_DepositsAreChecked :
    (bare false).atBoundary = true ∧
    (minSigned (registerWidth .pc) ≤ -4095 ∧ (-4095 : Int) ≤ maxUnsigned (registerWidth .pc)) ∧
    (minSigned (registerWidth .mfr) ≤ 15 ∧ (15 : Int) ≤ maxUnsigned (registerWidth .mfr)) ∧
    (-4096 : Int) < minSigned (registerWidth .pc) ∧ maxUnsigned (registerWidth .mfr) < 16 := by decide +kernel

theorem witness_EngineerAccessIsDirect :
    (bare true).MemoryOk ∧ (bare true).atBoundary = true ∧ validAddress 2047 ∧ ¬validAddress 2048 :=
  ⟨(bare_inv true).memory, rfl, by decide, by decide⟩

end Sys2Proof.Tests
end

section
/-! The end of a run (R9, R305): what `tick` and `step` answer after a Fatal outcome. -/

namespace Sys2Proof.Machine

section Ended
variable {s : State} {r : FatalReason}

@[simp] theorem tick_of_fatal (h : s.outcome = .fatal r) : tick s = .refused (.ended r) := by
  rw [tick, h]

@[simp] theorem step_of_fatal (h : s.outcome = .fatal r) : step s = .refused (.ended r) := by
  rw [step, h]

end Ended

/-- Settles O55: `tick` and `step` each look at the outcome before anything else. -/
theorem endedRunsMakeNoTick : Obligations.EndedRunsMakeNoTick :=
  fun _ _ h => ⟨tick_of_fatal h, step_of_fatal h⟩

end Sys2Proof.Machine
end

section
/-! What an instruction's run leaves unchanged (spec/10_state.md R22 to R30): a postcondition on the parts of a tick, one
lemma per shared micro-step, the frame of each handler, and the run of ticks to the next boundary. -/

namespace Sys2Proof.Machine

/-! ### Postconditions of a part of a tick -/

/-- P holds of the state a part of a tick reaches, whether it goes on or raises; a stop reaches none (R9, R276). -/
def Res.Leaves {α : Type} (P : State → Prop) : Res α → Prop
  | .ok _ t => P t
  | .raise _ t => P t
  | .stop _ => True

section Leaves
variable {α β : Type} {P Q : State → Prop}

@[simp] theorem Res.leaves_ok (a : α) (t : State) : (Res.ok a t).Leaves P ↔ P t := Iff.rfl
@[simp] theorem Res.leaves_raise (f : MachineFault) (t : State) : (Res.raise f t : Res α).Leaves P ↔ P t := Iff.rfl
@[simp] theorem Res.leaves_stop (r : FatalReason) : (Res.stop r : Res α).Leaves P := trivial

theorem Res.Leaves.mono {x : Res α} (h : x.Leaves P) (hPQ : ∀ t, P t → Q t) : x.Leaves Q := by
  cases x with
  | ok a t => exact hPQ t h
  | raise f t => exact hPQ t h
  | stop r => trivial

/-- A raise skips the second part, so what the first leaves has to be enough for it. -/
theorem Res.Leaves.bind {x : Res α} {k : α → State → Res β} (h : x.Leaves P) (hPQ : ∀ t, P t → Q t)
    (hk : ∀ a t, P t → (k a t).Leaves Q) : (x.bind k).Leaves Q := by
  cases x with
  | ok a t => exact hk a t h
  | raise f t => exact hPQ t h
  | stop r => trivial

theorem Res.bind_eq_ok {x : Res α} {k : α → State → Res β} {b : β} {t : State} :
    x.bind k = .ok b t ↔ ∃ a u, x = .ok a u ∧ k a u = .ok b t := by
  cases x <;> simp

theorem holdIfBusy_leaves {s : State} {k : State → Res Unit} (hs : P s) (hk : (k s).Leaves P) :
    (holdIfBusy s k).Leaves P := by
  unfold holdIfBusy
  split
  · exact hs
  · exact hk

theorem unlessFailFast_leaves {s : State} {k : State → Res Unit} (hk : (k s).Leaves P) :
    (unlessFailFast s k).Leaves P := by
  unfold unlessFailFast
  split
  · exact hk
  · trivial

end Leaves

/-! ### The ALU and memory steps -/

/-- All is as before but the memory system, the memory unit with its registers, and the address and operand latches. -/
def State.SameButLatches (s t : State) : Prop :=
  t = { s with mar := t.mar, mbr := t.mbr, mcuState := t.mcuState, mem := t.mem, ea := t.ea, imm := t.imm }

theorem State.SameButLatches.trans {s t u : State} (h : s.SameButLatches t) (k : t.SameButLatches u) :
    s.SameButLatches u := by
  unfold State.SameButLatches at *
  rw [k, h]

theorem State.SameButLatches.micro {s t : State} (h : s.SameButLatches t) : t.micro = s.micro := by rw [h]
theorem State.SameButLatches.alu {s t : State} (h : s.SameButLatches t) : t.alu = s.alu := by rw [h]

theorem directRead_sameButLatches {s u : State} (a : Nat) (h : s.SameButLatches u) :
    (directRead a u).Leaves s.SameButLatches := by
  unfold directRead
  split
  · exact h.trans rfl
  · exact h

/-- Every path of R185 is at most two direct reads. -/
theorem computeEA_sameButLatches (f : Fields) (s : State) : (computeEA f s).Leaves s.SameButLatches := by
  have first := directRead_sameButLatches f.addr.toNat (s := s) (u := s) rfl
  unfold computeEA
  split
  · rfl
  · exact first.bind (fun _ h => h) fun _ _ h => h
  · exact first.bind (fun _ h => h) fun _ _ h => (directRead_sameButLatches _ h).bind (fun _ h => h) fun _ _ h => h
  · exact first.bind (fun _ h => h) fun _ _ h => (directRead_sameButLatches _ h).bind (fun _ h => h) fun _ _ h => h

theorem fetchRequestStep_sameButLatches (s : State) : (fetchRequestStep s).Leaves s.SameButLatches := by
  unfold fetchRequestStep
  split
  · split
    · split <;> rfl
    · rfl
  · rfl

theorem storeRequestStep_sameButLatches (s : State) : (storeRequestStep s).Leaves s.SameButLatches := by
  unfold storeRequestStep
  split
  · split
    · split <;> rfl
    · rfl
  · rfl

theorem cacheStep_sameButLatches (s : State) : s.SameButLatches (cacheStep s) := by
  unfold cacheStep
  split <;> rfl

theorem requestStep_sameButLatches (s : State) : (requestStep s).Leaves s.SameButLatches := by
  unfold requestStep
  split
  · rfl
  · rfl
  · exact fetchRequestStep_sameButLatches s
  · exact storeRequestStep_sameButLatches s

theorem memoryStep_sameButLatches (s : State) : (memoryStep s).Leaves s.SameButLatches :=
  (requestStep_sameButLatches (cacheStep s)).mono fun _ h => (cacheStep_sameButLatches s).trans h

theorem aluStep_sameButAlu (s : State) : (aluStep s).Leaves fun t => t = { s with alu := t.alu } := by
  unfold aluStep
  split
  · rfl
  · rfl
  · split
    · rfl
    · trivial

/-- A computation by the adder has been asked for in this tick. -/
structure State.AdderStarted (s : State) : Prop where
  started : s.alu.state = .startComputation
  adder : s.alu.ctl = .add ∨ s.alu.ctl = .subtract

theorem advance_startAlu_adderStarted {c : AluControl} (hc : c = .add ∨ c = .subtract) (a b : Word) (s : State) :
    (advance (startAlu c a b s)).AdderStarted := ⟨rfl, hc⟩

/-- Only DIVIDE has a divide-by-zero flag to report (R150 to R157). -/
theorem aluCompute_adder_dz (p : Params) {c : AluControl} (hc : c = .add ∨ c = .subtract) (a b : BitVector) :
    (aluCompute p c a b).2.dz = none := by
  rcases hc with rfl | rfl <;> rfl

theorem State.AdderStarted.dz_unchanged {s t : State} (h : s.AdderStarted) (ht : aluStep s = .ok () t) :
    t.alu.flags.dz = none := by
  unfold aluStep at ht
  rw [h.started] at ht
  simp only at ht
  split at ht
  · cases ht
    exact aluCompute_adder_dz _ h.adder _ _
  · cases ht

/-! ### Micro-steps that write no register -/

/-- From s to t no register and no flag changes, MFR among them, and the handler is at most one micro-step further. -/
structure State.Quiet (s t : State) : Prop where
  special : s.SameSpecial t
  gpr : t.gpr = s.gpr
  ix : t.ix = s.ix
  cc : t.cc = s.cc
  micro : t.micro ≤ s.micro + 1

theorem State.Quiet.refl (s : State) : s.Quiet s :=
  ⟨⟨rfl, rfl, rfl, rfl, rfl, rfl⟩, rfl, rfl, rfl, Nat.le_succ _⟩

theorem State.SameButLatches.quiet {s t : State} (h : s.SameButLatches t) : s.Quiet t := by
  rw [h]
  exact ⟨⟨rfl, rfl, rfl, rfl, rfl, rfl⟩, rfl, rfl, rfl, Nat.le_succ _⟩

theorem State.SameButLatches.advance_quiet {s t : State} (h : s.SameButLatches t) : s.Quiet (advance t) := by
  rw [h]
  exact ⟨⟨rfl, rfl, rfl, rfl, rfl, rfl⟩, rfl, rfl, rfl, Nat.le_refl _⟩

theorem quiet_complete (s : State) : s.Quiet (complete s) :=
  ⟨⟨rfl, rfl, rfl, rfl, rfl, rfl⟩, rfl, rfl, rfl, Nat.zero_le _⟩

theorem quiet_enterExecute (s : State) : s.Quiet (enterExecute s) :=
  ⟨⟨rfl, rfl, rfl, rfl, rfl, rfl⟩, rfl, rfl, rfl, Nat.zero_le _⟩

theorem quiet_advance_startAlu (c : AluControl) (a b : Word) (s : State) : s.Quiet (advance (startAlu c a b s)) where
  special := by constructor <;> simp
  gpr := by simp
  ix := by simp
  cc := by simp
  micro := by simp

theorem aluStep_quiet (s : State) : (aluStep s).Leaves s.Quiet :=
  (aluStep_sameButAlu s).mono fun t h => by
    rw [h]
    exact ⟨⟨rfl, rfl, rfl, rfl, rfl, rfl⟩, rfl, rfl, rfl, Nat.le_succ _⟩

theorem loadMar_sameButLatches (s : State) : (loadMar s).Leaves s.SameButLatches := by
  unfold loadMar
  split <;> rfl

theorem eaStep_quiet (f : Fields) (s : State) : (eaStep f s).Leaves s.Quiet :=
  (computeEA_sameButLatches f s).bind (fun _ h => h.quiet) fun _ _ h => State.SameButLatches.advance_quiet (h.trans rfl)

theorem fetchOperandStep_quiet (s : State) : (fetchOperandStep s).Leaves s.Quiet :=
  holdIfBusy_leaves (.refl s) <|
    (loadMar_sameButLatches s).bind (fun _ h => h.quiet) fun _ _ h => State.SameButLatches.advance_quiet (h.trans rfl)

theorem storeOperandStep_quiet (w : Word) (s : State) : (storeOperandStep w s).Leaves s.Quiet :=
  holdIfBusy_leaves (.refl s) <|
    (loadMar_sameButLatches s).bind (fun _ h => h.quiet) fun _ _ h => State.SameButLatches.advance_quiet (h.trans rfl)

theorem waitStep_quiet (s : State) : (waitStep s).Leaves s.Quiet :=
  holdIfBusy_leaves (.refl s) (State.SameButLatches.advance_quiet rfl)

theorem immediateStep_quiet (f : Fields) (s : State) : (immediateStep f s).Leaves s.Quiet :=
  State.SameButLatches.advance_quiet rfl

/-! ### What an instruction may write -/

/-- From s to t at most the registers and flags change that i is there to write, in a part of the run that vectors no
fault. -/
structure State.OnlyTargets (i : Instr) (s t : State) : Prop where
  special : s.SameSpecial t
  gpr : ∀ q, targetGpr i ≠ some q → t.getGpr q = s.getGpr q
  ix : ∀ j : Fin 3, (∀ f, i = .lda f → j.val + 1 ≠ f.r.toNat) → (∀ f, i = .ldx f → j.val + 1 ≠ f.x.toNat) →
    t.getIx j = s.getIx j
  dz : t.cc.dz = s.cc.dz
  cc : isArithmetic i = false → t.cc = s.cc

/-- The micro-step of AMR, SMR, AIR and SIR that takes the ALU's result and flags. -/
def resultStep : Instr → Option Nat
  | .amr _ => some 3
  | .smr _ => some 3
  | .air _ => some 2
  | .sir _ => some 2
  | .ldr _ => none
  | .str _ => none
  | .lda _ => none
  | .ldx _ => none
  | .stx _ => none
  | .jne _ => none
  | .jcc _ => none
  | .sob _ => none
  | .jge _ => none

/-- Where the ALU's flags are about to be merged they leave the divide-by-zero flag alone: what keeps a division that was
under way when the instruction began from setting it. -/
def State.FlagsFit (i : Instr) (s : State) : Prop := resultStep i = some s.micro → s.alu.flags.dz = none

/-- What one ControlUnit micro-step of i's handler does: it writes at most i's targets, and it comes to the micro-step that
takes the ALU's result only by starting the adder. -/
structure State.MicroStep (i : Instr) (s t : State) : Prop where
  targets : s.OnlyTargets i t
  starts : resultStep i = some t.micro → t.AdderStarted

section OnlyTargets
variable {i : Instr} {s t u : State}

/-- Equal registers and flags are more than the frame asks for, whatever the instruction. -/
theorem State.Quiet.onlyTargets (h : s.Quiet t) : s.OnlyTargets i t where
  special := h.special
  gpr q _ := by simp only [State.getGpr, h.gpr]
  ix j _ _ := by simp only [State.getIx, h.ix]
  dz := by rw [h.cc]
  cc _ := h.cc

theorem State.SameSpecial.trans (h : s.SameSpecial t) (k : t.SameSpecial u) : s.SameSpecial u :=
  ⟨k.cfg.trans h.cfg, k.ir.trans h.ir, k.msr.trans h.msr, k.mfr.trans h.mfr, k.dec.trans h.dec,
    k.outcome.trans h.outcome⟩

theorem State.OnlyTargets.trans (h : s.OnlyTargets i t) (k : t.OnlyTargets i u) : s.OnlyTargets i u where
  special := h.special.trans k.special
  gpr q hq := (k.gpr q hq).trans (h.gpr q hq)
  ix j ha hx := (k.ix j ha hx).trans (h.ix j ha hx)
  dz := k.dz.trans h.dz
  cc ha := (k.cc ha).trans (h.cc ha)

/-- A handler that never takes a result from the ALU. -/
theorem State.OnlyTargets.microStep (hi : resultStep i = none) (h : s.OnlyTargets i t) : s.MicroStep i t :=
  ⟨h, fun e => by rw [hi] at e; cases e⟩

/-- Before the last micro-step but one, the next is not yet the one that takes the result. -/
theorem State.Quiet.microStep {n : Nat} (hi : resultStep i = some n) (hn : s.micro + 1 < n) (h : s.Quiet t) :
    s.MicroStep i t :=
  ⟨h.onlyTargets, fun e => by
    have := h.micro
    rw [hi, Option.some.injEq] at e
    omega⟩

end OnlyTargets

/-! ### Micro-steps that write a register -/

theorem onlyTargets_complete_setGpr {i : Instr} {r : BitVec 2} (hi : targetGpr i = some r) (w : Word) (s : State) :
    s.OnlyTargets i (complete (s.setGpr r w)) where
  special := ⟨rfl, rfl, rfl, rfl, rfl, rfl⟩
  gpr q hq := setGpr_getGpr_other s r q w fun e => hq (e ▸ hi)
  ix _ _ _ := rfl
  dz := rfl
  cc _ := rfl

/-- The index register a field names is the one that may change (R23). -/
theorem indexOf_some_val {field : BitVec 2} {j : Fin 3} (h : indexOf field = some j) : j.val + 1 = field.toNat := by
  revert field j
  decide

theorem onlyTargets_complete_setIx {i : Instr} {field : BitVec 2} {j : Fin 3} (hj : indexOf field = some j)
    (hi : (∃ f, i = .lda f ∧ f.r = field) ∨ ∃ f, i = .ldx f ∧ f.x = field) (a : Addr) (s : State) :
    s.OnlyTargets i (complete (s.setIx j a)) where
  special := ⟨rfl, rfl, rfl, rfl, rfl, rfl⟩
  gpr _ _ := rfl
  ix k ha hx := by
    refine setIx_getIx_other s j k a ?_
    rintro rfl
    rcases hi with ⟨f, rfl, rfl⟩ | ⟨f, rfl, rfl⟩
    · exact ha f rfl (indexOf_some_val hj)
    · exact hx f rfl (indexOf_some_val hj)
  dz := rfl
  cc _ := rfl

theorem loadIndexStep_onlyTargets {i : Instr} {field : BitVec 2} (s : State)
    (hi : (∃ f, i = .lda f ∧ f.r = field) ∨ ∃ f, i = .ldx f ∧ f.x = field) :
    (loadIndexStep field s).Leaves (s.OnlyTargets i) := by
  refine holdIfBusy_leaves (State.Quiet.refl s).onlyTargets ?_
  split
  · trivial
  next j hj =>
    split
    next a _ => exact onlyTargets_complete_setIx hj hi a s
    · trivial

theorem writeResultStep_microStep {i : Instr} {r : BitVec 2} {n : Nat} (ht : targetGpr i = some r)
    (ha : isArithmetic i = true) (hi : resultStep i = some (n + 1)) (s : State) (hdz : s.alu.flags.dz = none) :
    (writeResultStep r s).Leaves (s.MicroStep i) := by
  unfold writeResultStep
  split
  next w _ =>
    refine ⟨⟨⟨rfl, rfl, rfl, rfl, rfl, rfl⟩, (onlyTargets_complete_setGpr ht w s).gpr, fun _ _ _ => rfl, ?_, ?_⟩, ?_⟩
    · simp [CondCodes.merge, hdz]
    · simp [ha]
    · simp [hi]
  · trivial

/-! ### The start of the adder -/

section Adder
variable {i : Instr} {c : AluControl} {s : State}

theorem advance_startAlu_microStep (hc : c = .add ∨ c = .subtract) (a b : Word) (s : State) :
    s.MicroStep i (advance (startAlu c a b s)) :=
  ⟨(quiet_advance_startAlu c a b s).onlyTargets, fun _ => advance_startAlu_adderStarted hc a b s⟩

theorem aluOnImmediateStep_microStep (hc : c = .add ∨ c = .subtract) (r : BitVec 2) (s : State) :
    (aluOnImmediateStep c r s).Leaves (s.MicroStep i) := advance_startAlu_microStep hc _ _ s

/-- While it waits for the memory unit the handler stays at this micro-step, which is not the one that takes the result. -/
theorem aluOnMemoryStep_microStep (hc : c = .add ∨ c = .subtract) (r : BitVec 2) (hi : resultStep i ≠ some s.micro) :
    (aluOnMemoryStep c r s).Leaves (s.MicroStep i) :=
  holdIfBusy_leaves ⟨(State.Quiet.refl s).onlyTargets, fun e => absurd e hi⟩ (advance_startAlu_microStep hc _ _ s)

end Adder

/-! ### Handlers -/

/-- AMR and SMR are one handler but for what they ask of the ALU (R241, R242). -/
def memoryArithStep (c : AluControl) (f : Fields) : Handler
  | 0, s => unlessFailFast s (eaStep f)
  | 1, s => fetchOperandStep s
  | 2, s => aluOnMemoryStep c f.r s
  | 3, s => writeResultStep f.r s
  | _ + 4, s => .ok () (complete s)

/-- AIR and SIR are one handler but for what they ask of the ALU (R243, R244). -/
def immediateArithStep (c : AluControl) (f : Fields) : Handler
  | 0, s => unlessFailFast s (immediateStep f)
  | 1, s => aluOnImmediateStep c f.r s
  | 2, s => writeResultStep f.r s
  | _ + 3, s => .ok () (complete s)

/-- LDR, LDA and LDX are one handler but for what E3 does with the Word read (R211, R213, R214). -/
def loadStep (f : Fields) (last : State → Res Unit) : Handler
  | 0, s => eaStep f s
  | 1, s => fetchOperandStep s
  | 2, s => waitStep s
  | 3, s => last s
  | _ + 4, s => .ok () (complete s)

/-- E3 of LDR: wait, then `GPR[r] <- MBR; complete` (R211). -/
def loadGprStep (r : BitVec 2) (s : State) : Res Unit := holdIfBusy s fun s => .ok () (complete (s.setGpr r s.mbr))

theorem amrStep_eq (f : Fields) : amrStep f = memoryArithStep .add f := by
  funext k s
  match k with
  | 0 | 1 | 2 | 3 | _ + 4 => rfl

theorem smrStep_eq (f : Fields) : smrStep f = memoryArithStep .subtract f := by
  funext k s
  match k with
  | 0 | 1 | 2 | 3 | _ + 4 => rfl

theorem airStep_eq (f : Fields) : airStep f = immediateArithStep .add f := by
  funext k s
  match k with
  | 0 | 1 | 2 | _ + 3 => rfl

theorem sirStep_eq (f : Fields) : sirStep f = immediateArithStep .subtract f := by
  funext k s
  match k with
  | 0 | 1 | 2 | _ + 3 => rfl

theorem ldrStep_eq (f : Fields) : ldrStep f = loadStep f (loadGprStep f.r) := by
  funext k s
  match k with
  | 0 | 1 | 2 | 3 | _ + 4 => rfl

theorem ldaStep_eq (f : Fields) : ldaStep f = loadStep f (loadIndexStep f.r) := by
  funext k s
  match k with
  | 0 | 1 | 2 | 3 | _ + 4 => rfl

theorem ldxStep_eq (f : Fields) : ldxStep f = loadStep f (loadIndexStep f.x) := by
  funext k s
  match k with
  | 0 | 1 | 2 | 3 | _ + 4 => rfl

theorem loadGprStep_onlyTargets {i : Instr} {r : BitVec 2} (hi : targetGpr i = some r) (s : State) :
    (loadGprStep r s).Leaves (s.OnlyTargets i) :=
  holdIfBusy_leaves (State.Quiet.refl s).onlyTargets (onlyTargets_complete_setGpr hi s.mbr s)

section Handlers
variable {i : Instr} {c : AluControl} {f : Fields}

theorem memoryArithStep_microStep (hc : c = .add ∨ c = .subtract) (ht : targetGpr i = some f.r)
    (ha : isArithmetic i = true) (hi : resultStep i = some 3) (s : State) (hs : s.FlagsFit i) :
    (memoryArithStep c f s.micro s).Leaves (s.MicroStep i) := by
  match hk : s.micro with
  | 0 => exact unlessFailFast_leaves ((eaStep_quiet f s).mono fun _ h => h.microStep hi (by omega))
  | 1 => exact (fetchOperandStep_quiet s).mono fun _ h => h.microStep hi (by omega)
  | 2 => exact aluOnMemoryStep_microStep hc f.r (by simp [hi, hk])
  | 3 => exact writeResultStep_microStep ht ha hi s (hs (hi.trans (congrArg some hk.symm)))
  | _ + 4 => exact ⟨(quiet_complete s).onlyTargets, by simp [hi]⟩

theorem immediateArithStep_microStep (hc : c = .add ∨ c = .subtract) (ht : targetGpr i = some f.r)
    (ha : isArithmetic i = true) (hi : resultStep i = some 2) (s : State) (hs : s.FlagsFit i) :
    (immediateArithStep c f s.micro s).Leaves (s.MicroStep i) := by
  match hk : s.micro with
  | 0 => exact unlessFailFast_leaves ((immediateStep_quiet f s).mono fun _ h => h.microStep hi (by omega))
  | 1 => exact aluOnImmediateStep_microStep hc f.r s
  | 2 => exact writeResultStep_microStep ht ha hi s (hs (hi.trans (congrArg some hk.symm)))
  | _ + 3 => exact ⟨(quiet_complete s).onlyTargets, by simp [hi]⟩

theorem loadStep_onlyTargets {last : State → Res Unit} {s : State} (hlast : (last s).Leaves (s.OnlyTargets i))
    (k : Nat) : (loadStep f last k s).Leaves (s.OnlyTargets i) := by
  match k with
  | 0 => exact (eaStep_quiet f s).mono fun _ h => h.onlyTargets
  | 1 => exact (fetchOperandStep_quiet s).mono fun _ h => h.onlyTargets
  | 2 => exact (waitStep_quiet s).mono fun _ h => h.onlyTargets
  | 3 => exact hlast
  | _ + 4 => exact (quiet_complete s).onlyTargets

theorem strStep_quiet (f : Fields) (k : Nat) (s : State) : (strStep f k s).Leaves s.Quiet := by
  match k with
  | 0 => exact eaStep_quiet f s
  | 1 => exact storeOperandStep_quiet (s.getGpr f.r) s
  | 2 => exact waitStep_quiet s
  | 3 | _ + 4 => exact quiet_complete s

theorem stxStep_quiet (f : Fields) (k : Nat) (s : State) : (stxStep f k s).Leaves s.Quiet := by
  match k with
  | 0 => exact eaStep_quiet f s
  | 1 =>
    cases hj : indexOf f.x with
    | none =>
      simp only [stxStep, hj]
      exact holdIfBusy_leaves (.refl s) trivial
    | some j =>
      simp only [stxStep, hj]
      exact storeOperandStep_quiet _ s
  | 2 => exact waitStep_quiet s
  | 3 | _ + 4 => exact quiet_complete s

theorem noHandlerStep_quiet (op : BitVec 6) (k : Nat) (s : State) : (noHandlerStep op k s).Leaves s.Quiet := .refl s

end Handlers

/-- What a ControlUnit micro-step in the execute phase can do, for every instruction (R184). -/
theorem handlerOf_microStep (i : Instr) (s : State) (hs : s.FlagsFit i) :
    (handlerOf i s.micro s).Leaves (s.MicroStep i) := by
  cases i with
  | ldr f =>
    rw [handlerOf, ldrStep_eq]
    exact (loadStep_onlyTargets (loadGprStep_onlyTargets rfl s) s.micro).mono fun _ h => h.microStep rfl
  | str f => exact (strStep_quiet f s.micro s).mono fun _ h => h.onlyTargets.microStep rfl
  | lda f =>
    rw [handlerOf, ldaStep_eq]
    exact (loadStep_onlyTargets (loadIndexStep_onlyTargets s (.inl ⟨f, rfl, rfl⟩)) s.micro).mono fun _ h => h.microStep rfl
  | ldx f =>
    rw [handlerOf, ldxStep_eq]
    exact (loadStep_onlyTargets (loadIndexStep_onlyTargets s (.inr ⟨f, rfl, rfl⟩)) s.micro).mono fun _ h => h.microStep rfl
  | stx f => exact (stxStep_quiet f s.micro s).mono fun _ h => h.onlyTargets.microStep rfl
  | amr f =>
    rw [handlerOf, amrStep_eq]
    exact memoryArithStep_microStep (.inl rfl) rfl rfl rfl s hs
  | smr f =>
    rw [handlerOf, smrStep_eq]
    exact memoryArithStep_microStep (.inr rfl) rfl rfl rfl s hs
  | air f =>
    rw [handlerOf, airStep_eq]
    exact immediateArithStep_microStep (.inl rfl) rfl rfl rfl s hs
  | sir f =>
    rw [handlerOf, sirStep_eq]
    exact immediateArithStep_microStep (.inr rfl) rfl rfl rfl s hs
  | jne f | jcc f | sob f | jge f =>
    exact (noHandlerStep_quiet _ s.micro s).mono fun _ h => h.onlyTargets.microStep rfl

/-! ### A tick of a handler, and its run to the next boundary -/

/-- A tick answers the state its three steps reach, or that of a fault raised in them once it is vectored (R305, R276). -/
theorem tickOf_next {c : State → Res Unit} {s t : State} (h : tickOf c s = .next t) :
    tickBody c s = .ok () t ∨ ∃ fault u, tickBody c s = .raise fault u ∧ t = takeFault fault u := by
  unfold tickOf at h
  cases hb : tickBody c s with
  | ok _ u =>
    rw [hb] at h
    exact .inl (congrArg _ (Host.Outcome.next.inj h))
  | raise fault u =>
    rw [hb] at h
    exact .inr ⟨fault, u, rfl, (Host.Outcome.next.inj h).symm⟩
  | stop r =>
    rw [hb] at h
    cases h

/-- The ALU and memory steps of a tick write no register that the frame speaks of. -/
theorem tickBody_onlyTargets {i : Instr} {s : State} {c : State → Res Unit} (h : (c s).Leaves (s.OnlyTargets i)) :
    (tickBody c s).Leaves (s.OnlyTargets i) :=
  h.bind (fun _ h => h) fun _ u hu =>
    ((aluStep_quiet u).mono fun _ h => hu.trans h.onlyTargets).bind (fun _ h => h) fun _ v hv =>
      (memoryStep_sameButLatches v).mono fun _ h => hv.trans h.quiet.onlyTargets

/-- The flags fit after a tick: the ALU computes in the tick that starts it. -/
theorem tickBody_flagsFit {i : Instr} {s t : State} {c : State → Res Unit} (h : (c s).Leaves (s.MicroStep i))
    (ht : tickBody c s = .ok () t) : t.FlagsFit i := by
  obtain ⟨_, u, hu, ht⟩ := Res.bind_eq_ok.1 ht
  obtain ⟨_, v, hv, ht⟩ := Res.bind_eq_ok.1 ht
  have alu := aluStep_sameButAlu u
  have memory := memoryStep_sameButLatches v
  rw [hu, Res.leaves_ok] at h
  rw [hv, Res.leaves_ok] at alu
  rw [ht, Res.leaves_ok] at memory
  have micro : t.micro = u.micro := by rw [memory.micro, alu]
  intro e
  rw [micro] at e
  rw [memory.alu]
  exact (h.starts e).dz_unchanged hv

/-- How far the run of i's handler from s has come: still in the handler with at most i's targets written, or at 43 with
a fault vectored from such a state. -/
inductive State.RunFrame (i : Instr) (s t : State) : Prop where
  | handler (targets : s.OnlyTargets i t) (flags : t.FlagsFit i)
  | vectored (fault : MachineFault) (u : State) (targets : s.OnlyTargets i u) (ht : t = takeFault fault u)

theorem handler_tick_runFrame {i : Instr} {s u t : State} (targets : s.OnlyTargets i u) (flags : u.FlagsFit i)
    (h : tickOf (fun v => handlerOf i v.micro v) u = .next t) : s.RunFrame i t := by
  have step := handlerOf_microStep i u flags
  have body := tickBody_onlyTargets (c := fun v => handlerOf i v.micro v) (step.mono fun _ h => h.targets)
  rcases tickOf_next h with ht | ⟨fault, w, hw, ht⟩
  · rw [ht] at body
    exact .handler (targets.trans body) (tickBody_flagsFit step ht)
  · rw [hw] at body
    exact .vectored fault w (targets.trans body) ht

/-- A run keeps what each of its ticks keeps of a state from which it goes on. -/
theorem runWhile_invariant {more : State → Bool} {one : State → Host.Outcome State Fault Refusal}
    {P Q : State → Prop} (more_of : ∀ u, Q u → more u = true → P u)
    (tick_keeps : ∀ u v, P u → one u = .next v → Q v) (n : Nat) {s t : State} (hs : P s)
    (h : runWhile more one n s = .next t) : Q t := by
  induction n generalizing s with
  | zero => cases h
  | succ n ih =>
    cases ho : one s with
    | next u =>
      have hu := tick_keeps s u hs ho
      by_cases hm : more u = true
      · exact ih (more_of u hu hm) (runWhile_more n ho hm ▸ h)
      · rw [runWhile_last n ho (by simpa using hm)] at h
        cases h
        exact hu
    | fault r =>
      rw [runWhile_fault n ho] at h
      cases h
    | refused r =>
      rw [runWhile_refused n ho] at h
      cases h

theorem exec_eq_runHandler (i : Instr) (s : State) : exec i s = runHandler (handlerOf i) s := by
  cases i <;> rfl

/-- At E0 no instruction takes a result from the ALU. -/
theorem enterExecute_flagsFit (i : Instr) (s : State) : (enterExecute s).FlagsFit i := by
  cases i <;> simp [State.FlagsFit, resultStep]

/-- What executing an instruction can do to the registers: a vectored fault ends the run, being at a boundary. -/
theorem exec_runFrame {i : Instr} {s t : State} (h : exec i s = .next t) : s.RunFrame i t := by
  rw [exec_eq_runHandler] at h
  refine runWhile_invariant (P := fun u => s.OnlyTargets i u ∧ u.FlagsFit i) (fun u hu hm => ?_)
    (fun u v hu hv => handler_tick_runFrame hu.1 hu.2 hv) _
    ⟨(quiet_enterExecute s).onlyTargets, enterExecute_flagsFit i s⟩ h
  cases hu with
  | handler targets flags => exact ⟨targets, flags⟩
  | vectored fault w targets hw =>
    subst hw
    simp [State.atBoundary] at hm

/-- Settles O52: the run of a handler writes its targets alone, and vectoring a fault (R276) adds MFR and the PC. -/
theorem instructionsWriteOnlyTheirTargets : Obligations.InstructionsWriteOnlyTheirTargets := by
  intro i s t h
  cases exec_runFrame h with
  | handler targets _ =>
    obtain ⟨⟨cfg, ir, msr, mfr, dec, outcome⟩, gpr, ix, dz, cc⟩ := targets
    exact ⟨gpr, ix, msr, ir, dec, cfg, outcome, dz, cc, .inl mfr⟩
  | vectored fault u targets ht =>
    obtain ⟨⟨cfg, ir, msr, _, dec, outcome⟩, gpr, ix, dz, cc⟩ := targets
    subst ht
    exact ⟨gpr, ix, msr, ir, dec, cfg, outcome, dz, cc, .inr rfl⟩

end Sys2Proof.Machine
end

section
/-! The memory of the core (spec/20_memory.md R61 to R97): the striping, the choice of the line a new block takes, and what
the direct accesses leave of memory and cache. -/

namespace Sys2Proof.Machine

/-! ### Striping -/

/-- Settles O17: bank and cell are the remainder and the quotient by 8. -/
theorem addressesAreStriped : Obligations.AddressesAreStriped := by
  intro a
  refine ⟨rfl, rfl, ?_⟩
  simp only [bankOf, cellOf, addressOf]
  omega

/-! ### The victim -/

section Victim
variable {m : MemorySystem}

/-- The line numbers rise: those before i in the list are the smaller ones. -/
theorem lineNumbers_split : ∀ i : Fin 8,
    lineNumbers = lineNumbers.take i.val ++ i :: lineNumbers.drop (i.val + 1) ∧ ∀ j ∈ lineNumbers.take i.val, j < i := by
  decide

theorem unusedLine_eq_some {i : Fin 8} (hi : (m.line i).valid = false) (below : ∀ j, j < i → (m.line j).valid = true) :
    m.unusedLine = some i := by
  obtain ⟨split, smaller⟩ := lineNumbers_split i
  refine List.find?_eq_some_iff_append.2 ⟨by simp [hi], _, _, split, fun j hj => ?_⟩
  simp [below j (smaller j hj)]

theorem unusedLine_eq_none (h : ∀ i, (m.line i).valid = true) : m.unusedLine = none :=
  List.find?_eq_none.2 fun i _ => by simp [h i]

/-- Keeping the better of two along a list ends with one no worse than the first and than any in the list. -/
theorem foldl_least_le {ι : Type} (f : ι → Nat) (l : List ι) (b : ι) :
    f (l.foldl (fun best i => if f i < f best then i else best) b) ≤ f b ∧
      ∀ i ∈ l, f (l.foldl (fun best i => if f i < f best then i else best) b) ≤ f i := by
  induction l generalizing b with
  | nil => simp
  | cons c rest ih =>
    obtain ⟨start, later⟩ := ih (if f c < f b then c else b)
    have better : f (if f c < f b then c else b) ≤ f b ∧ f (if f c < f b then c else b) ≤ f c := by
      split <;> omega
    refine ⟨start.trans better.1, fun i hi => ?_⟩
    rcases List.mem_cons.1 hi with rfl | hi
    · exact start.trans better.2
    · exact later i hi

theorem leastRecentLine_le (m : MemorySystem) (i : Fin 8) : (m.line m.leastRecentLine).lastUsed ≤ (m.line i).lastUsed :=
  (foldl_least_le (fun i => (m.line i).lastUsed) lineNumbers 0).2 i (line_mem_numbers i)

end Victim

/-- Settles O20: a search for the lowest invalid line, then a minimum over all lines. -/
theorem allocationPrefersUnusedThenLeastRecent : Obligations.AllocationPrefersUnusedThenLeastRecent := by
  intro m
  refine ⟨fun i hi below => ?_, fun full i => ?_⟩
  · rw [MemorySystem.victim, unusedLine_eq_some hi below, Option.getD_some]
  · rw [MemorySystem.victim, unusedLine_eq_none full, Option.getD_none]
    exact leastRecentLine_le m i

/-! ### Allocation -/

section Allocate
variable {m : MemorySystem} {tg : Tag}

@[simp] theorem allocate_backing : (m.allocate tg).backing = (m.writeBack m.victim).backing := rfl

theorem allocate_lruClock : (m.allocate tg).lruClock = m.lruClock + 1 := by
  simp [MemorySystem.allocate]

theorem allocate_line_victim : ((m.allocate tg).line m.victim).dirty = false := by
  simp [MemorySystem.allocate, fill_line]

theorem allocate_line_other {i : Fin 8} (hi : i ≠ m.victim) : (m.allocate tg).line i = m.line i := by
  simp [MemorySystem.allocate, fill_line, writeBack_line, hi]

/-- R96: no write where the victim is invalid or clean. -/
theorem writeBack_of_clean {i : Fin 8} (h : (m.line i).valid = false ∨ (m.line i).dirty = false) : m.writeBack i = m := by
  unfold MemorySystem.writeBack
  rcases h with h | h <;> simp [h]

end Allocate

/-- Settles O21: the line changes of an allocation are the fill's, its backing-store changes the write-back's. -/
theorem evictionWritesBackADirtyLine : Obligations.EvictionWritesBackADirtyLine := by
  intro m tg h missing
  obtain ⟨coherent, held, -, -⟩ := h.allocate tg missing
  refine ⟨fun valid dirty => ⟨fun j => ?_, fun a ha other => ?_⟩, fun clean => ?_, coherent, held,
    allocate_line_victim, fun i hi => allocate_line_other hi⟩
  · simp [writeBack_read, valid, dirty, blockAddress_valid]
  · simp [writeBack_read, other]
  · rw [allocate_backing, writeBack_of_clean clean]

/-! ### What a completed access leaves of the cache -/

section Accessed
variable {m : MemorySystem} {s t : State} {a : Nat} {i : Fin 8}

/-- The block of a held, by the line that held it or else by the victim's (R84, R95). -/
theorem MemorySystem.Coherent.ensure_lineOf (h : m.Coherent) (tg : Tag) :
    (m.ensure tg).lineOf tg = some ((m.lineOf tg).getD m.victim) := by
  unfold MemorySystem.ensure
  cases e : m.lineOf tg with
  | some i => exact e
  | none => exact (h.allocate tg e).2.1

theorem ensure_dirty (tg : Tag) :
    ((m.ensure tg).line ((m.lineOf tg).getD m.victim)).dirty =
      ((m.lineOf tg).isSome && (m.line ((m.lineOf tg).getD m.victim)).dirty) := by
  unfold MemorySystem.ensure
  cases e : m.lineOf tg with
  | some i => simp
  | none => simp [allocate_line_victim]

theorem ensure_line_other {tg : Tag} {j : Fin 8} (hj : j ≠ (m.lineOf tg).getD m.victim) :
    (m.ensure tg).line j = m.line j := by
  unfold MemorySystem.ensure
  cases e : m.lineOf tg with
  | some i => rfl
  | none => exact allocate_line_other (by simpa [e] using hj)

theorem ensure_backing (tg : Tag) :
    (m.ensure tg).backing = if (m.lineOf tg).isSome then m.backing else (m.writeBack m.victim).backing := by
  unfold MemorySystem.ensure
  cases e : m.lineOf tg with
  | some i => simp
  | none => simp

theorem ensure_lruClock_succ (tg : Tag) :
    (m.ensure tg).lruClock + 1 = m.lruClock + if (m.lineOf tg).isSome then 1 else 2 := by
  unfold MemorySystem.ensure
  cases e : m.lineOf tg with
  | some i => simp
  | none => simp [allocate_lruClock]

/-- A read, once its block is held, is a refresh of the line that holds it (R84). -/
theorem accessed_of_touch (h : s.mem.Coherent)
    (ht : t.mem = (s.mem.ensure (tagOf a)).touch ((s.mem.lineOf (tagOf a)).getD s.mem.victim)) :
    s.Accessed t a false where
  resident := by rw [ht, touch_lineOf, h.ensure_lineOf]
  recent := by simp [ht]
  dirty := by simp [ht, ensure_dirty]
  others j hj := by simp [ht, hj, ensure_line_other hj]
  backing := by simp [ht, ensure_backing]
  clock := by rw [ht, touch_lruClock, ensure_lruClock_succ]

/-- A write, once its block is held, is a write into the line that holds it (R85). -/
theorem accessed_of_putWord {w : Word} (h : s.mem.Coherent)
    (ht : t.mem = (s.mem.ensure (tagOf a)).putWord ((s.mem.lineOf (tagOf a)).getD s.mem.victim) a w) :
    s.Accessed t a true where
  resident := by rw [ht, putWord_lineOf, h.ensure_lineOf]
  recent := by simp [ht, putWord_line]
  dirty := by simp [ht, putWord_line]
  others j hj := by simp [ht, putWord_line, hj, ensure_line_other hj]
  backing := by simp [ht, ensure_backing]
  clock := by rw [ht, putWord_lruClock, ensure_lruClock_succ]

theorem MemorySystem.Coherent.directRead_enabled (h : m.Coherent) (a : Nat) :
    (m.directRead true a).2 = (m.ensure (tagOf a)).touch ((m.lineOf (tagOf a)).getD m.victim) := by
  simp [MemorySystem.directRead, h.ensure_lineOf]

theorem MemorySystem.Coherent.directWrite_enabled (h : m.Coherent) (a : Nat) (w : Word) :
    m.directWrite true a w = (m.ensure (tagOf a)).putWord ((m.lineOf (tagOf a)).getD m.victim) a w := by
  simp [MemorySystem.directWrite, h.ensure_lineOf]

end Accessed

/-! ### The direct accesses -/

section Direct
variable {s : State} {a : Nat}

/-- The memory system a direct read of a leaves (R84). -/
def State.memAfterRead (s : State) (a : Nat) : MemorySystem := (s.mem.directRead s.cfg.cacheEnabled a).2

/-- The memory system a direct write of a leaves (R85). -/
def State.memAfterWrite (s : State) (a : Nat) (w : Word) : MemorySystem := s.mem.directWrite s.cfg.cacheEnabled a w

theorem directRead_eq (h : s.MemoryOk) (ha : validAddress a) :
    directRead a s = .ok (s.memval a) { s with mem := s.memAfterRead a } := by
  obtain ⟨answer, -⟩ := h.coherent.directRead s.cfg.cacheEnabled a ha h.no_lines
  simp only [directRead, ha, if_true, answer]
  rfl

theorem memAfterRead_kept (h : s.MemoryOk) (ha : validAddress a) : MemoryKept s (s.memAfterRead a) := by
  obtain ⟨m, hm, kept⟩ := directRead_valid h ha
  have same : s.memAfterRead a = m := by
    rw [directRead_eq h ha] at hm
    exact congrArg State.mem (Res.ok.inj hm).2
  exact same ▸ kept

theorem memAfterRead_disabled (he : s.cfg.cacheEnabled = false) : s.memAfterRead a = s.mem := by
  simp [State.memAfterRead, MemorySystem.directRead, he]

theorem accessed_of_memAfterRead {t : State} (h : s.MemoryOk) (he : s.cfg.cacheEnabled = true)
    (ht : t.mem = s.memAfterRead a) : s.Accessed t a false :=
  accessed_of_touch h.coherent (by rw [ht, State.memAfterRead, he, h.coherent.directRead_enabled])

theorem accessed_of_memAfterWrite {t : State} {w : Word} (h : s.MemoryOk) (he : s.cfg.cacheEnabled = true)
    (ht : t.mem = s.memAfterWrite a w) : s.Accessed t a true :=
  accessed_of_putWord h.coherent (by rw [ht, State.memAfterWrite, he, h.coherent.directWrite_enabled])

theorem directWrite_eq (w : Word) (ha : validAddress a) :
    directWrite a w s = .ok () { s with mem := s.memAfterWrite a w } := if_pos ha

theorem directWrite_invalid (w : Word) (ha : ¬validAddress a) :
    directWrite a w s = .raise (.illegalMemoryAddress a) s := if_neg ha

/-- A write sets the Word it names and keeps all others (R97). -/
theorem memAfterWrite_sameMemoryBut {t : State} {w : Word} (h : s.MemoryOk) (ha : validAddress a)
    (ht : t.mem = s.memAfterWrite a w) : s.SameMemoryBut t a w := by
  obtain ⟨-, -, value⟩ := directWrite_valid h w ha
  unfold State.SameMemoryBut State.memval
  rw [ht]
  exact ⟨(value a ha).trans (if_pos rfl), fun b hb hne => (value b hb).trans (if_neg hne)⟩

end Direct

/-- Settles O18: a hit or an allocation, then a refresh of the line; the backing store alone with the cache disabled. -/
theorem directReadAnswersTheValueOfMemory : Obligations.DirectReadAnswersTheValueOfMemory := by
  intro s a h
  refine ⟨fun ha => ?_, directRead_invalid⟩
  have kept := memAfterRead_kept h ha
  exact ⟨_, directRead_eq h ha, rfl, kept.ok, kept.pending, kept.same, fun he => accessed_of_memAfterRead h he rfl,
    fun he => by rw [memAfterRead_disabled he]⟩

/-- Settles O19: as the read, the line written as well as refreshed. -/
theorem directWriteSetsOneWord : Obligations.DirectWriteSetsOneWord := by
  intro s a w h
  refine ⟨fun ha => ?_, directWrite_invalid w⟩
  obtain ⟨ok, pending, -⟩ := directWrite_valid h w ha
  refine ⟨_, directWrite_eq w ha, rfl, ok, pending, memAfterWrite_sameMemoryBut h ha rfl,
    fun he => accessed_of_memAfterWrite h he rfl, fun he => ?_⟩
  simp [State.memAfterWrite, State.backingRead, MemorySystem.directWrite, he]

end Sys2Proof.Machine
end

section
/-! The clocked requests (spec/20_memory.md R73, R74, R86, R99): once its block is held a request leaves the memory system as
the direct access of the same address does, and until then each memory step counts the block load down. -/

namespace Sys2Proof.Machine

/-! ### A pending load beside the rest of the memory system -/

section Pending
variable (m : MemorySystem) (p : Option (Tag × Nat))

theorem writeBack_setPending (i : Fin 8) :
    MemorySystem.writeBack { m with pending := p } i = { m.writeBack i with pending := p } := by
  have same : MemorySystem.line { m with pending := p } i = m.line i := rfl
  unfold MemorySystem.writeBack
  rw [same]
  split <;> rfl

theorem allocate_setPending (tg : Tag) :
    MemorySystem.allocate { m with pending := p } tg = { m.allocate tg with pending := p } :=
  congrArg (fun n => MemorySystem.fill n m.victim tg) (writeBack_setPending m p m.victim)

theorem ensure_setPending (tg : Tag) :
    MemorySystem.ensure { m with pending := p } tg = { m.ensure tg with pending := p } := by
  have lookup : MemorySystem.lineOf { m with pending := p } tg = m.lineOf tg := rfl
  unfold MemorySystem.ensure
  rw [lookup]
  cases m.lineOf tg with
  | some i => rfl
  | none => exact allocate_setPending m p tg

end Pending

section Requests
variable {s : State}

/-! ### A request whose block is held -/

/-- The cache step before a request that is about to be served: its block is held, and no load is left pending. -/
def State.BlockArrives (s : State) : Prop :=
  cacheStep s = { s with mem := { s.mem.ensure (tagOf s.mar.toNat) with pending := none } }

theorem blockArrives_of_hit {i : Fin 8} (hp : s.mem.pending = none) (hit : s.mem.lineOf (tagOf s.mar.toNat) = some i) :
    s.BlockArrives := by
  have same : s.mem.ensure (tagOf s.mar.toNat) = s.mem := by simp [MemorySystem.ensure, hit]
  rw [State.BlockArrives, cacheStep_no_load hp, same, ← hp]

theorem blockArrives_of_load {n : Nat} (he : s.cfg.cacheEnabled = true)
    (hp : s.mem.pending = some (tagOf s.mar.toNat, n)) (hn : n ≤ 1) : s.BlockArrives := by
  rw [State.BlockArrives, cacheStep, if_pos he, cacheStep_arrive hp hn]

theorem fetch_completes (h : s.MemoryOk) (he : s.cfg.cacheEnabled = true) (hq : s.mcuState = .preFetch)
    (ha : validAddress s.mar.toNat) (held : s.BlockArrives) :
    memoryStep s = .ok ()
      { s with
        mem := { s.memAfterRead s.mar.toNat with pending := none }
        mbr := s.memval s.mar.toNat
        mcuState := .none } := by
  obtain ⟨-, -, -, value⟩ := h.coherent.ensure (tagOf s.mar.toNat)
  have found := h.coherent.ensure_lineOf (tagOf s.mar.toNat)
  have found' : MemorySystem.lineOf { s.mem.ensure (tagOf s.mar.toNat) with pending := none } (tagOf s.mar.toNat) =
    some ((s.mem.lineOf (tagOf s.mar.toNat)).getD s.mem.victim) := found
  rw [memoryStep, held, requestStep, State.memAfterRead, he, h.coherent.directRead_enabled, State.memval,
    ← value _ ha, memval_of_line found]
  simp only [hq, fetchRequestStep, ha, he, if_true, MemorySystem.fetchWord, found']
  rfl

theorem store_completes (h : s.MemoryOk) (he : s.cfg.cacheEnabled = true) (hq : s.mcuState = .preStore)
    (ha : validAddress s.mar.toNat) (held : s.BlockArrives) :
    memoryStep s = .ok ()
      { s with mem := { s.memAfterWrite s.mar.toNat s.mbr with pending := none }, mcuState := .none } := by
  have found : MemorySystem.lineOf { s.mem.ensure (tagOf s.mar.toNat) with pending := none } (tagOf s.mar.toNat) =
    some ((s.mem.lineOf (tagOf s.mar.toNat)).getD s.mem.victim) := h.coherent.ensure_lineOf _
  rw [memoryStep, held, requestStep, State.memAfterWrite, he, h.coherent.directWrite_enabled]
  simp only [hq, storeRequestStep, ha, he, if_true, MemorySystem.storeWord, found]
  rfl

/-! ### A request that waits for its block -/

/-- The state of a missed request with n ticks of its block load left (R82, R83). -/
def State.loading (s : State) (n : Nat) : State :=
  { s with mem := { s.mem with pending := some (tagOf s.mar.toNat, n) } }

theorem loading_memoryOk (h : s.MemoryOk) (he : s.cfg.cacheEnabled = true) (n : Nat) : (s.loading n).MemoryOk :=
  ⟨h.coherent.setPending _, fun e => absurd (he.symm.trans e) (by simp)⟩

theorem loading_blockArrives (he : s.cfg.cacheEnabled = true) : (s.loading 1).BlockArrives :=
  blockArrives_of_load he rfl (le_refl 1)

/-- The load under way makes no difference to what the access of its block leaves. -/
theorem loading_memAfterRead (h : s.MemoryOk) (he : s.cfg.cacheEnabled = true) (hp : s.mem.pending = none) (n a : Nat)
    (ha : validAddress a) : { (s.loading n).memAfterRead a with pending := none } = s.memAfterRead a := by
  have still : none = (s.memAfterRead a).pending := ((memAfterRead_kept h ha).pending.trans hp).symm
  have ok := loading_memoryOk h he n
  have load : (s.loading n).memAfterRead a = { s.memAfterRead a with pending := (s.loading n).mem.pending } := by
    have enabled : (s.loading n).cfg.cacheEnabled = true := he
    rw [State.memAfterRead, enabled, ok.coherent.directRead_enabled, State.memAfterRead, he, h.coherent.directRead_enabled,
      State.loading, ensure_setPending]
    rfl
  rw [load, still]

theorem loading_memAfterWrite (h : s.MemoryOk) (he : s.cfg.cacheEnabled = true) (hp : s.mem.pending = none) (n a : Nat)
    (w : Word) (ha : validAddress a) :
    { (s.loading n).memAfterWrite a w with pending := none } = s.memAfterWrite a w := by
  have still : none = (s.memAfterWrite a w).pending := ((directWrite_valid h w ha).2.1.trans hp).symm
  have ok := loading_memoryOk h he n
  have load : (s.loading n).memAfterWrite a w = { s.memAfterWrite a w with pending := (s.loading n).mem.pending } := by
    have enabled : (s.loading n).cfg.cacheEnabled = true := he
    rw [State.memAfterWrite, enabled, ok.coherent.directWrite_enabled, State.memAfterWrite, he,
      h.coherent.directWrite_enabled, State.loading, ensure_setPending]
    rfl
  rw [load, still]

theorem isBusy_cases (hb : s.isBusy = true) : s.mcuState = .preFetch ∨ s.mcuState = .preStore := by
  cases e : s.mcuState <;> simp [State.isBusy, e] at hb ⊢

/-- A miss starts the load of the block and does nothing else (R82, R83). -/
theorem request_misses (he : s.cfg.cacheEnabled = true) (hp : s.mem.pending = none) (hb : s.isBusy = true)
    (ha : validAddress s.mar.toNat) (hl : s.mem.lineOf (tagOf s.mar.toNat) = none) :
    memoryStep s = .ok () (s.loading s.cfg.blockLoadTicks) := by
  rcases isBusy_cases hb with hq | hq
  · rw [memoryStep_preFetch hp hq]
    simp only [fetchRequestStep, ha, he, if_true, MemorySystem.fetchWord, hl, MemorySystem.requestBlock, hp]
    rfl
  · rw [memoryStep_preStore hp hq]
    simp only [storeRequestStep, ha, he, if_true, MemorySystem.storeWord, hl, MemorySystem.requestBlock, hp,
      Bool.false_eq_true, if_false]
    rfl

theorem request_waits {n : Nat} (he : s.cfg.cacheEnabled = true) (hp : s.mem.pending = some (tagOf s.mar.toNat, n))
    (hn : 1 < n) (hb : s.isBusy = true) (ha : validAddress s.mar.toNat)
    (hl : s.mem.lineOf (tagOf s.mar.toNat) = none) : memoryStep s = .ok () (s.loading (n - 1)) := by
  rcases isBusy_cases hb with hq | hq
  · exact fetch_waits he hp hn hq ha hl
  · exact store_waits he hp hn hq ha hl

theorem memorySteps_one (s : State) : memorySteps 1 s = memoryStep s := by
  unfold memorySteps
  cases memoryStep s <;> rfl

theorem memorySteps_succ_of_ok {k : Nat} {t : State} (h : memoryStep s = .ok () t) :
    memorySteps (k + 1) s = memorySteps k t := by
  rw [memorySteps, h, Res.bind_ok]

/-- The memory steps of a block load with k + 1 ticks left are k that count down and the one in which it arrives. -/
theorem memorySteps_loading (he : s.cfg.cacheEnabled = true) (hb : s.isBusy = true) (ha : validAddress s.mar.toNat)
    (hl : s.mem.lineOf (tagOf s.mar.toNat) = none) (k : Nat) :
    memorySteps (k + 1) (s.loading (k + 1)) = memoryStep (s.loading 1) := by
  induction k with
  | zero => exact memorySteps_one _
  | succ k ih =>
    have counts : memoryStep (s.loading (k + 1 + 1)) = .ok () (s.loading (k + 1)) :=
      request_waits (s := s.loading (k + 1 + 1)) he rfl (by omega) hb ha hl
    rw [memorySteps_succ_of_ok counts, ih]

/-- The memory steps of a missed request (R99): the last alone serves it. -/
theorem memorySteps_of_miss (he : s.cfg.cacheEnabled = true) (hp : s.mem.pending = none) (hb : s.isBusy = true)
    (ha : validAddress s.mar.toNat) (hl : s.mem.lineOf (tagOf s.mar.toNat) = none) (load : 1 ≤ s.cfg.blockLoadTicks) :
    memorySteps (s.missTicks s.mar.toNat + 1) s = memoryStep (s.loading 1) := by
  obtain ⟨k, hk⟩ := Nat.exists_eq_add_of_le' load
  rw [missTicks_missed he hl, memorySteps_succ_of_ok (request_misses he hp hb ha hl), hk]
  exact memorySteps_loading he hb ha hl k

/-! ### From issue to completion -/

/-- A clocked fetch ends as the direct read of its address does, with the Word in MBR (R73, R84). -/
theorem memorySteps_fetch (h : s.MemoryOk) (hp : s.mem.pending = none) (load : 1 ≤ s.cfg.blockLoadTicks)
    (hq : s.mcuState = .preFetch) (ha : validAddress s.mar.toNat) :
    memorySteps (s.missTicks s.mar.toNat + 1) s = .ok ()
      { s with mem := s.memAfterRead s.mar.toNat, mbr := s.memval s.mar.toNat, mcuState := .none } := by
  cases he : s.cfg.cacheEnabled with
  | false =>
    rw [missTicks_disabled he, memorySteps_one, memoryStep_preFetch hp hq, memAfterRead_disabled he, State.memval,
      memval_of_no_lines (h.no_lines he)]
    simp [fetchRequestStep, ha, he]
  | true =>
    cases hl : s.mem.lineOf (tagOf s.mar.toNat) with
    | some i =>
      have still : none = (s.memAfterRead s.mar.toNat).pending := ((memAfterRead_kept h ha).pending.trans hp).symm
      rw [missTicks_held hl, memorySteps_one, fetch_completes h he hq ha (blockArrives_of_hit hp hl), still]
    | none =>
      rw [memorySteps_of_miss he hp (by simp [State.isBusy, hq]) ha hl load,
        fetch_completes (loading_memoryOk h he 1) he hq ha (loading_blockArrives he)]
      exact congrArg (fun m => Res.ok () { s with mem := m, mbr := s.memval s.mar.toNat, mcuState := .none })
        (loading_memAfterRead h he hp 1 _ ha)

/-- A clocked store ends as the direct write of its address does (R74, R85). -/
theorem memorySteps_store (h : s.MemoryOk) (hp : s.mem.pending = none) (load : 1 ≤ s.cfg.blockLoadTicks)
    (hq : s.mcuState = .preStore) (ha : validAddress s.mar.toNat) :
    memorySteps (s.missTicks s.mar.toNat + 1) s = .ok ()
      { s with mem := s.memAfterWrite s.mar.toNat s.mbr, mcuState := .none } := by
  cases he : s.cfg.cacheEnabled with
  | false =>
    rw [missTicks_disabled he, memorySteps_one, memoryStep_preStore hp hq]
    simp [storeRequestStep, State.memAfterWrite, MemorySystem.directWrite, ha, he]
  | true =>
    cases hl : s.mem.lineOf (tagOf s.mar.toNat) with
    | some i =>
      have still : none = (s.memAfterWrite s.mar.toNat s.mbr).pending := ((directWrite_valid h s.mbr ha).2.1.trans hp).symm
      rw [missTicks_held hl, memorySteps_one, store_completes h he hq ha (blockArrives_of_hit hp hl), still]
    | none =>
      rw [memorySteps_of_miss he hp (by simp [State.isBusy, hq]) ha hl load,
        store_completes (loading_memoryOk h he 1) he hq ha (loading_blockArrives he)]
      exact congrArg (fun m => Res.ok () { s with mem := m, mcuState := .none })
        (loading_memAfterWrite h he hp 1 _ s.mbr ha)

end Requests

/-- Settles O22: the completed request leaves what the direct access of its address leaves (O18, O19). -/
theorem memoryRequestsComplete : Obligations.MemoryRequestsComplete := by
  intro s h hp legal ha
  obtain ⟨load, -⟩ := legal
  refine ⟨fun hq => ?_, fun hq => ?_⟩
  · have kept := memAfterRead_kept h ha
    exact ⟨_, memorySteps_fetch h hp load hq ha, rfl, ⟨kept.ok.coherent, kept.ok.unused_when_disabled⟩,
      kept.pending.trans hp, kept.same, fun he => accessed_of_memAfterRead h he rfl⟩
  · obtain ⟨ok, pending, -⟩ := directWrite_valid h s.mbr ha
    exact ⟨_, memorySteps_store h hp load hq ha, rfl, ⟨ok.coherent, ok.unused_when_disabled⟩, pending.trans hp,
      memAfterWrite_sameMemoryBut h ha rfl, fun he => accessed_of_memAfterWrite h he rfl⟩

end Sys2Proof.Machine
end

section
/-! Fetch and decode from an instruction boundary (spec/41_cycle_and_ea.md R180 to R183, spec/60_exceptions.md R271), and the
Word a program is loaded with at the PC. -/

namespace Sys2Proof.Machine

/-! ### Runs of ticks -/

/-- A run of ticks that ends is so many ticks, each but the last leading to a state that asked for more. -/
theorem ticks_of_runWhile {more : State → Bool} (n : Nat) {s t : State} (h : runWhile more tick n s = .next t) :
    ∃ k, ticks (k + 1) s = .next t ∧ ∀ j, j < k → ∃ v, ticks (j + 1) s = .next v ∧ more v = true := by
  induction n generalizing s with
  | zero => cases h
  | succ n ih =>
    cases ho : tick s with
    | next u =>
      have first (j : Nat) : ticks (j + 1) s = ticks j u := by rw [ticks, ho]
      by_cases hm : more u = true
      · obtain ⟨k, last, before⟩ := ih (runWhile_more n ho hm ▸ h)
        refine ⟨k + 1, (first _).trans last, fun j hj => ?_⟩
        cases j with
        | zero => exact ⟨u, first 0, hm⟩
        | succ j =>
          obtain ⟨v, hv, more_v⟩ := before j (by omega)
          exact ⟨v, (first _).trans hv, more_v⟩
      · rw [runWhile_last n ho (by simpa using hm)] at h
        exact ⟨0, (first 0).trans h, fun j hj => absurd hj (Nat.not_lt_zero j)⟩
    | fault r =>
      rw [runWhile_fault n ho] at h
      cases h
    | refused r =>
      rw [runWhile_refused n ho] at h
      cases h

theorem tick_running {s : State} (h : s.outcome = .running) : tick s = tickOf controlStep s := by
  rw [tick, h]

section Fetch
variable {s : State}

theorem State.Inv.at_fetch (h : s.Inv) : s.phase = .fetch ∧ s.micro = 0 := by
  simpa [State.atBoundary] using h.boundary

theorem State.Inv.idle (h : s.Inv) : s.isBusy = false := by
  simp [h.mcu_idle]

/-- The state F0 leaves: the PC in MAR and a fetch signalled (R181). -/
def State.fetching (s : State) : State := { s with mar := s.pc, mcuState := .preFetch, micro := 1 }

theorem controlStep_boundary (h : s.Inv) : controlStep s = .ok () s.fetching := by
  obtain ⟨phase, micro⟩ := h.at_fetch
  simp only [controlStep, phase, micro, if_true, fetchIssueStep]
  rw [holdIfBusy_idle h.idle]
  rfl

theorem tick_boundary (h : s.Inv) : tick s = (memoryStep s.fetching).settle :=
  (tick_running h.running).trans (tickOf_memory (controlStep_boundary h) h.alu_idle)

/-- F1 holds while the fetch is outstanding (R182, R192). -/
theorem fetching_holding (h : s.Inv) : Holding State.stillFetching tick s.fetching where
  tick m := by
    have holds : controlStep { s.fetching with mem := m } = .ok () { s.fetching with mem := m } := by
      obtain ⟨phase, -⟩ := h.at_fetch
      have fetch : s.fetching.phase = .fetch := phase
      have next : s.fetching.micro ≠ 0 := Nat.one_ne_zero
      simp only [controlStep, fetch, next, if_false, fetchLatchStep]
      exact holdIfBusy_busy rfl _
    have running : State.outcome { s.fetching with mem := m } = .running := h.running
    rw [tick_running running, tickOf_memory holds h.alu_idle]
  more m b q := by
    obtain ⟨phase, -⟩ := h.at_fetch
    simp [State.stillFetching, State.atBoundary, State.fetching, phase]

/-- The state once the Word w at the PC is in MBR, the memory system being m. -/
def State.fetchedTo (s : State) (m : MemorySystem) (w : Word) : State :=
  { s with mar := s.pc, mbr := w, mcuState := .none, mem := m, micro := 1 }

/-- The state F1 leaves. -/
def State.latchedTo (s : State) (m : MemorySystem) (w : Word) : State :=
  { s with mar := s.pc, mbr := w, mcuState := .none, mem := m, ir := w, phase := .decode, micro := 0 }

/-- The state fetch and decode leave. -/
def State.decodedTo (s : State) (m : MemorySystem) (w : Word) : State :=
  { s with
    mar := s.pc
    mbr := w
    mcuState := .none
    mem := m
    ir := w
    dec := decodeFields w
    phase := .execute
    micro := 0 }

/-- F1 and D0, once the Word has come (R182, R183). -/
theorem runWhile_latch_decode (h : s.Inv) {m : MemorySystem} (hm : m.pending = none) (w : Word) (n : Nat) :
    runWhile State.stillFetching tick (n + 2) (s.fetchedTo m w) = .next (s.decodedTo m w) := by
  have latch : tick (s.fetchedTo m w) = .next (s.latchedTo m w) := by
    have running : (s.fetchedTo m w).outcome = .running := h.running
    obtain ⟨phase, -⟩ := h.at_fetch
    have fetch : (s.fetchedTo m w).phase = .fetch := phase
    have next : (s.fetchedTo m w).micro ≠ 0 := Nat.one_ne_zero
    have control : controlStep (s.fetchedTo m w) = .ok () (s.latchedTo m w) := by
      simp only [controlStep, fetch, next, if_false, fetchLatchStep]
      exact holdIfBusy_idle rfl _
    rw [tick_running running, tickOf_idle control h.alu_idle rfl hm]
  have decode : tick (s.latchedTo m w) = .next (s.decodedTo m w) := by
    have running : (s.latchedTo m w).outcome = .running := h.running
    have control : controlStep (s.latchedTo m w) = .ok () (s.decodedTo m w) := rfl
    rw [tick_running running, tickOf_idle control h.alu_idle rfl hm]
  rw [runWhile_more (n + 1) latch rfl, runWhile_last n decode rfl]

theorem decodedTo_fetched (h : s.Inv) {m : MemorySystem} (kept : MemoryKept s m) (w : Word) :
    s.Fetched (s.decodedTo m w) w where
  ready := ⟨kept.ok.of_mem rfl rfl, rfl, kept.pending.trans h.no_load, h.alu_idle⟩
  execute := ⟨rfl, rfl⟩
  mar := rfl
  mbr := rfl
  ir := rfl
  dec := rfl
  memory := kept.same
  gpr := rfl
  ix := rfl
  pc := rfl
  msr := rfl
  mfr := rfl
  cc := rfl
  alu := rfl
  ea := rfl
  imm := rfl
  cfg := rfl
  outcome := rfl

/-- From an instruction boundary the Word at a backed PC is fetched and decoded, with no boundary on the way (R180 to
R183). -/
theorem fetchAndDecode_of_inv (h : s.Inv) (ha : validAddress s.pc.toNat) :
    ∃ u, s.Fetched u (s.memval s.pc.toNat) ∧ u.mcuState = .none ∧ fetchAndDecode s = .next u ∧
      ∃ k, s.ReachesIn k u := by
  obtain ⟨phase, -⟩ := h.at_fetch
  have ok : s.fetching.MemoryOk := h.memory.of_mem rfl rfl
  obtain ⟨k, m, bound, -, kept, run⟩ := fetch_served (r := s) (s := s.fetching) (tick_boundary h) (fetching_holding h)
    ok h.no_load rfl ha
  have kept : MemoryKept s m := ⟨kept.ok.of_mem rfl rfl, kept.pending, kept.same⟩
  obtain ⟨n, budget⟩ : ∃ n, s.tickBudget = k + 1 + (n + 2) := by
    have load : s.fetching.cfg.blockLoadTicks = s.cfg.blockLoadTicks := rfl
    rw [load] at bound
    exact ⟨s.tickBudget - (k + 3), by unfold State.tickBudget; omega⟩
  have decoded : runWhile State.stillFetching tick s.tickBudget s = .next (s.decodedTo m (s.memval s.pc.toNat)) := by
    rw [budget, run]
    exact runWhile_latch_decode h (kept.pending.trans h.no_load) _ n
  refine ⟨_, decodedTo_fetched h kept _, rfl, by simp [fetchAndDecode, phase, decoded], ?_⟩
  obtain ⟨j, last, before⟩ := ticks_of_runWhile _ decoded
  refine ⟨j + 1, last, fun i pos lt => ?_⟩
  obtain ⟨i, rfl⟩ := Nat.exists_eq_succ_of_ne_zero pos.ne'
  obtain ⟨v, hv, more⟩ := before i (by omega)
  simp only [State.stillFetching, Bool.and_eq_true, Bool.not_eq_true'] at more
  obtain ⟨-, inside⟩ := more
  exact ⟨v, hv, inside⟩

/-- With the PC at an address no memory backs, the first tick faults and the step ends there (R62, R271, R276). -/
theorem step_of_unbacked_pc (h : s.Inv) (ha : ¬validAddress s.pc.toNat) :
    step s = .next (takeFault (.illegalMemoryAddress s.pc.toNat) s.fetching) := by
  obtain ⟨phase, -⟩ := h.at_fetch
  have request : memoryStep s.fetching = .raise (.illegalMemoryAddress s.pc.toNat) s.fetching :=
    (memoryStep_preFetch (s := s.fetching) h.no_load rfl).trans (if_neg ha)
  have vectored : tick s = .next (takeFault (.illegalMemoryAddress s.pc.toNat) s.fetching) := by
    rw [tick_boundary h, request, Res.settle_raise]
  obtain ⟨n, budget⟩ : ∃ n, s.tickBudget = n + 1 := ⟨s.tickBudget - 1, by unfold State.tickBudget; omega⟩
  have run : fetchAndDecode s = .next (takeFault (.illegalMemoryAddress s.pc.toNat) s.fetching) := by
    rw [fetchAndDecode, if_neg (by simp [phase]), budget]
    exact runWhile_last n vectored (by simp [State.stillFetching, State.atBoundary])
  simp [step, h.running, run]

/-- A step from a boundary whose PC is backed is the execute phase of the state fetch and decode leave (R184). -/
theorem step_of_backed_pc (h : s.Inv) (ha : validAddress s.pc.toNat) :
    ∃ u, s.Fetched u (s.memval s.pc.toNat) ∧ u.mcuState = .none ∧ step s = executeDecoded u ∧
      ∃ k, s.ReachesIn k u := by
  obtain ⟨u, fetched, mcu, run, reached⟩ := fetchAndDecode_of_inv h ha
  refine ⟨u, fetched, mcu, ?_, reached⟩
  obtain ⟨execute, -⟩ := fetched.execute
  simp [step, h.running, run, execute]

theorem executeDecoded_of_decode {u : State} {w : Word} {i : Instr} (fetched : s.Fetched u w)
    (hi : decode s.cfg.opcodes w = .ok i) : executeDecoded u = exec i u := by
  obtain ⟨-, start⟩ := fetched.execute
  have instr : instrOf u.cfg.opcodes u.dec = .ok i := by rw [fetched.cfg, fetched.dec]; exact hi
  simp [executeDecoded, instr, start]

theorem executeDecoded_of_noMnemonic {u : State} {w : Word} {op : BitVec 6} (fetched : s.Fetched u w)
    (hop : decode s.cfg.opcodes w = .error (.noMnemonic op)) : executeDecoded u = execNoHandler op u := by
  have instr : instrOf u.cfg.opcodes u.dec = .error (.noMnemonic op) := by rw [fetched.cfg, fetched.dec]; exact hop
  simp [executeDecoded, instr]

end Fetch

/-! ### A Word placed from outside -/

section Place
variable {m : MemorySystem} {a : Nat}

theorem place_line (m : MemorySystem) (a : Nat) (w : Word) (j : Fin 8) :
    (m.place a w).line j =
      if m.lineOf (tagOf a) = some j then { m.line j with data := (m.line j).data.set (offsetOf a).val w }
      else m.line j := by
  unfold MemorySystem.place
  cases e : m.lineOf (tagOf a) with
  | none => simp; rfl
  | some i =>
    simp only [setLine_line, Option.some.injEq]
    by_cases h : j = i
    · subst h; simp; exact ⟨rfl, rfl, rfl, rfl, rfl⟩
    · have h' : ¬i = j := fun e => h e.symm
      simp [h, h']; rfl

@[simp] theorem place_backing (m : MemorySystem) (a : Nat) (w : Word) : (m.place a w).backing = m.backing.write a w := by
  unfold MemorySystem.place
  cases m.lineOf (tagOf a) <;> rfl

@[simp] theorem place_lruClock (m : MemorySystem) (a : Nat) (w : Word) : (m.place a w).lruClock = m.lruClock := by
  unfold MemorySystem.place
  cases m.lineOf (tagOf a) <;> rfl

@[simp] theorem place_pending (m : MemorySystem) (a : Nat) (w : Word) : (m.place a w).pending = m.pending := by
  unfold MemorySystem.place
  cases m.lineOf (tagOf a) <;> rfl

/-- Placing changes a line's data at most. -/
theorem place_line_frame (m : MemorySystem) (a : Nat) (w : Word) (j : Fin 8) :
    (m.place a w).line j = { m.line j with data := ((m.place a w).line j).data } := by
  rw [place_line]
  split <;> rfl

theorem place_data (m : MemorySystem) (a : Nat) (w : Word) (j : Fin 8) (o : Fin 32) :
    ((m.place a w).line j).data[o.val] =
      if m.lineOf (tagOf a) = some j ∧ o = offsetOf a then w else (m.line j).data[o.val] := by
  rw [place_line]
  by_cases held : m.lineOf (tagOf a) = some j
  · have same : (offsetOf a).val = o.val ↔ o = offsetOf a := by rw [eq_comm, Fin.ext_iff]
    simp [held, Vector.getElem_set, same]
  · simp [held]

theorem place_lineOf (m : MemorySystem) (a : Nat) (w : Word) (tg : Tag) : (m.place a w).lineOf tg = m.lineOf tg :=
  lineOf_congr tg fun j => by rw [place_line_frame]; exact ⟨rfl, rfl⟩

/-- The line that holds a's block and the backing store both get the Word, so a clean line still agrees. -/
theorem MemorySystem.Coherent.place (h : m.Coherent) (ha : validAddress a) (w : Word) : (m.place a w).Coherent where
  backing_wf := by rw [place_backing]; exact Memory.write_wf _ _ _ h.backing_wf ha
  one_line j k := by rw [place_line_frame, place_line_frame m a w k]; exact h.one_line j k
  clean_agrees j := by
    intro valid clean o
    have tag : ((m.place a w).line j).tag = (m.line j).tag := by rw [place_line_frame]
    rw [place_line_frame] at valid clean
    rw [place_data, place_backing, tag, Memory.read_write, h.clean_agrees j valid clean o]
    refine if_congr ⟨fun ⟨held, offset⟩ => ?_, fun here => ?_⟩ rfl rfl
    · rw [(lineOf_some m held).2, offset, blockAddress_tagOf a ha]
    · rw [← here, tagOf_blockAddress, offsetOf_blockAddress]
      exact ⟨h.lineOf_eq valid rfl, rfl⟩
  stamped j := by rw [place_line_frame, place_lruClock]; exact h.stamped j
  stamps_differ j k := by rw [place_line_frame, place_line_frame m a w k]; exact h.stamps_differ j k

theorem place_memval (ha : validAddress a) (w : Word) {b : Nat} (hb : validAddress b) :
    (m.place a w).memval b = if b = a then w else m.memval b := by
  cases e : m.lineOf (tagOf b) with
  | none =>
    rw [memval_of_none e, memval_of_none ((place_lineOf m a w _).trans e), place_backing, Memory.read_write]
  | some j =>
    rw [memval_of_line e, memval_of_line ((place_lineOf m a w _).trans e), place_data]
    refine if_congr ⟨fun ⟨held, offset⟩ => ?_, fun here => ?_⟩ rfl rfl
    · exact eq_of_tag_offset hb ha ((lineOf_some m e).2.symm.trans (lineOf_some m held).2) offset
    · rw [← here]
      exact ⟨e, rfl⟩

end Place

section Load
variable {s : State}

/-- At a boundary whose PC is backed, loading a Word changes the memory system alone (log 4). -/
theorem withFetchWord_eq (h : s.Inv) (ha : validAddress s.pc.toNat) (n w : Nat) :
    s.withFetchWord n w = { s with mem := s.mem.place s.pc.toNat (tableWord n w) } := by
  obtain ⟨phase, micro⟩ := h.at_fetch
  rw [State.withFetchWord, placeProgramWord, if_pos ha, ← phase, ← micro, ← h.mcu_idle]

theorem place_inv (h : s.Inv) {a : Nat} (ha : validAddress a) (w : Word) :
    State.Inv { s with mem := s.mem.place a w } :=
  { h with
    memory :=
      ⟨h.memory.coherent.place ha w, fun e =>
        ⟨(place_pending _ _ _).trans h.no_load, fun j => by
          rw [place_line_frame]; exact h.memory.no_lines e j⟩⟩
    no_load := (place_pending _ _ _).trans h.no_load }

end Load

/-- Settles O56: placing keeps the invariant, and from a state of the invariant the Word at a backed PC is fetched. -/
theorem placedWordIsFetchedNext : Obligations.PlacedWordIsFetchedNext := by
  intro s n w h ha
  rw [withFetchWord_eq h ha]
  have inv := place_inv h ha (tableWord n w)
  have value : State.memval { s with mem := s.mem.place s.pc.toNat (tableWord n w) } s.pc.toNat = tableWord n w :=
    (place_memval ha _ ha).trans (if_pos rfl)
  refine ⟨inv, value, fun a hva hne => (place_memval ha _ hva).trans (if_neg hne), rfl, ?_⟩
  obtain ⟨u, fetched, -, run, k, reached⟩ := step_of_backed_pc inv ha
  rw [value] at fetched
  exact ⟨k, u, reached, fetched, fun i hi => run.trans (executeDecoded_of_decode fetched hi)⟩

end Sys2Proof.Machine
end

section
/-! What one tick of an instruction's handler can do (spec/41_cycle_and_ea.md R184 to R192, spec/20_memory.md R73 to R86),
said once for every handler, and what follows of it for memory and for the next instruction boundary. -/

namespace Sys2Proof.Machine

/-! ### The state between two ticks of a handler -/

/-- The load of a block is under way for the request that waits for it (R86, R99). -/
structure State.AwaitsBlock (s : State) (tg : Tag) : Prop where
  busy : s.isBusy = true
  enabled : s.cfg.cacheEnabled = true
  backed : validAddress s.mar.toNat
  tag : tg = tagOf s.mar.toNat
  missing : s.mem.lineOf tg = none

/-- A pending load is one that the outstanding request waits for. -/
def State.LoadAwaited (s : State) : Prop := ∀ tg n, s.mem.pending = some (tg, n) → s.AwaitsBlock tg

/-- Between two ticks of i's handler: the memory is in order, no load is pending but for the outstanding request, which is
outstanding only where the handler waits for it, and no computation is left for the ALU. -/
structure State.Attended (i : Instr) (s : State) : Prop where
  memory : s.MemoryOk
  load : s.LoadAwaited
  waits : s.isBusy = true → usesMemory i = true ∧ s.micro = 2
  alu_idle : s.alu.state ≠ .startComputation

section Attended
variable {i : Instr} {s t : State}

theorem loadAwaited_of_no_load (h : s.mem.pending = none) : s.LoadAwaited := fun _ _ e => by
  rw [h] at e
  cases e

theorem State.LoadAwaited.no_load (h : s.LoadAwaited) (hb : s.isBusy = false) : s.mem.pending = none :=
  Option.eq_none_iff_forall_ne_some.2 fun p e => by
    have := (h p.1 p.2 e).busy
    simp [hb] at this

theorem State.Attended.idle_of_micro (h : s.Attended i) (hm : s.micro ≠ 2) : s.isBusy = false :=
  Bool.eq_false_iff.2 fun busy => hm (h.waits busy).2

theorem State.Attended.idle_of_usesMemory (h : s.Attended i) (hi : usesMemory i = false) : s.isBusy = false :=
  Bool.eq_false_iff.2 fun busy => by
    have := (h.waits busy).1
    simp [hi] at this

/-- A state with no request outstanding and no load pending. -/
theorem attended_of_idle (memory : s.MemoryOk) (hb : s.isBusy = false) (hp : s.mem.pending = none)
    (alu : s.alu.state ≠ .startComputation) : s.Attended i :=
  ⟨memory, loadAwaited_of_no_load hp, fun busy => by simp [hb] at busy, alu⟩

theorem State.Ready.attended (h : s.Ready) : (enterExecute s).Attended i :=
  attended_of_idle (h.memory.of_mem rfl rfl) h.idle h.no_load h.alu_idle

end Attended

/-! ### What the ControlUnit can do -/

/-- From s to t at most a request of i is issued, and t has one outstanding. -/
structure State.Asks (i : Instr) (s t : State) : Prop where
  frame : t = { s with mar := t.mar, mbr := t.mbr, mcuState := t.mcuState, micro := t.micro }
  busy : t.isBusy = true
  load : t.LoadAwaited
  waits : usesMemory i = true ∧ t.micro = 2
  stores : t.mcuState = .preStore → s.mcuState = .preStore ∨ isStore i = true

/-- The largest effective address: an index register and a Word (R186). -/
def State.maxEa : Nat := 8191 + 1048575

/-- What a ControlUnit micro-step of i's handler can do from s. -/
inductive State.ControlMove (i : Instr) (s : State) : Res Unit → Prop
  | stopped (r : FatalReason) : ControlMove i s (.stop r)
  | faulted (f : MachineFault) {m : MemorySystem} (kept : MemoryKept s m) : ControlMove i s (.raise f { s with mem := m })
  | asks {t : State} (h : s.Asks i t) : ControlMove i s (.ok () t)
  | advances {m : MemorySystem} {ea : Nat} {imm : Word} (idle : s.isBusy = false) (kept : MemoryKept s m)
      (bound : ea = s.ea ∨ ea ≤ State.maxEa) : ControlMove i s (.ok () (advance { s with mem := m, ea := ea, imm := imm }))
  | startsAdder {c : AluControl} {a b : Word} (idle : s.isBusy = false) (adder : c = .add ∨ c = .subtract) :
      ControlMove i s (.ok () (advance (startAlu c a b s)))
  | completes {gpr : Vector Word 4} {ix : Vector Addr 3} {cc : CondCodes} (idle : s.isBusy = false) :
      ControlMove i s (.ok () (complete { s with gpr := gpr, ix := ix, cc := cc }))

section ControlMove
variable {i : Instr} {f : Fields} {s : State}

theorem holdIfBusy_move (h : s.Attended i) {k : State → Res Unit} (hk : s.isBusy = false → s.ControlMove i (k s)) :
    s.ControlMove i (holdIfBusy s k) := by
  cases hb : s.isBusy with
  | true =>
    rw [holdIfBusy_busy hb]
    exact .asks ⟨rfl, hb, h.load, h.waits hb, .inl⟩
  | false =>
    rw [holdIfBusy_idle hb]
    exact hk hb

theorem effectiveAddress_le {ea : Nat} (h : s.effectiveAddress f = some ea) : ea ≤ State.maxEa := by
  have word (w : Word) : w.toNat ≤ 1048575 := by have := w.isLt; omega
  have index (a : Addr) : a.toNat ≤ 8191 := by have := a.isLt; omega
  have field : f.addr.toNat ≤ 255 := by have := f.addr.isLt; omega
  unfold State.effectiveAddress at h
  unfold State.maxEa
  split at h
  · cases h
    omega
  next j _ _ =>
    cases h
    exact Nat.add_le_add (index _) (word _)
  · split at h
    · cases h
      exact (word _).trans (by omega)
    · cases h
  · split at h
    · cases h
      exact (word _).trans (by omega)
    · cases h

theorem eaStep_move (h : s.Attended i) (idle : s.isBusy = false) : s.ControlMove i (eaStep f s) := by
  unfold eaStep
  obtain ⟨m, kept, ⟨ea, value, ok⟩ | ⟨a, -, -, raised⟩⟩ := computeEA_cases h.memory f
  · rw [ok]
    exact .advances idle kept (.inr (effectiveAddress_le value))
  · rw [raised]
    exact .faulted _ kept

/-- MAR and MBR set and the request signalled (R72, R188). -/
theorem asks_of_request (h : s.Attended i) (idle : s.isBusy = false) (first : s.micro = 1) (user : usesMemory i = true)
    (a : Addr) (w : Word) {q : McuState} (request : q = .preFetch ∨ q = .preStore ∧ isStore i = true) :
    s.Asks i (advance { s with mar := a, mbr := w, mcuState := q }) where
  frame := rfl
  busy := by rcases request with rfl | ⟨rfl, -⟩ <;> rfl
  load := loadAwaited_of_no_load (h.load.no_load idle)
  waits := ⟨user, congrArg (· + 1) first⟩
  stores e := by
    rcases request with rfl | ⟨-, store⟩
    · cases e
    · exact .inr store

theorem fetchOperandStep_move (h : s.Attended i) (first : s.micro = 1) (user : usesMemory i = true) :
    s.ControlMove i (fetchOperandStep s) :=
  holdIfBusy_move h fun idle => by
    unfold loadMar
    split
    · exact .asks (asks_of_request h idle first user (BitVec.ofNat 13 s.ea) s.mbr (.inl rfl))
    · exact .faulted _ (.refl h.memory)

theorem storeOperandStep_move (h : s.Attended i) (first : s.micro = 1) (user : usesMemory i = true)
    (store : isStore i = true) (w : Word) : s.ControlMove i (storeOperandStep w s) :=
  holdIfBusy_move h fun idle => by
    unfold loadMar
    split
    · exact .asks (asks_of_request h idle first user (BitVec.ofNat 13 s.ea) w (.inr ⟨rfl, store⟩))
    · exact .faulted _ (.refl h.memory)

theorem waitStep_move (h : s.Attended i) : s.ControlMove i (waitStep s) :=
  holdIfBusy_move h fun idle => .advances idle (.refl h.memory) (.inl rfl)

theorem immediateStep_move (h : s.Attended i) (idle : s.isBusy = false) : s.ControlMove i (immediateStep f s) :=
  .advances idle (.refl h.memory) (.inl rfl)

theorem unlessFailFast_move {k : State → Res Unit} (hk : s.ControlMove i (k s)) :
    s.ControlMove i (unlessFailFast s k) := by
  unfold unlessFailFast
  split
  · exact hk
  · exact .stopped _

theorem loadGprStep_move (h : s.Attended i) (r : BitVec 2) : s.ControlMove i (loadGprStep r s) :=
  holdIfBusy_move h fun idle => .completes idle

theorem loadIndexStep_move (h : s.Attended i) (field : BitVec 2) : s.ControlMove i (loadIndexStep field s) :=
  holdIfBusy_move h fun idle => by
    split
    · exact .stopped _
    · split
      · exact .completes idle
      · exact .stopped _

theorem writeResultStep_move (idle : s.isBusy = false) (r : BitVec 2) : s.ControlMove i (writeResultStep r s) := by
  unfold writeResultStep
  split
  · exact .completes idle
  · exact .stopped _

theorem aluOnMemoryStep_move {c : AluControl} (adder : c = .add ∨ c = .subtract) (h : s.Attended i) (r : BitVec 2) :
    s.ControlMove i (aluOnMemoryStep c r s) :=
  holdIfBusy_move h fun idle => .startsAdder (a := s.getGpr r) (b := s.mbr) idle adder

theorem aluOnImmediateStep_move {c : AluControl} (adder : c = .add ∨ c = .subtract) (idle : s.isBusy = false)
    (r : BitVec 2) : s.ControlMove i (aluOnImmediateStep c r s) :=
  .startsAdder (a := s.getGpr r) (b := s.imm) idle adder

/-! ### Handlers -/

theorem loadStep_move (h : s.Attended i) (user : usesMemory i = true) {last : State → Res Unit}
    (hlast : s.ControlMove i (last s)) : s.ControlMove i (loadStep f last s.micro s) := by
  match hk : s.micro with
  | 0 => exact eaStep_move h (h.idle_of_micro (by omega))
  | 1 => exact fetchOperandStep_move h hk user
  | 2 => exact waitStep_move h
  | 3 => exact hlast
  | _ + 4 => exact .completes (h.idle_of_micro (by omega))

theorem memoryArithStep_move {c : AluControl} (adder : c = .add ∨ c = .subtract) (h : s.Attended i)
    (user : usesMemory i = true) : s.ControlMove i (memoryArithStep c f s.micro s) := by
  match hk : s.micro with
  | 0 => exact unlessFailFast_move (eaStep_move h (h.idle_of_micro (by omega)))
  | 1 => exact fetchOperandStep_move h hk user
  | 2 => exact aluOnMemoryStep_move adder h f.r
  | 3 => exact writeResultStep_move (h.idle_of_micro (by omega)) f.r
  | _ + 4 => exact .completes (h.idle_of_micro (by omega))

theorem immediateArithStep_move {c : AluControl} (adder : c = .add ∨ c = .subtract) (h : s.Attended i)
    (noUser : usesMemory i = false) : s.ControlMove i (immediateArithStep c f s.micro s) := by
  have idle := h.idle_of_usesMemory noUser
  match s.micro with
  | 0 => exact unlessFailFast_move (immediateStep_move h idle)
  | 1 => exact aluOnImmediateStep_move adder idle f.r
  | 2 => exact writeResultStep_move idle f.r
  | _ + 3 => exact .completes idle

theorem strStep_move (h : s.Attended (.str f)) : s.ControlMove (.str f) (strStep f s.micro s) := by
  match hk : s.micro with
  | 0 => exact eaStep_move h (h.idle_of_micro (by omega))
  | 1 => exact storeOperandStep_move h hk rfl rfl (s.getGpr f.r)
  | 2 => exact waitStep_move h
  | 3 | _ + 4 => exact .completes (h.idle_of_micro (by omega))

theorem stxStep_move (h : s.Attended (.stx f)) : s.ControlMove (.stx f) (stxStep f s.micro s) := by
  match hk : s.micro with
  | 0 => exact eaStep_move h (h.idle_of_micro (by omega))
  | 1 =>
    cases hj : indexOf f.x with
    | none =>
      simp only [stxStep, hj]
      exact holdIfBusy_move h fun _ => .stopped _
    | some j =>
      simp only [stxStep, hj]
      exact storeOperandStep_move h hk rfl rfl _
  | 2 => exact waitStep_move h
  | 3 | _ + 4 => exact .completes (h.idle_of_micro (by omega))

theorem noHandlerStep_move (h : s.Attended i) (op : BitVec 6) (k : Nat) : s.ControlMove i (noHandlerStep op k s) :=
  .faulted _ (.refl h.memory)

theorem handlerOf_move (h : s.Attended i) : s.ControlMove i (handlerOf i s.micro s) := by
  cases i with
  | ldr f =>
    rw [handlerOf, ldrStep_eq]
    exact loadStep_move h rfl (loadGprStep_move h f.r)
  | str f => exact strStep_move h
  | lda f =>
    rw [handlerOf, ldaStep_eq]
    exact loadStep_move h rfl (loadIndexStep_move h f.r)
  | ldx f =>
    rw [handlerOf, ldxStep_eq]
    exact loadStep_move h rfl (loadIndexStep_move h f.x)
  | stx f => exact stxStep_move h
  | amr f =>
    rw [handlerOf, amrStep_eq]
    exact memoryArithStep_move (.inl rfl) h rfl
  | smr f =>
    rw [handlerOf, smrStep_eq]
    exact memoryArithStep_move (.inr rfl) h rfl
  | air f =>
    rw [handlerOf, airStep_eq]
    exact immediateArithStep_move (.inl rfl) h rfl
  | sir f =>
    rw [handlerOf, sirStep_eq]
    exact immediateArithStep_move (.inr rfl) h rfl
  | jne f | jcc f | sob f | jge f => exact noHandlerStep_move h _ s.micro

end ControlMove

/-! ### What the memory step can do -/

/-- What a memory step can do from s with a request outstanding. -/
inductive State.MemoryMove (s : State) : Res Unit → Prop
  | faulted (invalid : ¬validAddress s.mar.toNat) : MemoryMove s (.raise (.illegalMemoryAddress s.mar.toNat) s)
  | waits (n : Nat) (enabled : s.cfg.cacheEnabled = true) (backed : validAddress s.mar.toNat)
      (missing : s.mem.lineOf (tagOf s.mar.toNat) = none) : MemoryMove s (.ok () (s.loading n))
  | fetches {m : MemorySystem} (memory : State.MemoryOk { s with mem := m }) (no_load : m.pending = none)
      (same : ∀ a, validAddress a → m.memval a = s.memval a) :
      MemoryMove s (.ok () { s with mem := m, mbr := s.memval s.mar.toNat, mcuState := .none })
  | stores {m : MemorySystem} (request : s.mcuState = .preStore) (memory : State.MemoryOk { s with mem := m })
      (no_load : m.pending = none) : MemoryMove s (.ok () { s with mem := m, mcuState := .none })

section MemoryMove
variable {s : State}

theorem memoryStep_invalid (hb : s.isBusy = true) (hp : s.mem.pending = none) (ha : ¬validAddress s.mar.toNat) :
    memoryStep s = .raise (.illegalMemoryAddress s.mar.toNat) s := by
  rcases isBusy_cases hb with hq | hq
  · exact (memoryStep_preFetch hp hq).trans (if_neg ha)
  · exact (memoryStep_preStore hp hq).trans (if_neg ha)

/-- The step that issues a request, no load being pending (R73, R74). -/
theorem memoryStep_issued_move (h : s.MemoryOk) (hb : s.isBusy = true) (hp : s.mem.pending = none) :
    s.MemoryMove (memoryStep s) := by
  by_cases ha : validAddress s.mar.toNat
  · rcases isBusy_cases hb with hq | hq
    · rcases fetch_issued h hp hq ha with ⟨m, kept, served⟩ | ⟨enabled, missing, missed⟩
      · rw [served]
        exact .fetches kept.ok (kept.pending.trans hp) kept.same
      · rw [missed]
        exact .waits _ enabled ha missing
    · rcases store_issued h hp hq ha with ⟨m, memory, no_load, -, served⟩ | ⟨enabled, missing, missed⟩
      · rw [served]
        exact .stores hq memory no_load
      · rw [missed]
        exact .waits _ enabled ha missing
  · rw [memoryStep_invalid hb hp ha]
    exact .faulted ha

/-- The step of a request that waits for its block (R86, R99). -/
theorem memoryStep_awaiting_move (h : s.MemoryOk) {tg : Tag} {n : Nat} (hp : s.mem.pending = some (tg, n))
    (awaits : s.AwaitsBlock tg) : s.MemoryMove (memoryStep s) := by
  obtain ⟨busy, enabled, backed, rfl, missing⟩ := awaits
  by_cases hn : 1 < n
  · rw [request_waits enabled hp hn busy backed missing]
    exact .waits _ enabled backed missing
  · rcases isBusy_cases busy with hq | hq
    · obtain ⟨m, kept, served⟩ := fetch_arrives h enabled hp (Nat.not_lt.1 hn) hq backed
      rw [served]
      exact .fetches (kept.ok.of_mem rfl rfl) kept.pending kept.same
    · obtain ⟨m, memory, no_load, -, served⟩ := store_arrives h enabled hp (Nat.not_lt.1 hn) hq backed
      rw [served]
      exact .stores hq memory no_load

theorem memoryStep_move (h : s.MemoryOk) (hb : s.isBusy = true) (load : s.LoadAwaited) : s.MemoryMove (memoryStep s) := by
  cases hp : s.mem.pending with
  | none => exact memoryStep_issued_move h hb hp
  | some p => exact memoryStep_awaiting_move h hp (load p.1 p.2 hp)

end MemoryMove

/-! ### What a tick can do -/

/-- What the three component steps of a tick of i's handler can do from s. -/
inductive State.TickMove (i : Instr) (s : State) : Res Unit → Prop
  | stopped (r : FatalReason) : TickMove i s (.stop r)
  | faulted (f : MachineFault) {m : MemorySystem} (kept : MemoryKept s m) : TickMove i s (.raise f { s with mem := m })
  | serves {t : State} {r : Res Unit} (h : s.Asks i t) (move : t.MemoryMove r) : TickMove i s r
  | advances {m : MemorySystem} {ea : Nat} {imm : Word} (idle : s.isBusy = false) (kept : MemoryKept s m)
      (bound : ea = s.ea ∨ ea ≤ State.maxEa) : TickMove i s (.ok () (advance { s with mem := m, ea := ea, imm := imm }))
  | computes {c : AluControl} {w : Word} {g : FlagsRecord} (idle : s.isBusy = false) :
      TickMove i s (.ok ()
        (advance { s with alu := ⟨.computationFinished, none, none, c, some (BitVector.ofWord w), g⟩ }))
  | completes {gpr : Vector Word 4} {ix : Vector Addr 3} {cc : CondCodes} (idle : s.isBusy = false) :
      TickMove i s (.ok () (complete { s with gpr := gpr, ix := ix, cc := cc }))

section TickMove
variable {i : Instr} {s t : State} {c : State → Res Unit}

theorem tickBody_of_idle (h : c s = .ok () t) (alu : t.alu.state ≠ .startComputation) (hb : t.isBusy = false)
    (hp : t.mem.pending = none) : tickBody c s = .ok () t := by
  rw [tickBody, h, Res.bind_ok, aluStep_idle alu, Res.bind_ok, memoryStep_idle hb hp]

theorem startAlu_eq (a : AluControl) (x y : Word) (s : State) :
    startAlu a x y s =
      { s with
        alu :=
          ⟨.startComputation, some (BitVector.ofWord x), some (BitVector.ofWord y), a, s.alu.result, s.alu.flags⟩ } := by
  simp only [startAlu, signalReady, setControl, setOperand2, setOperand1]

/-- The adder gives a Word for two Words, in the tick that starts it (R148, R152, R154). -/
theorem aluStep_startAlu {a : AluControl} (adder : a = .add ∨ a = .subtract) (x y : Word) (s : State) :
    ∃ w g, aluStep (advance (startAlu a x y s)) = .ok ()
      (advance { s with alu := ⟨.computationFinished, none, none, a, some (BitVector.ofWord w), g⟩ }) := by
  rw [startAlu_eq]
  rcases adder with rfl | rfl
  · refine ⟨x + y, addFlags s.cfg.overflowRule x y, ?_⟩
    simp only [aluStep, advance, aluCompute_add, aluAdd_ofWord, Option.some_or]
  · refine ⟨x - y, subtractFlags s.cfg.overflowRule x y, ?_⟩
    simp only [aluStep, advance, aluCompute_subtract, aluSubtract_ofWord, Option.some_or]

theorem tickBody_move (h : s.Attended i) : s.TickMove i (tickBody (fun u => handlerOf i u.micro u) s) := by
  have move := handlerOf_move h
  generalize control : handlerOf i s.micro s = r at move
  cases move with
  | stopped r =>
    rw [tickBody, control]
    exact .stopped r
  | faulted f kept =>
    rw [tickBody, control]
    exact .faulted f kept
  | @asks t asked =>
    have alu : t.alu.state ≠ .startComputation := by rw [asked.frame]; exact h.alu_idle
    have memory : t.MemoryOk := by rw [asked.frame]; exact h.memory.of_mem rfl rfl
    rw [tickBody, control, Res.bind_ok, aluStep_idle alu, Res.bind_ok]
    exact .serves asked (memoryStep_move memory asked.busy asked.load)
  | advances idle kept bound =>
    rw [tickBody_of_idle (c := fun u => handlerOf i u.micro u) control h.alu_idle idle (kept.pending.trans (h.load.no_load idle))]
    exact .advances idle kept bound
  | @startsAdder a x y idle adder =>
    obtain ⟨w, g, computed⟩ := aluStep_startAlu adder x y s
    have memory := memoryStep_idle (s := advance { s with
      alu := ⟨.computationFinished, none, none, a, some (BitVector.ofWord w), g⟩ }) idle (h.load.no_load idle)
    rw [tickBody, control, Res.bind_ok, computed, Res.bind_ok, memory]
    exact .computes idle
  | completes idle =>
    rw [tickBody_of_idle (c := fun u => handlerOf i u.micro u) control h.alu_idle idle (h.load.no_load idle)]
    exact .completes idle

theorem State.Asks.attended (h : s.Attended i) (asked : s.Asks i t) : t.Attended i where
  memory := by rw [asked.frame]; exact h.memory.of_mem rfl rfl
  load := asked.load
  waits _ := asked.waits
  alu_idle := by rw [asked.frame]; exact h.alu_idle

theorem State.MemoryMove.attended (h : s.Attended i) (busy : s.isBusy = true) (move : s.MemoryMove (.ok () t)) :
    t.Attended i := by
  cases move with
  | waits n enabled backed missing =>
    refine ⟨loading_memoryOk h.memory enabled n, fun tg k e => ?_, h.waits, h.alu_idle⟩
    cases e
    exact ⟨busy, enabled, backed, rfl, missing⟩
  | fetches memory no_load _ => exact attended_of_idle (memory.of_mem rfl rfl) rfl no_load h.alu_idle
  | stores _ memory no_load => exact attended_of_idle (memory.of_mem rfl rfl) rfl no_load h.alu_idle

theorem State.TickMove.attended (h : s.Attended i) (move : s.TickMove i (.ok () t)) : t.Attended i := by
  cases move with
  | serves asked move => exact move.attended (asked.attended h) asked.busy
  | advances idle kept _ =>
    exact attended_of_idle (kept.ok.of_mem rfl rfl) idle (kept.pending.trans (h.load.no_load idle)) h.alu_idle
  | computes idle => exact attended_of_idle (h.memory.of_mem rfl rfl) idle (h.load.no_load idle) (by simp)
  | completes idle => exact attended_of_idle (h.memory.of_mem rfl rfl) idle (h.load.no_load idle) h.alu_idle

/-- The state a fault is raised in (R276, log 14). -/
theorem State.TickMove.raised {f : MachineFault} (h : s.Attended i) (move : s.TickMove i (.raise f t)) :
    ∃ m, MemoryKept s m ∧
      t = { s with mem := m, mar := t.mar, mbr := t.mbr, mcuState := t.mcuState, micro := t.micro } := by
  cases move with
  | faulted _ kept => exact ⟨_, kept, rfl⟩
  | serves asked move =>
    cases move with
    | faulted _ => exact ⟨s.mem, .refl h.memory, asked.frame⟩

theorem State.TickMove.pc (move : s.TickMove i (.ok () t)) : t.pc = s.pc ∨ t.atBoundary = true := by
  cases move with
  | serves asked move =>
    have kept := congrArg State.pc asked.frame
    cases move <;> exact .inl kept
  | advances _ _ _ => exact .inl rfl
  | computes _ => exact .inl rfl
  | completes _ => exact .inr rfl

end TickMove

/-! ### Only stores change memory -/

/-- A handler's run from s has come to u and has only read memory. -/
structure State.ReadTo (s u : State) : Prop where
  memory : s.SameMemory u
  cfg : u.cfg = s.cfg
  reads : u.mcuState ≠ .preStore

section ReadTo
variable {i : Instr} {s t u v : State}

theorem State.ReadTo.of_mem (h : s.ReadTo u) (memory : ∀ a, validAddress a → v.memval a = u.memval a)
    (cfg : v.cfg = u.cfg) (reads : v.mcuState ≠ .preStore) : s.ReadTo v :=
  ⟨fun a ha => (memory a ha).trans (h.memory a ha), cfg.trans h.cfg, reads⟩

theorem State.Asks.readTo (hi : isStore i = false) (h : s.ReadTo u) (asked : u.Asks i v) : s.ReadTo v := by
  refine h.of_mem (fun a _ => ?_) (by rw [asked.frame]) fun e => ?_
  · rw [asked.frame]
    rfl
  · rcases asked.stores e with e | e
    · exact h.reads e
    · simp [hi] at e

theorem State.MemoryMove.readTo (h : s.ReadTo u) (move : u.MemoryMove (.ok () v)) : s.ReadTo v := by
  cases move with
  | waits n _ _ _ => exact h.of_mem (fun _ _ => rfl) rfl h.reads
  | fetches _ _ same => exact h.of_mem same rfl (by simp)
  | stores request _ _ => exact absurd request h.reads

theorem State.TickMove.readTo (hi : isStore i = false) (h : s.ReadTo u) (move : u.TickMove i (.ok () v)) :
    s.ReadTo v := by
  cases move with
  | serves asked move => exact move.readTo (asked.readTo hi h)
  | advances _ kept _ => exact h.of_mem kept.same rfl h.reads
  | computes _ => exact h.of_mem (fun _ _ => rfl) rfl h.reads
  | completes _ => exact h.of_mem (fun _ _ => rfl) rfl h.reads

/-- How far the run of a handler that only reads has come: in the handler, at its end, or at 43 with a fault vectored from
such a state. -/
inductive State.ReadOutcome (i : Instr) (s t : State) : Prop
  | handler (attended : t.Attended i) (read : s.ReadTo t) (pc : t.pc = s.pc ∨ t.atBoundary = true)
  | vectored (f : MachineFault) (u : State) (memory : u.MemoryOk) (same : s.SameMemory u) (cfg : u.cfg = s.cfg)
      (pc : u.pc = s.pc) (ht : t = takeFault f u)

theorem handler_tick_readOutcome (hi : isStore i = false) (attended : u.Attended i) (read : s.ReadTo u) (pc : u.pc = s.pc)
    (h : tickOf (fun w => handlerOf i w.micro w) u = .next t) : s.ReadOutcome i t := by
  have move := tickBody_move attended
  rcases tickOf_next h with ok | ⟨f, v, raised, ht⟩
  · rw [ok] at move
    exact .handler (move.attended attended) (move.readTo hi read) (move.pc.imp (·.trans pc) id)
  · rw [raised] at move
    obtain ⟨m, kept, frame⟩ := move.raised attended
    refine .vectored f v ?_ (fun a ha => ?_) ?_ ?_ ht
    · rw [frame]; exact kept.ok.of_mem rfl rfl
    · rw [frame]; exact (kept.same a ha).trans (read.memory a ha)
    · rw [frame]; exact read.cfg
    · rw [frame]; exact pc

theorem exec_readOutcome (hs : s.Ready) (hi : isStore i = false) (h : exec i s = .next t) : s.ReadOutcome i t := by
  rw [exec_eq_runHandler] at h
  have start : s.ReadTo (enterExecute s) :=
    ⟨fun _ _ => rfl, rfl, fun e => by simpa [State.isBusy, show s.mcuState = .preStore from e] using hs.idle⟩
  refine runWhile_invariant (P := fun u => u.Attended i ∧ s.ReadTo u ∧ u.pc = s.pc) (fun u hu more => ?_)
    (fun u v ⟨attended, read, pc⟩ => handler_tick_readOutcome hi attended read pc) _ ⟨hs.attended, start, rfl⟩ h
  have inside : u.atBoundary = false := by simpa using more
  cases hu with
  | handler attended read pc => exact ⟨attended, read, pc.resolve_right (by simp [inside])⟩
  | vectored f w _ _ _ _ hw => simp [hw, State.atBoundary] at inside

end ReadTo

/-- Settles O53: a run that only reads keeps every Word, and vectoring a fault (R276) writes the one at FAULT_PC_SAVE. -/
theorem onlyStoresChangeMemory : Obligations.OnlyStoresChangeMemory := by
  intro i s t hs hi h a ha
  cases exec_readOutcome hs hi h with
  | handler _ read _ => exact .inl (read.memory a ha)
  | vectored f u memory same cfg pc ht =>
    obtain ⟨⟨-, ⟨saved, others⟩, -⟩, -⟩ := takeFault_vectored memory f
    rw [← ht] at saved others
    by_cases hsave : a = u.cfg.faultPcSave.toNat
    · exact .inr ⟨by rw [hsave, cfg], by rw [ht]; rfl, by rw [hsave, saved, pc]⟩
    · exact .inl ((others a ha hsave).trans (same a ha))

end Sys2Proof.Machine
end

section
/-! What holds at an instruction boundary holds at the next one (spec/43_arith_mem_imm.md R247, spec/60_exceptions.md R276,
spec/70_reset_and_hazards.md R300, R308): the part of the boundary invariant that every tick keeps, and the rest at the end
of a handler. -/

namespace Sys2Proof.Machine

/-- The part of the boundary invariant that no tick disturbs, whatever the memory does. -/
structure State.Latched (s : State) : Prop where
  running : s.outcome = .running
  operands_absent : s.alu.op1 = none ∧ s.alu.op2 = none
  word_result : ∀ v, s.alu.result = some v → v.width = 20
  ea_bound : s.ea ≤ State.maxEa

/-- What holds between two ticks of i's handler. -/
structure State.Underway (i : Instr) (s : State) : Prop where
  attended : s.Attended i
  latched : s.Latched
  acted : s.mcuState ≠ .waiting

section Invariant
variable {i : Instr} {s t u : State}

theorem State.Inv.latched (h : s.Inv) : s.Latched := ⟨h.running, h.operands_absent, h.word_result, h.ea_bound⟩

/-- Neither the memory system, nor the memory unit, nor the handler's place matter. -/
theorem State.Latched.of_frame (h : s.Latched) (outcome : t.outcome = s.outcome) (alu : t.alu = s.alu) (ea : t.ea = s.ea) :
    t.Latched :=
  ⟨outcome.trans h.running, alu ▸ h.operands_absent, alu ▸ h.word_result, ea ▸ h.ea_bound⟩

theorem State.Inv.underway (h : s.Inv) : s.Underway i where
  attended := attended_of_idle h.memory h.idle h.no_load h.alu_idle
  latched := h.latched
  acted := by simp [h.mcu_idle]

/-- Between two ticks at a boundary, the memory unit is idle and the invariant holds. -/
theorem State.Underway.inv (h : s.Underway i) (boundary : s.atBoundary = true) : s.Inv := by
  have start : s.micro = 0 := by
    simp only [State.atBoundary, Bool.and_eq_true, decide_eq_true_eq] at boundary
    exact boundary.2
  have idle : s.isBusy = false := h.attended.idle_of_micro (by omega)
  exact
    { memory := h.attended.memory
      running := h.latched.running
      boundary := boundary
      mcu_idle := ((State.isBusy_eq_false_iff s).1 idle).resolve_right h.acted
      no_load := h.attended.load.no_load idle
      alu_idle := h.attended.alu_idle
      operands_absent := h.latched.operands_absent
      word_result := h.latched.word_result
      ea_bound := h.latched.ea_bound }

/-- Vectoring a fault leads to a boundary of the invariant (R276). -/
theorem takeFault_inv (memory : s.MemoryOk) (latched : s.Latched) (f : MachineFault) : (takeFault f s).Inv :=
  let ready := (takeFault_vectored memory f).2
  { memory := ready.memory
    running := latched.running
    boundary := rfl
    mcu_idle := rfl
    no_load := rfl
    alu_idle := ready.alu_idle
    operands_absent := ⟨rfl, rfl⟩
    word_result := latched.word_result
    ea_bound := latched.ea_bound }

/-! ### A tick of a handler -/

theorem State.Asks.latched (h : s.Latched) (asked : s.Asks i t) : t.Latched :=
  h.of_frame (by rw [asked.frame]) (by rw [asked.frame]) (by rw [asked.frame])

theorem State.MemoryMove.latched (h : s.Latched) (move : s.MemoryMove (.ok () t)) : t.Latched := by
  cases move <;> exact h.of_frame rfl rfl rfl

theorem State.TickMove.latched (h : s.Latched) (move : s.TickMove i (.ok () t)) : t.Latched := by
  cases move with
  | serves asked move => exact move.latched (asked.latched h)
  | advances _ _ bound =>
    refine ⟨h.running, h.operands_absent, h.word_result, ?_⟩
    rcases bound with rfl | bound
    · exact h.ea_bound
    · exact bound
  | computes _ => exact ⟨h.running, ⟨rfl, rfl⟩, fun v e => by cases e; rfl, h.ea_bound⟩
  | completes _ => exact h.of_frame rfl rfl rfl

/-- A request is acted on in the tick that issues it. -/
theorem State.TickMove.acted (h : s.mcuState ≠ .waiting) (move : s.TickMove i (.ok () t)) : t.mcuState ≠ .waiting := by
  cases move with
  | @serves u _ asked move =>
    have busy : u.mcuState ≠ .waiting := fun e => by simpa [State.isBusy, e] using asked.busy
    cases move with
    | waits _ _ _ _ => exact busy
    | fetches _ _ _ => simp
    | stores _ _ _ => simp
  | advances _ _ _ => exact h
  | computes _ => exact h
  | completes _ => exact h

theorem handler_tick_underway (h : s.Underway i) (ht : tickOf (fun w => handlerOf i w.micro w) s = .next t) :
    t.Underway i := by
  have move := tickBody_move h.attended
  rcases tickOf_next ht with ok | ⟨f, u, raised, rfl⟩
  · rw [ok] at move
    exact ⟨move.attended h.attended, move.latched h.latched, move.acted h.acted⟩
  · rw [raised] at move
    obtain ⟨m, kept, frame⟩ := move.raised h.attended
    have memory : u.MemoryOk := by rw [frame]; exact kept.ok.of_mem rfl rfl
    exact (takeFault_inv memory (h.latched.of_frame (by rw [frame]) (by rw [frame]) (by rw [frame])) f).underway

/-! ### The step -/

theorem runWhile_ends {more : State → Bool} {one : State → Host.Outcome State Fault Refusal} (n : Nat)
    (h : runWhile more one n s = .next t) : more t = false := by
  induction n generalizing s with
  | zero => cases h
  | succ n ih =>
    cases ho : one s with
    | next u =>
      cases hm : more u with
      | true => exact ih (runWhile_more n ho hm ▸ h)
      | false =>
        rw [runWhile_last n ho hm] at h
        cases h
        exact hm
    | fault r =>
      rw [runWhile_fault n ho] at h
      cases h
    | refused r =>
      rw [runWhile_refused n ho] at h
      cases h

/-- Fetch and decode leave the latches of the boundary as they were. -/
theorem State.Fetched.latched {w : Word} (h : s.Latched) (fetched : s.Fetched u w) : u.Latched :=
  h.of_frame fetched.outcome fetched.alu fetched.ea

theorem exec_inv (ready : s.Ready) (latched : s.Latched) (acted : s.mcuState ≠ .waiting) (h : exec i s = .next t) :
    t.Inv := by
  rw [exec_eq_runHandler] at h
  have start : (enterExecute s).Underway i := ⟨ready.attended, latched.of_frame rfl rfl rfl, acted⟩
  have underway : t.Underway i :=
    runWhile_invariant (P := State.Underway i) (fun _ h _ => h) (fun _ _ => handler_tick_underway) _ start h
  exact underway.inv (by simpa using runWhile_ends _ h)

/-- An opcode without a handler is vectored in its first tick (R260). -/
theorem execNoHandler_eq (op : BitVec 6) (s : State) :
    execNoHandler op s = .next (takeFault (.illegalOpcode op) (enterExecute s)) := by
  obtain ⟨n, budget⟩ : ∃ n, (enterExecute s).tickBudget = n + 1 :=
    ⟨(enterExecute s).tickBudget - 1, by unfold State.tickBudget; omega⟩
  rw [execNoHandler, runHandler, resume, budget]
  exact runWhile_last n (tickOf_raise rfl) (by simp [State.atBoundary])

end Invariant

/-- Settles O47: a fetch fault, an opcode without a handler and a handler's run each end at a boundary of the invariant. -/
theorem stepKeepsTheBoundaryInvariant : Obligations.StepKeepsTheBoundaryInvariant := by
  intro s t h ht
  by_cases ha : validAddress s.pc.toNat
  · obtain ⟨u, fetched, mcu, run, -⟩ := step_of_backed_pc h ha
    rw [run] at ht
    have latched := fetched.latched h.latched
    cases hd : decode s.cfg.opcodes (s.memval s.pc.toNat) with
    | ok i =>
      rw [executeDecoded_of_decode fetched hd] at ht
      exact exec_inv fetched.ready latched (by simp [mcu]) ht
    | error e =>
      obtain ⟨op⟩ := e
      rw [executeDecoded_of_noMnemonic fetched hd, execNoHandler_eq] at ht
      cases ht
      exact takeFault_inv (fetched.ready.memory.of_mem rfl rfl) (latched.of_frame rfl rfl rfl) _
  · rw [step_of_unbacked_pc h ha] at ht
    cases ht
    exact takeFault_inv (s := s.fetching) (h.memory.of_mem rfl rfl) (h.latched.of_frame rfl rfl rfl) _

end Sys2Proof.Machine
end

section
/-! Decoding and encoding (spec/30_encoding.md R110 to R115): a Word and its field tuple are each other, the opcode field
picks the instruction by its row of R114's table, and a Word with another opcode is vectored (R260). -/

namespace Sys2Proof

/-! ### Words and field tuples -/

theorem toNat_append_eq_add {m n : Nat} (hi : BitVec m) (lo : BitVec n) :
    (hi ++ lo).toNat = hi.toNat * 2 ^ n + lo.toNat := by
  rw [BitVec.toNat_append, ← Nat.shiftLeft_add_eq_or_of_lt lo.isLt, Nat.shiftLeft_eq]

theorem ofBool_getLsbD (w : Word) (k : Nat) : BitVec.ofBool (w.getLsbD k) = w.extractLsb' k 1 := by
  ext j hj
  obtain rfl : j = 0 := by omega
  simp

/-- The weighted sum of R113. -/
theorem encodeFields_toNat (d : Decoded) :
    (encodeFields d).toNat =
      d.op.toNat * 2 ^ 14 + d.fields.r.toNat * 2 ^ 12 + d.fields.x.toNat * 2 ^ 10 + d.fields.i.toNat * 2 ^ 9 +
        d.fields.t.toNat * 2 ^ 8 + d.fields.addr.toNat := by
  simp only [encodeFields, toNat_append_eq_add, BitVec.toNat_ofBool]
  ring

/-- Every bit of a Word is in one field. -/
@[simp] theorem encodeFields_decodeFields (w : Word) : encodeFields (decodeFields w) = w := by
  simp only [encodeFields, decodeFields, ofBool_getLsbD]
  iterate 5 rw [BitVec.extractLsb'_append_extractLsb'_eq_extractLsb']
  · exact BitVec.extractLsb'_eq_self
  all_goals rfl

theorem extractLsb'_eq_of_toNat {w : Word} {k n : Nat} {v : BitVec n} (h : w.toNat / 2 ^ k % 2 ^ n = v.toNat) :
    w.extractLsb' k n = v := by
  apply BitVec.eq_of_toNat_eq
  rw [BitVec.extractLsb'_toNat, Nat.shiftRight_eq_div_pow, h]

theorem getLsbD_eq_of_toNat {w : Word} {k : Nat} {b : Bool} (h : w.toNat / 2 ^ k % 2 ^ 1 = b.toNat) :
    w.getLsbD k = b := by
  rw [← BitVec.ofBool_eq_iff_eq, ofBool_getLsbD]
  exact extractLsb'_eq_of_toNat (by rw [h, BitVec.toNat_ofBool])

/-- Each field is its digit of the weighted sum. -/
@[simp] theorem decodeFields_encodeFields (d : Decoded) : decodeFields (encodeFields d) = d := by
  have sum := encodeFields_toNat d
  obtain ⟨op, r, x, i, t, addr⟩ := d
  have hi := i.toNat_lt
  have ht := t.toNat_lt
  simp only [decodeFields, Decoded.mk.injEq, Fields.mk.injEq]
  refine ⟨extractLsb'_eq_of_toNat ?_, extractLsb'_eq_of_toNat ?_, extractLsb'_eq_of_toNat ?_, getLsbD_eq_of_toNat ?_,
    getLsbD_eq_of_toNat ?_, extractLsb'_eq_of_toNat ?_⟩
  all_goals
    rw [sum]
    dsimp only
    omega

/-- Settles O3: the append of the fields is their weighted sum, and each way back is the other's inverse. -/
theorem wordsAreFieldTuples : Obligations.WordsAreFieldTuples :=
  ⟨encodeFields_toNat, decodeFields_encodeFields, encodeFields_decodeFields,
    fun _ => ⟨rfl, rfl, rfl, rfl, rfl, rfl⟩, by decide, by decide⟩

/-! ### The rows of the opcode table -/

/-- The place of an instruction's number in R114's order. -/
def Instr.row : Instr → Nat
  | .ldr _ => 0
  | .str _ => 1
  | .lda _ => 2
  | .amr _ => 3
  | .smr _ => 4
  | .air _ => 5
  | .sir _ => 6
  | .jne _ => 7
  | .jcc _ => 8
  | .sob _ => 9
  | .jge _ => 10
  | .ldx _ => 11
  | .stx _ => 12

/-- The instructions of R114's table, in its order, on the operand fields f. -/
def instrRows (f : Fields) : List Instr :=
  [.ldr f, .str f, .lda f, .amr f, .smr f, .air f, .sir f, .jne f, .jcc f, .sob f, .jge f, .ldx f, .stx f]

section Rows
variable {m : OpcodeMap} {d : Decoded} {i j : Instr} {w : Word}

theorem instrRows_row (i : Instr) : (instrRows i.fields)[i.row]? = some i := by
  cases i <;> rfl

theorem numbers_row (m : OpcodeMap) (i : Instr) : m.numbers[i.row]? = some (opcodeOf m i) := by
  cases i <;> rfl

theorem opcodeOf_mem (m : OpcodeMap) (i : Instr) : opcodeOf m i ∈ m.numbers :=
  List.mem_of_getElem? (numbers_row m i)

/-- Under distinct numbers an instruction is its opcode number and its operand fields. -/
theorem instr_eq_of_opcodeOf (hm : m.Distinct) (op : opcodeOf m i = opcodeOf m j) (fields : i.fields = j.fields) :
    i = j := by
  have bound : i.row < m.numbers.length := (List.getElem?_eq_some_iff.1 (numbers_row m i)).1
  have row : i.row = j.row := (List.getElem?_inj bound hm).1 (by rw [numbers_row, numbers_row, op])
  have same : some i = some j := by rw [← instrRows_row i, ← instrRows_row j, row, fields]
  exact Option.some.inj same

/-! ### The instruction of a field tuple -/

/-- What a search of the numbers ns for the opcode of d answers: an instruction with that number and the fields of d, or the
number that is none of them (R115). -/
inductive Answers (m : OpcodeMap) (d : Decoded) (ns : List (BitVec 6)) : Except DecodeError Instr → Prop where
  | found {i : Instr} (op : opcodeOf m i = d.op) (fields : i.fields = d.fields) : Answers m d ns (.ok i)
  | refused (unassigned : d.op ∉ ns) : Answers m d ns (.error (.noMnemonic d.op))

/-- One comparison of the search. -/
theorem Answers.compare {n : BitVec 6} {ns : List (BitVec 6)} {rest : Except DecodeError Instr} (op : opcodeOf m i = n)
    (fields : i.fields = d.fields) (h : Answers m d ns rest) :
    Answers m d (n :: ns) (if d.op = n then .ok i else rest) := by
  split_ifs with hn
  · exact .found (op.trans hn.symm) fields
  · cases h with
    | found op fields => exact .found op fields
    | refused unassigned => exact .refused (by simp [hn, unassigned])

/-- `instrOf` compares the opcode with R114's numbers in their order. -/
theorem instrOf_answers (m : OpcodeMap) (d : Decoded) : Answers m d m.numbers (instrOf m d) := by
  unfold instrOf OpcodeMap.numbers
  iterate 13 refine .compare rfl rfl ?_
  exact .refused List.not_mem_nil

theorem instrOf_ok (h : instrOf m d = .ok i) : opcodeOf m i = d.op ∧ i.fields = d.fields := by
  have answer := instrOf_answers m d
  rw [h] at answer
  cases answer with
  | found op fields => exact ⟨op, fields⟩

theorem instrOf_error_iff {e : DecodeError} :
    instrOf m d = .error e ↔ e = .noMnemonic d.op ∧ d.op ∉ m.numbers := by
  have answer := instrOf_answers m d
  constructor
  · intro h
    rw [h] at answer
    cases answer with
    | refused unassigned => exact ⟨rfl, unassigned⟩
  · rintro ⟨rfl, unassigned⟩
    generalize instrOf m d = r at answer
    cases answer with
    | @found i op _ => exact absurd (op ▸ opcodeOf_mem m i) unassigned
    | refused _ => rfl

/-! ### Decoding and encoding -/

theorem decode_encode (hm : m.Distinct) (i : Instr) : decode m (encode m i) = .ok i := by
  rw [decode, encode, decodeFields_encodeFields]
  cases h : instrOf m ⟨opcodeOf m i, i.fields⟩ with
  | ok j =>
    obtain ⟨op, fields⟩ := instrOf_ok h
    rw [instr_eq_of_opcodeOf hm op fields]
  | error e =>
    obtain ⟨-, unassigned⟩ := instrOf_error_iff.1 h
    exact absurd (opcodeOf_mem m i) unassigned

theorem encode_of_decode (h : decode m w = .ok i) : encode m i = w := by
  obtain ⟨op, fields⟩ := instrOf_ok h
  rw [encode, op, fields, encodeFields_decodeFields]

theorem decode_of_encode (hm : m.Distinct) (h : encode m i = w) : decode m w = .ok i :=
  h ▸ decode_encode hm i

end Rows

/-- Settles O1: the opcode number found is the instruction's own, and under distinct numbers no other row has it. -/
theorem decodeOfEncodeIsTheInstruction : Obligations.DecodeOfEncodeIsTheInstruction :=
  fun _ hm i => decode_encode hm i

/-- Settles O2: the instruction found has the Word's opcode and fields, and those are all its bits. -/
theorem encodeOfDecodeIsTheWord : Obligations.EncodeOfDecodeIsTheWord :=
  fun _ _ _ => encode_of_decode

/-- Settles O4: the search of `instrOf` ends in the refusal exactly when no number matches. -/
theorem onlyUnassignedOpcodesAreRefused : Obligations.OnlyUnassignedOpcodesAreRefused :=
  fun _ _ _ => instrOf_error_iff

theorem standard_distinct : OpcodeMap.standard.Distinct := by decide

/-- Settles O5: each Word is its instruction's, and 0 is no mnemonic's number. -/
theorem specWordsDecode : Obligations.SpecWordsDecode :=
  have reads {i : Instr} {w : Word} (h : encode OpcodeMap.standard i = w) : decode OpcodeMap.standard w = .ok i :=
    decode_of_encode standard_distinct h
  ⟨reads rfl, reads rfl, reads rfl, reads rfl, reads rfl, reads rfl, instrOf_error_iff.2 (by decide)⟩

end Sys2Proof

namespace Sys2Proof.Machine

/-! ### A Word with no mnemonic, executed -/

theorem State.Fetched.entered {s u : State} {w : Word} (fetched : s.Fetched u w) : enterExecute u = u := by
  obtain ⟨phase, micro⟩ := fetched.execute
  rw [enterExecute, ← phase, ← micro]

/-- Settles O44: fetch and decode, then the vectoring of E0's fault. -/
theorem stepOfAnUnassignedOpcodeFaults : Obligations.StepOfAnUnassignedOpcodeFaults := by
  intro s op h ha hop
  obtain ⟨u, fetched, -, run, -⟩ := step_of_backed_pc h ha
  obtain ⟨vectored, -⟩ := takeFault_vectored fetched.ready.memory (.illegalOpcode op)
  obtain ⟨named, -⟩ := instrOf_error_iff.1 hop
  refine ⟨u, takeFault (.illegalOpcode op) u, fetched, ?_, vectored, DecodeError.noMnemonic.inj named⟩
  rw [run, executeDecoded_of_noMnemonic fetched hop, execNoHandler_eq, fetched.entered]

end Sys2Proof.Machine
end

section
/-! The BitVector value type (spec/40_datapath_alu.md R130 to R143): its readings, checked construction, binary strings, the
logic, the shifts and the rotates. -/

namespace Sys2Proof.Machine

/-! ### Readings (R132) -/

theorem bmod_two_pow_emod (k : Int) (w : Nat) : k.bmod (2 ^ w) % 2 ^ w = k % 2 ^ w :=
  mod_cast Int.bmod_emod (x := k) (m := 2 ^ w)

/-- The unsigned reading is the signed one modulo 2^w. -/
theorem toNat_eq_toInt_emod {w : Nat} (x : BitVec w) : (x.toNat : Int) = x.toInt % 2 ^ w := by
  have fits : (x.toNat : Int) < 2 ^ w := mod_cast x.isLt
  rw [BitVec.toInt_eq_toNat_bmod, bmod_two_pow_emod, Int.emod_eq_of_lt (Int.natCast_nonneg _) fits]

/-- `bv_w(k)` has the unsigned reading k modulo 2^w (R131). -/
theorem toNat_ofInt_eq_emod (w : Nat) (k : Int) : ((BitVec.ofInt w k).toNat : Int) = k % 2 ^ w := by
  have nonneg : 0 ≤ k % 2 ^ w := Int.emod_nonneg _ (by positivity)
  rw [BitVec.toNat_ofInt, Nat.cast_pow, Nat.cast_two, Int.toNat_of_nonneg nonneg]

theorem sval_bounds (v : BitVector) : -2 ^ (v.width - 1) ≤ v.sval ∧ v.sval < 2 ^ (v.width - 1) :=
  ⟨v.bits.le_toInt, BitVec.toInt_lt⟩

/-! ### Checked construction (R131) -/

section Make
variable {n : Nat} {k : Int}

theorem makeBits_of_inRange (hn : 1 ≤ n ∧ n ≤ 64) (hk : minSigned n ≤ k ∧ k ≤ maxUnsigned n) :
    makeBits n k = .ok ⟨n, BitVec.ofInt n k⟩ :=
  if_pos ⟨hn.1, hn.2, hk⟩

theorem makeBits_of_outOfRange (hk : k < minSigned n ∨ maxUnsigned n < k) : makeBits n k = .error .range :=
  if_neg fun ⟨_, _, low, high⟩ => hk.elim low.not_gt high.not_gt

end Make

/-- Settles O6: a number from 0 up reads back unsigned, one below 0 has the signed reading of the pattern. -/
theorem checkedConstructionReadsBack : Obligations.CheckedConstructionReadsBack := by
  intro n k low high
  refine ⟨fun range => ⟨_, makeBits_of_inRange ⟨low, high⟩ range, rfl, fun nonneg => ?_, fun neg => ?_⟩,
    fun out => makeBits_of_outOfRange out⟩
  · rw [BitVector.uval, toNat_ofInt_eq_emod]
    exact Int.emod_eq_of_lt nonneg (Int.lt_of_le_sub_one range.2)
  · have half : (0 : Int) < 2 ^ (n - 1) := by positivity
    exact BitVec.toInt_ofInt_eq_self low (by omega) (by omega)

/-! ### Binary strings (R133) -/

@[simp] theorem toBinaryString_length (v : BitVector) : (toBinaryString v).length = v.width := by
  simp [toBinaryString, bitArray]

theorem toBinaryString_getElem? (v : BitVector) {k : Nat} (hk : k < v.width) :
    (toBinaryString v)[k]? = some (if v.bits.getLsbD (v.width - 1 - k) then '1' else '0') := by
  simp [toBinaryString, bitArray, hk]

theorem toBinaryString_binary (v : BitVector) : ∀ c ∈ toBinaryString v, c = '0' ∨ c = '1' := by
  intro c hc
  obtain ⟨b, -, rfl⟩ := List.mem_map.1 hc
  cases b <;> decide

theorem bitArray_cons {n : Nat} (b : Bool) (x : BitVec n) : bitArray ⟨n + 1, x.cons b⟩ = b :: bitArray ⟨n, x⟩ := by
  simp only [bitArray, List.range_succ_eq_map, List.map_cons, List.map_map, BitVec.getLsbD_cons]
  refine congrArg₂ _ (if_pos rfl) (List.map_congr_left fun k hk => ?_)
  have := List.mem_range.1 hk
  simp only [Function.comp_apply]
  rw [if_neg (by omega), show n + 1 - 1 - (k + 1) = n - 1 - k by omega]

/-- The string of a BitVector starts with its most significant bit. -/
theorem toBinaryString_cons {n : Nat} (b : Bool) (x : BitVec n) :
    toBinaryString ⟨n + 1, x.cons b⟩ = (if b then '1' else '0') :: toBinaryString ⟨n, x⟩ := by
  rw [toBinaryString, bitArray_cons, List.map_cons, toBinaryString]

/-- Reading a digit doubles the value so far and adds the digit. -/
theorem binaryValue_digit (b : Bool) (cs : List Char) (acc : Nat) :
    binaryValue ((if b then '1' else '0') :: cs) acc = binaryValue cs (2 * acc + b.toNat) := by
  cases b <;> rfl

theorem binaryValue_toBinaryString {n : Nat} (x : BitVec n) (acc : Nat) :
    binaryValue (toBinaryString ⟨n, x⟩) acc = some (acc * 2 ^ n + x.toNat) := by
  induction n generalizing acc with
  | zero => simp [toBinaryString, bitArray, binaryValue, BitVec.of_length_zero]
  | succ n ih =>
    rw [← BitVec.cons_msb_setWidth x, toBinaryString_cons, binaryValue_digit, ih, BitVec.toNat_cons']
    congr 1
    rw [Nat.shiftLeft_eq]
    ring

/-- A string of binary digits is the string of some pattern of its length. -/
theorem exists_toBinaryString_eq (cs : List Char) (h : ∀ c ∈ cs, c = '0' ∨ c = '1') :
    ∃ x : BitVec cs.length, toBinaryString ⟨cs.length, x⟩ = cs := by
  induction cs with
  | nil => exact ⟨0, rfl⟩
  | cons c cs ih =>
    obtain ⟨digit, rest⟩ := List.forall_mem_cons.1 h
    obtain ⟨x, hx⟩ := ih rest
    obtain ⟨b, rfl⟩ : ∃ b : Bool, c = if b then '1' else '0' := digit.elim (⟨false, ·⟩) (⟨true, ·⟩)
    exact ⟨x.cons b, (toBinaryString_cons b x).trans (congrArg _ hx)⟩

theorem binary_of_binaryValue {cs : List Char} {acc k : Nat} (h : binaryValue cs acc = some k) :
    ∀ c ∈ cs, c = '0' ∨ c = '1' := by
  fun_induction binaryValue cs acc with
  | case1 => simp
  | case2 acc cs ih => simpa using ih h
  | case3 acc cs ih => simpa using ih h
  | case4 => cases h

section FromString
variable {cs : List Char} {v : BitVector}

theorem fromBinaryString_toBinaryString (hv : v.legal) : fromBinaryString (toBinaryString v) = .ok v := by
  obtain ⟨n, x⟩ := v
  have value : binaryValue (toBinaryString ⟨n, x⟩) 0 = some x.toNat := by
    rw [binaryValue_toBinaryString, Nat.zero_mul, Nat.zero_add]
  rw [fromBinaryString, value, toBinaryString_length, if_pos hv]
  simp

/-- The string of a pattern that a string builds is that string. -/
theorem fromBinaryString_ok (h : fromBinaryString cs = .ok v) :
    toBinaryString v = cs ∧ v.legal := by
  unfold fromBinaryString at h
  split at h
  · split at h
    next len _ k value =>
      obtain ⟨x, hx⟩ := exists_toBinaryString_eq cs (binary_of_binaryValue value)
      cases h
      have : binaryValue (toBinaryString ⟨cs.length, x⟩) 0 = some k := by rw [hx, value]
      rw [binaryValue_toBinaryString, Nat.zero_mul, Nat.zero_add, Option.some.injEq] at this
      subst this
      simpa using ⟨hx, len⟩
    · cases h
  · cases h

theorem fromBinaryString_ok_or_range (cs : List Char) :
    (∃ v, fromBinaryString cs = .ok v) ∨ fromBinaryString cs = .error .range := by
  unfold fromBinaryString
  split
  · split
    · exact .inl ⟨_, rfl⟩
    · exact .inr rfl
  · exact .inr rfl

end FromString

/-- Settles O7: the string of a pattern is read back digit by digit, and every string of binary digits is one. -/
theorem binaryStringsRoundTrip : Obligations.BinaryStringsRoundTrip := by
  refine ⟨fun v => ⟨toBinaryString_length v, fun k => toBinaryString_getElem? v⟩, by decide,
    fun v => fromBinaryString_toBinaryString, fun cs v h => ?_, fun cs bad => ?_⟩
  · obtain ⟨string, legal⟩ := fromBinaryString_ok h
    exact ⟨string, by rw [← string, toBinaryString_length], legal⟩
  · refine (fromBinaryString_ok_or_range cs).resolve_left fun ⟨v, h⟩ => ?_
    obtain ⟨rfl, low, high⟩ := fromBinaryString_ok h
    rw [toBinaryString_length] at bad
    obtain short | long | ⟨c, hc, not0, not1⟩ := bad
    · omega
    · omega
    · exact (toBinaryString_binary v c hc).elim not0 not1

/-! ### Shifts and rotates (R138 to R143) -/

theorem withCount_natCast (k : Nat) (f : Nat → BitVector) : withCount k f = .ok (f k) := rfl

theorem withCount_of_neg {k : Int} (hk : k < 0) (f : Nat → BitVector) : withCount k f = .error .range := by
  cases k with
  | ofNat n => exact absurd hk (Int.natCast_nonneg n).not_gt
  | negSucc n => rfl

/-- The bit that `ROL` moves to place (i + k) mod n (R142). -/
theorem getLsbD_rotateLeft_add_mod {w : Nat} (x : BitVec w) (k : Nat) {i : Nat} (hi : i < w) :
    (x.rotateLeft k).getLsbD ((i + k) % w) = x.getLsbD i := by
  have count := Nat.mod_lt k (Nat.zero_lt_of_lt hi)
  rw [Nat.add_mod_eq_ite, Nat.mod_eq_of_lt hi, BitVec.getLsbD_rotateLeft]
  split_ifs with wraps
  · rw [decide_eq_true (by omega), cond_true]
    congr 1
    omega
  · rw [decide_eq_false (by omega), cond_false, decide_eq_true (by omega), Bool.true_and, Nat.add_sub_cancel]

/-- The bit that `ROR` takes to place i (R142). -/
theorem getLsbD_rotateRight_eq {w : Nat} (x : BitVec w) (k : Nat) {i : Nat} (hi : i < w) :
    (x.rotateRight k).getLsbD i = x.getLsbD ((i + k) % w) := by
  have count := Nat.mod_lt k (Nat.zero_lt_of_lt hi)
  rw [Nat.add_mod_eq_ite, Nat.mod_eq_of_lt hi, BitVec.getLsbD_rotateRight]
  split_ifs with wraps
  · rw [decide_eq_false (by omega), cond_false, decide_eq_true hi, Bool.true_and]
    congr 1
    omega
  · rw [decide_eq_true (by omega), cond_true, Nat.add_comm]

/-- Settles O8: each operation is the one on bit patterns, at a count that is not negative. -/
theorem shiftsAndRotates : Obligations.ShiftsAndRotates := by
  intro v
  refine ⟨fun k => ⟨⟨_, withCount_natCast k _, rfl, ?_⟩, rfl, ⟨_, withCount_natCast k _, rfl, ?_⟩,
    ⟨_, withCount_natCast k _, rfl, ?_⟩, ⟨_, withCount_natCast k _, rfl, fun i => getLsbD_rotateLeft_add_mod v.bits k⟩,
    ⟨_, withCount_natCast k _, rfl, fun i => getLsbD_rotateRight_eq v.bits k⟩⟩, fun k neg => ?_⟩
  · simp only [BitVector.uval, BitVec.toNat_shiftLeft, Nat.shiftLeft_eq]
  · simp only [BitVector.uval, BitVec.toNat_ushiftRight, Nat.shiftRight_eq_div_pow]
  · simp only [BitVector.sval, BitVec.toInt_sshiftRight, Int.shiftRight_eq_div_pow, Nat.cast_pow, Nat.cast_two]
  · exact ⟨withCount_of_neg neg _, withCount_of_neg neg _, withCount_of_neg neg _, withCount_of_neg neg _,
      withCount_of_neg neg _, withCount_of_neg neg _⟩

/-! ### Logic (R136, R137) -/

/-- Settles O9: a bit at or above an operand's own width is the operand's sign. -/
theorem logicIsBitwise : Obligations.LogicIsBitwise := by
  refine ⟨fun v => ⟨rfl, fun i hi => ?_⟩, fun a b => ⟨rfl, rfl, fun i hi => ⟨?_, ?_⟩⟩⟩
  · rw [notBits, BitVec.getLsbD_not, decide_eq_true hi, Bool.true_and]
  · simp only [andBits, BitVec.getLsbD_and, BitVec.getLsbD_signExtend, decide_eq_true hi, Bool.true_and]
  · simp only [orBits, BitVec.getLsbD_or, BitVec.getLsbD_signExtend, decide_eq_true hi, Bool.true_and]

end Sys2Proof.Machine
end

section
/-! The ALU (spec/40_datapath_alu.md R145 to R157): the ripple of the adder, the four computations with their flags, the ALU's
step and the merge of its flags. -/

namespace Sys2Proof.Machine

/-! ### The ripple (R152) -/

/-- The carry into bit i of the library's full adder is R152's: the majority of two bits and the carry before. -/
theorem carryChain_eq_carry {w : Nat} (a b : BitVec w) (i : Nat) : carryChain a b i = BitVec.carry i a b false := by
  induction i with
  | zero => rw [BitVec.carry_zero, carryChain]
  | succ i ih => rw [BitVec.carry_succ, carryChain, ih, Bool.atLeastTwo]

theorem getLsbD_add_eq_sumBit {w : Nat} (a b : BitVec w) {i : Nat} (hi : i < w) :
    (a + b).getLsbD i = sumBit a b i := by
  rw [BitVec.getLsbD_add hi, sumBit, carryChain_eq_carry, Bool.xor_assoc]

/-- The carry out is the last of the chain. -/
theorem carryChain_width {w : Nat} (a b : BitVec w) : carryChain a b w = carryOut a b := by
  rw [carryChain_eq_carry, BitVec.carry_width, carryOut, Bool.toNat_false, Nat.add_zero]

/-- Settles O10: the ripple is the library's full adder. -/
theorem rippleCarryIsAddition : Obligations.RippleCarryIsAddition :=
  fun _ a b => ⟨fun _ => getLsbD_add_eq_sumBit a b, carryChain_width a b, (carryChain_width a b).symm⟩

/-! ### The flags under either rule (D4, D6) -/

section Rule
variable {w : Nat} {carry : Bool} {value : Int}

@[simp] theorem overflowFlag_carryOut : overflowFlag .carryOut w carry value = carry := rfl

@[simp] theorem overflowFlag_signed :
    overflowFlag .signed w carry value = decide (value < minSigned w ∨ maxSigned w < value) := by
  simp only [overflowFlag, ← decide_not, Classical.not_and_iff_not_or_not, not_le]

end Rule

/-! ### ADD and SUBTRACT (R151 to R154) -/

section Adder
variable {w : Nat} (a b : BitVec w)

theorem toNat_add_eq_emod : ((a + b).toNat : Int) = (a.toInt + b.toInt) % 2 ^ w := by
  rw [toNat_eq_toInt_emod, BitVec.toInt_add, bmod_two_pow_emod]

theorem toNat_sub_eq_emod : ((a - b).toNat : Int) = (a.toInt - b.toInt) % 2 ^ w := by
  rw [toNat_eq_toInt_emod, BitVec.toInt_sub, bmod_two_pow_emod]

theorem carryOut_eq : carryOut a b = decide ((2 : Int) ^ w ≤ a.toInt % 2 ^ w + b.toInt % 2 ^ w) := by
  rw [carryOut, decide_eq_decide, ← toNat_eq_toInt_emod, ← toNat_eq_toInt_emod]
  norm_cast

/-- The "no borrow" carry in terms of the signed readings. -/
theorem carryOut_negated_eq :
    carryOut a (negated b) = decide (b.toInt ≠ 0 ∧ b.toInt % 2 ^ w ≤ a.toInt % 2 ^ w) := by
  have zero : b.toInt ≠ 0 ↔ b ≠ 0 := by rw [← BitVec.toInt_zero (w := w), BitVec.toInt_ne]; rfl
  rw [carryOut_negated, decide_eq_decide, ← toNat_eq_toInt_emod, ← toNat_eq_toInt_emod, zero]
  norm_cast

end Adder

section Widths
variable (a b : BitVector)

/-- Sign extension to the common width keeps the value (R151). -/
theorem toInt_signExtend_left : (a.bits.signExtend (max a.width b.width)).toInt = a.sval :=
  BitVec.toInt_signExtend_of_le (le_max_left _ _)

theorem toInt_signExtend_right : (b.bits.signExtend (max a.width b.width)).toInt = b.sval :=
  BitVec.toInt_signExtend_of_le (le_max_right _ _)

end Widths

/-- Settles O11: the sign-extended operands have the values of the operands, and the adder adds those. -/
theorem addResultAndFlags : Obligations.AddResultAndFlags := by
  rintro rule a b w rfl
  refine ⟨rfl, ?_, ?_, ?_, rfl⟩
  · rw [aluAdd, BitVector.uval, toNat_add_eq_emod, toInt_signExtend_left, toInt_signExtend_right]
  · cases rule <;>
      simp only [aluAdd, addFlags, overflowFlag_carryOut, overflowFlag_signed, carryOut_eq, toInt_signExtend_left,
        toInt_signExtend_right]
  · simp only [aluAdd, addFlags, underflowFlag, toInt_signExtend_left, toInt_signExtend_right]

/-- Settles O12: inverting and adding one negates, so the adder subtracts. -/
theorem subtractResultAndFlags : Obligations.SubtractResultAndFlags := by
  rintro rule a b w rfl
  refine ⟨rfl, ?_, ?_, ?_, rfl⟩
  · rw [aluSubtract, BitVector.uval, add_negated, toNat_sub_eq_emod, toInt_signExtend_left, toInt_signExtend_right]
  · cases rule <;>
      simp only [aluSubtract, subtractFlags, overflowFlag_carryOut, overflowFlag_signed, carryOut_negated_eq,
        toInt_signExtend_left, toInt_signExtend_right]
  · simp only [aluSubtract, subtractFlags, underflowFlag, toInt_signExtend_left, toInt_signExtend_right]

/-! ### MULTIPLY (R156) -/

theorem aluMultiply_ov (a b : BitVector) :
    (aluMultiply a b).2.ov = some (decide (a.sval * b.sval < minSigned 40 ∨ maxSigned 40 < a.sval * b.sval)) := by
  simp only [aluMultiply, ← decide_not, Classical.not_and_iff_not_or_not, not_le]

theorem abs_sval_of_word {v : BitVector} (h : v.width = 20) : |v.sval| ≤ 2 ^ 19 := by
  obtain ⟨low, high⟩ := sval_bounds v
  rw [h] at low high
  exact abs_le.2 ⟨low, high.le⟩

/-- The product of two Words needs 39 of the 40 bits. -/
theorem abs_sval_mul_of_words {a b : BitVector} (ha : a.width = 20) (hb : b.width = 20) :
    |a.sval * b.sval| ≤ 2 ^ 38 := by
  calc |a.sval * b.sval| = |a.sval| * |b.sval| := abs_mul _ _
    _ ≤ 2 ^ 19 * 2 ^ 19 :=
      mul_le_mul (abs_sval_of_word ha) (abs_sval_of_word hb) (abs_nonneg _) (by norm_num)
    _ = 2 ^ 38 := by norm_num

/-- Settles O13: the product is taken modulo 2^40, and that of two Words is within the range. -/
theorem multiplyResultAndFlags : Obligations.MultiplyResultAndFlags := by
  intro a b
  refine ⟨rfl, toNat_ofInt_eq_emod 40 _, aluMultiply_ov a b, rfl, rfl, fun ha hb => ?_⟩
  obtain ⟨low, high⟩ := abs_le.1 (abs_sval_mul_of_words ha hb)
  rw [aluMultiply_ov, decide_eq_false]
  simp only [minSigned, maxSigned]
  omega

/-! ### DIVIDE (R157) -/

/-- The remainder of the floored quotient has the divisor's sign and is smaller in size. -/
theorem fmod_bounds (a b : Int) :
    (0 < b → 0 ≤ a.fmod b ∧ a.fmod b < b) ∧ (b < 0 → b < a.fmod b ∧ a.fmod b ≤ 0) := by
  refine ⟨fun pos => ⟨Int.fmod_nonneg_of_pos a pos, Int.fmod_lt_of_pos a pos⟩, fun neg => ?_⟩
  have low := Int.fmod_nonneg_of_pos (-a) (neg_pos.2 neg)
  have high := Int.fmod_lt_of_pos (-a) (neg_pos.2 neg)
  rw [Int.neg_fmod_neg] at low high
  omega

theorem packQuotient_uval (q rm : Word) : (packQuotient q rm).uval = q.toNat * 2 ^ 20 + rm.toNat :=
  toNat_append_eq_add q rm

section Divide
variable (table : RemainderTable) (a : BitVector) {b : BitVector}

theorem aluDivide_of_ne_zero (hb : b.sval ≠ 0) :
    aluDivide table a b = (packQuotient (BitVec.ofInt 20 (a.sval.fdiv b.sval)) (BitVec.ofInt 20 (a.sval.fmod b.sval)),
      ⟨none, none, some false⟩) := by
  rw [Int.fmod_def, aluDivide, if_neg hb]

theorem aluDivide_of_eq_zero (hb : b.sval = 0) :
    aluDivide table a b = (packQuotient 0 (remainderByZero table a), ⟨none, none, some true⟩) :=
  if_pos hb

end Divide

/-- The table that lists a function's values on some dividends. -/
def tabulate (f : BitVector → Word) (dividends : List BitVector) : RemainderTable where
  listed := dividends.map fun a => (a, f a)
  otherwise := 0

theorem lookup_tabulate (f : BitVector → Word) {dividends : List BitVector} {a : BitVector} (ha : a ∈ dividends) :
    (tabulate f dividends).listed.lookup a = some (f a) := by
  induction dividends with
  | nil => cases ha
  | cons d rest ih =>
    change List.lookup a ((d, f d) :: (tabulate f rest).listed) = some (f a)
    obtain rfl | other := eq_or_ne a d
    · exact List.lookup_cons_self
    · rw [List.lookup_cons, beq_false_of_ne other]
      exact ih ((List.mem_cons.1 ha).resolve_left other)

theorem remainderByZero_tabulate (f : BitVector → Word) {dividends : List BitVector} {a : BitVector}
    (ha : a ∈ dividends) : remainderByZero (tabulate f dividends) a = f a := by
  rw [remainderByZero, lookup_tabulate f ha, Option.getD_some]

/-- Settles O14: quotient and remainder are those of floored division, each in its half. -/
theorem divideResultAndFlags : Obligations.DivideResultAndFlags := by
  refine ⟨fun table a b => ⟨fun hb => ?_, fun hb => ?_⟩, remainderByZero_zero,
    fun f dividends => ⟨tabulate f dividends, fun _ => remainderByZero_tabulate f⟩⟩
  · obtain ⟨pos, neg⟩ := fmod_bounds a.sval b.sval
    refine ⟨a.sval.fdiv b.sval, a.sval.fmod b.sval, (Int.mul_fdiv_add_fmod _ _).symm, pos, neg, ?_⟩
    rw [aluDivide_of_ne_zero table a hb]
    refine ⟨rfl, ?_, rfl⟩
    rw [packQuotient_uval, Nat.cast_add, Nat.cast_mul, toNat_ofInt_eq_emod, toNat_ofInt_eq_emod]
    norm_cast
  · rw [aluDivide_of_eq_zero table a hb]
    refine ⟨rfl, ?_, rfl⟩
    rw [packQuotient_uval, show (0 : Word).toNat = 0 from rfl, Nat.zero_mul, Nat.zero_add]

/-! ### The ALU step (R147, R148) -/

section Step
variable {s : State} {a b : BitVector}

theorem aluStep_of_not_started (h : s.alu.state ≠ .startComputation) : aluStep s = .ok () s := by
  unfold aluStep
  split
  · rfl
  · rfl
  · contradiction

theorem aluStep_of_missing (started : s.alu.state = .startComputation) (missing : s.alu.op1 = none ∨ s.alu.op2 = none) :
    aluStep s = .stop .missingOperand := by
  unfold aluStep
  rw [started]
  obtain h | h := missing <;> simp [h]

/-- The ALU after it computed on a and b. -/
def Alu.computed (alu : Alu) (p : Params) (a b : BitVector) : Alu where
  state := .computationFinished
  op1 := none
  op2 := none
  ctl := alu.ctl
  result := (aluCompute p alu.ctl a b).1.or alu.result
  flags := (aluCompute p alu.ctl a b).2

theorem aluStep_of_operands (started : s.alu.state = .startComputation) (ha : s.alu.op1 = some a)
    (hb : s.alu.op2 = some b) : aluStep s = .ok () { s with alu := s.alu.computed s.cfg a b } := by
  unfold aluStep
  rw [started, ha, hb]
  rfl

end Step

/-- Settles O15: by the ALU's state and operands, then by the control code. -/
theorem aluStepComputesOrStops : Obligations.AluStepComputesOrStops := by
  refine ⟨fun s => ⟨aluStep_of_not_started, aluStep_of_missing, fun a b started ha hb => ?_⟩, fun p a b =>
    ⟨aluCompute_none p a b, aluCompute_add p a b, aluCompute_subtract p a b, aluCompute_multiply p a b,
      aluCompute_divide p a b⟩⟩
  refine ⟨_, aluStep_of_operands started ha hb, rfl, rfl, rfl, rfl, rfl, ?_⟩
  simp only [Alu.computed]
  refine ⟨?_, ?_, ?_, ?_, ?_⟩
  all_goals
    intro ctl
    rw [ctl]
    exact ⟨rfl, rfl⟩

/-! ### The merge of the flags (R150) -/

theorem aluDivide_ov_uf (table : RemainderTable) (a b : BitVector) :
    (aluDivide table a b).2.ov = none ∧ (aluDivide table a b).2.uf = none := by
  by_cases hb : b.sval = 0
  · rw [aluDivide_of_eq_zero table a hb]
    exact ⟨rfl, rfl⟩
  · rw [aluDivide_of_ne_zero table a hb]
    exact ⟨rfl, rfl⟩

/-- Settles O16: ADD, SUBTRACT and MULTIPLY leave their absent flags by definition, DIVIDE on either branch. -/
theorem flagMergeWritesDefinedFlags : Obligations.FlagMergeWritesDefinedFlags := by
  intro cc rule table a b
  obtain ⟨ov, uf⟩ := aluDivide_ov_uf table a b
  refine ⟨rfl, rfl, rfl, rfl, ?_, ?_, fun g => ?_⟩
  · rw [CondCodes.merge, ov, Option.getD_none]
  · rw [CondCodes.merge, uf, Option.getD_none]
  · obtain ⟨ov, uf, dz⟩ := g
    rw [CondCodes.merge, CondCodes.mk.injEq]
    refine ⟨?_, ?_, ?_⟩
    · cases ov <;> rfl
    · cases uf <;> rfl
    · cases dz <;> rfl

end Sys2Proof.Machine
end

section
/-! The effective address (spec/41_cycle_and_ea.md R185, R186): the index register a field names, the address each mode
gives, and the indirections no memory backs. -/

namespace Sys2Proof.Machine

/-- Index register 0 does not exist (R23). -/
theorem indexOf_eq_none_iff {field : BitVec 2} : indexOf field = none ↔ field = 0 := by
  revert field
  decide

theorem indexOf_eq_some_iff {field : BitVec 2} {j : Fin 3} : indexOf field = some j ↔ j.val + 1 = field.toNat := by
  revert field j
  decide

section Modes
variable {f : Fields} {s : State}

/-- Where R185's table gives an address, `computeEA` answers it and changes recency and allocation alone. -/
theorem computeEA_of_effectiveAddress (h : s.MemoryOk) {ea : Nat} (value : s.effectiveAddress f = some ea) :
    ∃ t, computeEA f s = .ok ea t ∧ t = { s with mem := t.mem } ∧ t.MemoryOk ∧ t.mem.pending = s.mem.pending ∧
      s.SameMemory t := by
  obtain ⟨m, kept, ⟨a, found, ok⟩ | ⟨_, _, missing, _⟩⟩ := computeEA_cases h f
  · obtain rfl : a = ea := Option.some.inj (found.symm.trans value)
    exact ⟨_, ok, rfl, kept.ok, kept.pending, kept.same⟩
  · rw [missing] at value
    cases value

/-- The address the second read of an indirection names (R185). -/
def State.pointer (s : State) (f : Fields) : Nat :=
  match indexOf f.x with
  | none => (s.memval f.addr.toNat).toNat
  | some j => (s.getIx j).toNat + (s.memval f.addr.toNat).toNat

/-- An indirection is the read of its pointer, and then the read the pointer names (R185). -/
theorem computeEA_indirect (h : s.MemoryOk) (hi : f.i = true) :
    computeEA f s =
      (directRead (s.pointer f) { s with mem := s.memAfterRead f.addr.toNat }).bind fun w t => .ok w.toNat t := by
  have first := directRead_eq h (addr_valid f)
  unfold computeEA State.pointer
  rw [hi]
  cases indexOf f.x with
  | none => simp only [first, Res.bind_ok]
  | some j =>
    simp only [first, Res.bind_ok]
    rfl

theorem computeEA_of_invalid_pointer (h : s.MemoryOk) (hi : f.i = true) (invalid : ¬validAddress (s.pointer f)) :
    ∃ t, computeEA f s = .raise (.illegalMemoryAddress (s.pointer f)) t ∧ t = { s with mem := t.mem } ∧ t.MemoryOk ∧
      s.SameMemory t := by
  have kept := memAfterRead_kept h (addr_valid f)
  refine ⟨{ s with mem := s.memAfterRead f.addr.toNat }, ?_, rfl, kept.ok, kept.same⟩
  rw [computeEA_indirect h hi, directRead_invalid invalid, Res.bind_raise]

end Modes

/-- Settles O23: direct, indexed, indirect and indexed indirect, each by its row of R185's table. -/
theorem effectiveAddressModes : Obligations.EffectiveAddressModes := by
  intro f s h
  refine ⟨fun hi hx => ?_, fun j hi hj => ?_, fun hi hx valid => ?_, fun j hi hj valid => ?_⟩
  · simp [computeEA, hi, indexOf_eq_none_iff.2 hx]
  · exact computeEA_of_effectiveAddress h (by simp [State.effectiveAddress, hi, indexOf_eq_some_iff.2 hj])
  · exact computeEA_of_effectiveAddress h (by simp [State.effectiveAddress, hi, indexOf_eq_none_iff.2 hx, valid])
  · exact computeEA_of_effectiveAddress h (by simp [State.effectiveAddress, hi, indexOf_eq_some_iff.2 hj, valid])

/-- Settles O24: the first read is of an address below 256, so the one that faults is the pointer's. -/
theorem invalidIndirectionRaises : Obligations.InvalidIndirectionRaises := by
  intro f s h hi
  refine ⟨fun hx invalid => ?_, fun j hj invalid => ?_⟩
  · have pointer : s.pointer f = (s.memval f.addr.toNat).toNat := by simp [State.pointer, indexOf_eq_none_iff.2 hx]
    rw [← pointer] at invalid ⊢
    exact computeEA_of_invalid_pointer h hi invalid
  · have pointer : s.pointer f = (s.getIx j).toNat + (s.memval f.addr.toNat).toNat := by
      simp [State.pointer, indexOf_eq_some_iff.2 hj]
    rw [← pointer] at invalid ⊢
    exact computeEA_of_invalid_pointer h hi invalid

end Sys2Proof.Machine
end

section
/-! The micro-steps of the instructions with a memory operand (spec/41_cycle_and_ea.md R187, R188, spec/42_load_store.md
R210): E0 computes the effective address and E1 issues the request, said once for all seven, and what an address no
memory backs comes to in each. -/

namespace Sys2Proof.Machine

/-- The run of i's handler, a tick at a time. -/
def handlerTick (i : Instr) : State → Host.Outcome State Fault Refusal := tickOf fun s => handlerOf i s.micro s

theorem exec_eq_runWhile (i : Instr) (s : State) :
    exec i s = runWhile (fun t => !t.atBoundary) (handlerTick i) (enterExecute s).tickBudget (enterExecute s) := by
  rw [exec_eq_runHandler]
  rfl

section Operand
variable {i : Instr} {s : State}

/-! ### E0 and E1 -/

theorem handlerOf_zero_failFast (hi : isArithmetic i = true) (policy : s.cfg.arithPolicy = .failFast) :
    handlerOf i 0 s = .stop .notImplemented := by
  cases i with
  | amr f | smr f | air f | sir f => simp [handlerOf, amrStep, smrStep, airStep, sirStep, unlessFailFast, policy]
  | ldr f | str f | lda f | ldx f | stx f | jne f | jcc f | sob f | jge f => cases hi

theorem handlerOf_zero_of_usesMemory (user : usesMemory i = true)
    (policy : isArithmetic i = true → s.cfg.arithPolicy = .implement) : handlerOf i 0 s = eaStep i.fields s := by
  cases i with
  | ldr f | str f | lda f | ldx f | stx f => rfl
  | amr f | smr f => simp [handlerOf, amrStep, smrStep, unlessFailFast, policy rfl, Instr.fields]
  | air f | sir f | jne f | jcc f | sob f | jge f => cases user

/-- MBR as E1 leaves it: a store puts its Word there (R212, R215). -/
def State.requestWord (s : State) : Instr → Word
  | .str f => s.getGpr f.r
  | .stx f => ((indexOf f.x).map fun j => (s.getIx j).setWidth 20).getD s.mbr
  | _ => s.mbr

theorem requestWord_of_load (load : isStore i = false) : s.requestWord i = s.mbr := by
  cases i with
  | str f | stx f => cases load
  | ldr f | lda f | ldx f | amr f | smr f | air f | sir f | jne f | jcc f | sob f | jge f => rfl

theorem requestWord_stx {f : Fields} {j : Fin 3} (hj : j.val + 1 = f.x.toNat) :
    s.requestWord (.stx f) = BitVec.ofNat 20 (s.getIx j).toNat := by
  simp [State.requestWord, indexOf_eq_some_iff.2 hj]

/-- The state E1 leaves when the effective address fits MAR. -/
def State.requesting (s : State) (i : Instr) : State :=
  { s with
    mar := BitVec.ofNat 13 s.ea
    mbr := s.requestWord i
    mcuState := if isStore i = true then .preStore else .preFetch
    micro := s.micro + 1 }

theorem requesting_isBusy : (s.requesting i).isBusy = true := by
  unfold State.requesting State.isBusy
  cases isStore i <;> rfl

theorem requesting_mar (i : Instr) (fits : s.ea ≤ 8191) : (s.requesting i).mar.toNat = s.ea :=
  Nat.mod_eq_of_lt (by omega)

theorem fetchOperandStep_idle (idle : s.isBusy = false) (load : isStore i = false) :
    fetchOperandStep s =
      if s.ea ≤ 8191 then .ok () (s.requesting i) else .raise (.illegalMemoryAddress s.ea) s := by
  rw [fetchOperandStep, holdIfBusy_idle idle, loadMar, State.requesting, requestWord_of_load load, load]
  split <;> rfl

theorem storeOperandStep_idle (idle : s.isBusy = false) (store : isStore i = true) :
    storeOperandStep (s.requestWord i) s =
      if s.ea ≤ 8191 then .ok () (s.requesting i) else .raise (.illegalMemoryAddress s.ea) s := by
  rw [storeOperandStep, holdIfBusy_idle idle, loadMar, State.requesting, store]
  split <;> rfl

/-- E1 issues the request, unless the address does not fit MAR (R188); STX needs an index register to store. -/
theorem handlerOf_one_of_usesMemory (user : usesMemory i = true) (source : ∀ f, i = .stx f → f.x ≠ 0)
    (idle : s.isBusy = false) :
    handlerOf i 1 s =
      if s.ea ≤ 8191 then .ok () (s.requesting i) else .raise (.illegalMemoryAddress s.ea) s := by
  cases i with
  | ldr f | lda f | ldx f | amr f | smr f => exact fetchOperandStep_idle idle rfl
  | str f => exact storeOperandStep_idle (i := .str f) idle rfl
  | stx f =>
    rw [← storeOperandStep_idle idle rfl, handlerOf]
    cases hj : indexOf f.x with
    | none => exact absurd (indexOf_eq_none_iff.1 hj) (source f rfl)
    | some j => simp [stxStep, State.requestWord, hj]
  | air f | sir f | jne f | jcc f | sob f | jge f => cases user

/-! ### Faults of the effective address -/

/-- The state E0 leaves. -/
def State.addressed (s : State) (m : MemorySystem) (ea : Nat) : State := advance { s with mem := m, ea := ea }

theorem handlerTick_ea (h : s.Attended i) (user : usesMemory i = true) (start : s.micro = 0)
    (policy : isArithmetic i = true → s.cfg.arithPolicy = .implement) {ea : Nat} {u : State}
    (value : computeEA i.fields s = .ok ea u) :
    ∃ m, MemoryKept s m ∧ u = { s with mem := m } ∧ handlerTick i s = .next (s.addressed m ea) := by
  have idle := h.idle_of_micro (by omega)
  have first : handlerOf i s.micro s = eaStep i.fields s := start ▸ handlerOf_zero_of_usesMemory user policy
  obtain ⟨m, kept, ⟨a, -, ok⟩ | ⟨_, _, _, raised⟩⟩ := computeEA_cases h.memory i.fields
  · obtain ⟨rfl, rfl⟩ := Res.ok.inj (value.symm.trans ok)
    have control : handlerOf i s.micro s = .ok () (s.addressed m ea) := by
      rw [first, eaStep, value]
      rfl
    exact ⟨m, kept, rfl, tickOf_idle control h.alu_idle idle (kept.pending.trans (h.load.no_load idle))⟩
  · rw [raised] at value
    cases value

theorem handlerTick_ea_raised (h : s.Attended i) (user : usesMemory i = true) (start : s.micro = 0)
    (policy : isArithmetic i = true → s.cfg.arithPolicy = .implement) {g : MachineFault} {u : State}
    (raised : computeEA i.fields s = .raise g u) :
    (∃ a, g = .illegalMemoryAddress a ∧ ¬validAddress a) ∧
      ∃ m, MemoryKept s m ∧ handlerTick i s = .next (takeFault g { s with mem := m }) := by
  have first : handlerOf i s.micro s = eaStep i.fields s := start ▸ handlerOf_zero_of_usesMemory user policy
  obtain ⟨m, kept, ⟨a, -, ok⟩ | ⟨a, invalid, -, fault⟩⟩ := computeEA_cases h.memory i.fields
  · rw [ok] at raised
    cases raised
  · obtain ⟨rfl, rfl⟩ := Res.raise.inj (raised.symm.trans fault)
    have control : handlerOf i s.micro s = .raise (.illegalMemoryAddress a) { s with mem := m } := by
      rw [first, eaStep, raised, Res.bind_raise]
    exact ⟨⟨a, rfl, invalid⟩, m, kept, tickOf_raise control⟩

/-- E1 with an address no memory backs: it does not fit MAR, or the request for it is refused in the same tick (R188,
R271). -/
theorem handlerTick_unbacked (h : s.Attended i) (user : usesMemory i = true) (source : ∀ f, i = .stx f → f.x ≠ 0)
    (second : s.micro = 1) (invalid : ¬validAddress s.ea) :
    handlerTick i s =
      .next (takeFault (.illegalMemoryAddress s.ea) (if s.ea ≤ 8191 then s.requesting i else s)) := by
  have idle := h.idle_of_micro (by omega)
  have control := handlerOf_one_of_usesMemory user source idle
  rw [← second] at control
  split_ifs at control ⊢ with fits
  · have mar := requesting_mar i fits
    have request : memoryStep (s.requesting i) = .raise (.illegalMemoryAddress s.ea) (s.requesting i) := by
      rw [memoryStep_invalid requesting_isBusy (h.load.no_load idle) (by rwa [mar]), mar]
    exact (tickOf_memory control h.alu_idle).trans (congrArg Res.settle request)
  · exact tickOf_raise control

end Operand

/-! ### Vectoring a fault of the execute phase -/

section Vectoring
variable {s u t : State} {g : MachineFault}

/-- Up to the fault nothing is written but the latches and the sequencer (R277). -/
theorem State.Vectored.of_frame (vectored : u.Vectored t g) (memory : s.SameMemory u)
    (frame : u = { s with
      mem := u.mem, mar := u.mar, mbr := u.mbr, mcuState := u.mcuState, phase := u.phase, micro := u.micro
      ea := u.ea }) :
    s.Vectored t g := by
  obtain ⟨mfr, ⟨saved, others⟩, pc, mcu, alu, sequencer, gpr, ix, cc, msr, ir, cfg, outcome⟩ := vectored
  rw [frame] at mfr saved others gpr ix cc msr ir cfg outcome
  exact ⟨mfr, ⟨saved, fun a ha hne => (others a ha hne).trans (memory a ha)⟩, pc, mcu, alu, sequencer, gpr, ix, cc,
    msr, ir, cfg, outcome⟩

end Vectoring

theorem addressed_attended {i : Instr} {s : State} {m : MemorySystem} (h : s.Attended i) (idle : s.isBusy = false)
    (kept : MemoryKept s m) (ea : Nat) : (s.addressed m ea).Attended i :=
  attended_of_idle (kept.ok.of_mem rfl rfl) idle (kept.pending.trans (h.load.no_load idle)) h.alu_idle

theorem tickBudget_eq (s : State) : ∃ n, s.tickBudget = n + 2 :=
  ⟨s.tickBudget - 2, by unfold State.tickBudget; omega⟩

/-- Settles O39: E0 raises the fault of its read, and it is vectored in that tick. -/
theorem unbackedIndirectionFaults : Obligations.UnbackedIndirectionFaults := by
  intro i s u g ready user raised policy
  obtain ⟨invalid, m, kept, vectors⟩ := handlerTick_ea_raised ready.attended user rfl policy raised
  have ok : State.MemoryOk { enterExecute s with mem := m } := kept.ok
  obtain ⟨vectored, again⟩ := takeFault_vectored ok g
  obtain ⟨n, budget⟩ := tickBudget_eq (enterExecute s)
  have run : exec i s = .next (takeFault g { enterExecute s with mem := m }) := by
    rw [exec_eq_runWhile, budget]
    exact runWhile_last _ vectors rfl
  exact ⟨_, run, vectored.of_frame kept.same rfl, again, rfl, rfl, rfl, rfl, rfl, rfl, invalid⟩

/-- Settles O38: E0 latches the address, and E1 raises its fault before or after the request is issued. -/
theorem unbackedEffectiveAddressFaults : Obligations.UnbackedEffectiveAddressFaults := by
  intro i s u ea ready user value invalid policy source
  obtain ⟨m, kept, -, first⟩ := handlerTick_ea ready.attended user rfl policy value
  have attended : ((enterExecute s).addressed m ea).Attended i := addressed_attended ready.attended ready.idle kept ea
  have second := handlerTick_unbacked attended user source rfl invalid
  obtain ⟨n, budget⟩ := tickBudget_eq (enterExecute s)
  have run := exec_eq_runWhile i s
  rw [budget, runWhile_more _ first rfl, runWhile_last _ second rfl] at run
  split_ifs at run with fits
  · have ok : (((enterExecute s).addressed m ea).requesting i).MemoryOk := attended.memory.of_mem rfl rfl
    obtain ⟨vectored, again⟩ := takeFault_vectored ok (.illegalMemoryAddress ea)
    refine ⟨_, run, vectored.of_frame kept.same rfl, again, fun wide => absurd wide (Nat.not_lt.2 fits),
      fun _ => requesting_mar i fits, fun load => ?_, fun f e _ => ?_, fun f j e hj _ => ?_, rfl, rfl, rfl, rfl⟩
    · exact requestWord_of_load (load.resolve_right (Nat.not_lt.2 fits))
    · subst e
      rfl
    · subst e
      exact requestWord_stx hj
  · obtain ⟨vectored, again⟩ := takeFault_vectored attended.memory (.illegalMemoryAddress ea)
    exact ⟨_, run, vectored.of_frame kept.same rfl, again, fun _ => rfl, fun small => absurd small fits, fun _ => rfl,
      fun f _ small => absurd small fits, fun f j _ _ small => absurd small fits, rfl, rfl, rfl, rfl⟩

end Sys2Proof.Machine
end

section
/-! The execute phase under the sequencer (spec/41_cycle_and_ea.md R180 to R191): what a tick of it can do, and where the
step it belongs to leaves the PC. -/

namespace Sys2Proof.Machine

/-- The sequencer dispatches each tick to i's handler (R184). -/
structure State.Dispatches (i : Instr) (s : State) : Prop where
  phase : s.phase = .execute
  decoded : instrOf s.cfg.opcodes s.dec = .ok i
  running : s.outcome = .running

/-- Between two ticks of the execute phase of i. -/
structure State.Executing (i : Instr) (s : State) : Prop where
  dispatches : s.Dispatches i
  attended : s.Attended i

section Executing
variable {i : Instr} {s t u : State}

theorem State.Dispatches.inside (h : s.Dispatches i) : s.atBoundary = false := by
  simp [State.atBoundary, h.phase]

theorem State.Dispatches.tick_eq (h : s.Dispatches i) : tick s = handlerTick i s := by
  have control : controlStep s = handlerOf i s.micro s := by
    simp only [controlStep, h.phase, dispatchHandler, h.decoded]
  rw [tick_running h.running, tickOf, tickBody, control]
  rfl

theorem State.Dispatches.of_frame (h : s.Dispatches i) (phase : t.phase = s.phase) (cfg : t.cfg = s.cfg)
    (dec : t.dec = s.dec) (outcome : t.outcome = s.outcome) : t.Dispatches i :=
  ⟨phase.trans h.phase, by rw [cfg, dec, h.decoded], outcome.trans h.running⟩

theorem State.Fetched.executing {w : Word} (h : s.Inv) (fetched : s.Fetched u w)
    (hi : decode s.cfg.opcodes w = .ok i) : u.Executing i := by
  obtain ⟨phase, -⟩ := fetched.execute
  have decoded : instrOf u.cfg.opcodes u.dec = .ok i := by rw [fetched.cfg, fetched.dec]; exact hi
  exact ⟨⟨phase, decoded, fetched.outcome.trans h.running⟩, fetched.entered ▸ fetched.ready.attended⟩

/-- A tick of the handler completes the instruction, at the next Word, or stays in the execute phase (R189, R190). -/
theorem State.TickMove.completed_or_executing (h : s.Executing i) (move : s.TickMove i (.ok () t)) :
    t.atBoundary = true ∧ t.pc = s.pc + 1 ∨ t.Executing i ∧ t.pc = s.pc := by
  have attended := move.attended h.attended
  cases move with
  | @serves v _ asked move =>
    have dispatches : v.Dispatches i :=
      h.dispatches.of_frame (by rw [asked.frame]) (by rw [asked.frame]) (by rw [asked.frame]) (by rw [asked.frame])
    have pc := congrArg State.pc asked.frame
    cases move with
    | waits n _ _ _ => exact .inr ⟨⟨dispatches.of_frame rfl rfl rfl rfl, attended⟩, pc⟩
    | fetches _ _ _ => exact .inr ⟨⟨dispatches.of_frame rfl rfl rfl rfl, attended⟩, pc⟩
    | stores _ _ _ => exact .inr ⟨⟨dispatches.of_frame rfl rfl rfl rfl, attended⟩, pc⟩
  | advances _ _ _ => exact .inr ⟨⟨h.dispatches.of_frame rfl rfl rfl rfl, attended⟩, rfl⟩
  | computes _ => exact .inr ⟨⟨h.dispatches.of_frame rfl rfl rfl rfl, attended⟩, rfl⟩
  | completes _ => exact .inl ⟨rfl, rfl⟩

/-- A tick of the execute phase ends it, at the next Word or at the fault entry, or stays in it. -/
theorem handlerTick_next (h : s.Executing i) (ht : handlerTick i s = .next t) :
    t.atBoundary = true ∧ (t.pc = s.pc + 1 ∨ t.pc = 43) ∨ t.Executing i ∧ t.pc = s.pc := by
  have move := tickBody_move h.attended
  rcases tickOf_next ht with ok | ⟨f, u, -, rfl⟩
  · rw [ok] at move
    exact (move.completed_or_executing h).imp (fun ⟨boundary, pc⟩ => ⟨boundary, .inl pc⟩) id
  · exact .inl ⟨rfl, .inr rfl⟩

theorem exec_pc (h : (enterExecute s).Executing i) (run : exec i s = .next t) : t.pc = s.pc + 1 ∨ t.pc = 43 := by
  rw [exec_eq_runWhile] at run
  have last := runWhile_invariant (P := fun u => u.Executing i ∧ u.pc = s.pc)
    (Q := fun u => u.atBoundary = true ∧ (u.pc = s.pc + 1 ∨ u.pc = 43) ∨ u.Executing i ∧ u.pc = s.pc)
    (fun u hu more => hu.resolve_left fun ⟨boundary, _⟩ => by simp [boundary] at more)
    (fun u v ⟨executing, pc⟩ hv => pc ▸ handlerTick_next executing hv) _ ⟨h, rfl⟩ run
  obtain ⟨-, pc⟩ | ⟨executing, -⟩ := last
  · exact pc
  · simpa [executing.dispatches.inside] using runWhile_ends _ run

end Executing

/-- Settles O43: fetch and decode leave the execute phase of the instruction the Word decodes to. -/
theorem stepRunsTheDecodedInstruction : Obligations.StepRunsTheDecodedInstruction := by
  intro s i h ha hi
  obtain ⟨u, fetched, -, run, -⟩ := step_of_backed_pc h ha
  exact ⟨u, fetched, run.trans (executeDecoded_of_decode fetched hi)⟩

/-- Settles O51: a fetch fault, an opcode without a handler, and otherwise the end of a handler's run. -/
theorem controlOnlyAdvancesOrVectors : Obligations.ControlOnlyAdvancesOrVectors := by
  intro s t h ht
  by_cases ha : validAddress s.pc.toNat
  · obtain ⟨u, fetched, -, run, -⟩ := step_of_backed_pc h ha
    rw [run] at ht
    cases hd : decode s.cfg.opcodes (s.memval s.pc.toNat) with
    | ok i =>
      rw [executeDecoded_of_decode fetched hd] at ht
      rw [← fetched.pc]
      exact exec_pc (fetched.entered.symm ▸ fetched.executing h hd) ht
    | error e =>
      obtain ⟨op⟩ := e
      rw [executeDecoded_of_noMnemonic fetched hd, execNoHandler_eq] at ht
      cases ht
      exact .inr rfl
  · rw [step_of_unbacked_pc h ha] at ht
    cases ht
    exact .inr rfl

end Sys2Proof.Machine
end

section
/-! How many ticks an instruction takes (spec/41_cycle_and_ea.md R193, R194): one for each micro-step, and those of a
block load where a clocked request misses the cache. -/

namespace Sys2Proof.Machine

/-! ### Runs of ticks -/

/-- n ticks from s lead to t, each to a state that asks for more. -/
inductive State.Passes (more : State → Bool) : Nat → State → State → Prop
  | refl (s : State) : Passes more 0 s s
  | tick {n : Nat} {s u t : State} (ht : tick s = .next u) (hm : more u = true) (rest : Passes more n u t) :
      Passes more (n + 1) s t

/-- The run of ticks from s ends in t, the first state that asks for no more. -/
def State.RunsTo (more : State → Bool) (s t : State) : Prop := ∃ n, runWhile more tick n s = .next t

/-- The ticks of an execute phase go on until an instruction boundary. -/
def State.inside (s : State) : Bool := !s.atBoundary

section Runs
variable {more : State → Bool} {n : Nat} {s t u : State}

theorem State.RunsTo.first (h : s.RunsTo more t) :
    ∃ u, tick s = .next u ∧ (more u = true ∧ u.RunsTo more t ∨ more u = false ∧ u = t) := by
  obtain ⟨n, run⟩ := h
  cases n with
  | zero => cases run
  | succ n =>
    cases ht : tick s with
    | next u =>
      refine ⟨u, rfl, ?_⟩
      cases hm : more u with
      | true => exact .inl ⟨rfl, n, (runWhile_more n ht hm).symm.trans run⟩
      | false => exact .inr ⟨rfl, Host.Outcome.next.inj ((runWhile_last n ht hm).symm.trans run)⟩
    | fault r =>
      rw [runWhile_fault n ht] at run
      cases run
    | refused r =>
      rw [runWhile_refused n ht] at run
      cases run

theorem State.RunsTo.of_next (h : s.RunsTo more t) (ht : tick s = .next u) :
    more u = true ∧ u.RunsTo more t ∨ more u = false ∧ u = t := by
  obtain ⟨v, hv, rest⟩ := h.first
  obtain rfl : v = u := Host.Outcome.next.inj (hv.symm.trans ht)
  exact rest

theorem State.RunsTo.next (h : s.RunsTo more t) (ht : tick s = .next u) (hm : more u = true) : u.RunsTo more t := by
  obtain ⟨-, rest⟩ | ⟨stops, -⟩ := h.of_next ht
  · exact rest
  · simp [hm] at stops

theorem State.RunsTo.last (h : s.RunsTo more t) (ht : tick s = .next u) (hm : more u = false) : u = t := by
  obtain ⟨goes, -⟩ | ⟨-, same⟩ := h.of_next ht
  · simp [hm] at goes
  · exact same

theorem State.RunsTo.after (h : s.RunsTo more t) (passes : s.Passes more n u) : u.RunsTo more t := by
  induction passes with
  | refl s => exact h
  | tick ht hm _ ih => exact ih (h.next ht hm)

theorem reachesIn_one (ht : tick s = .next t) : s.ReachesIn 1 t :=
  ⟨by simp only [ticks, ht], fun j pos lt => absurd pos (by omega)⟩

theorem State.Passes.reachesIn (inside : ∀ v, more v = true → v.atBoundary = false) (h : s.Passes more n t) :
    s.ReachesIn n t := by
  induction h with
  | refl s => exact ⟨rfl, fun j _ lt => absurd lt (Nat.not_lt_zero j)⟩
  | @tick n s u t ht hm _ ih =>
    rw [Nat.add_comm]
    exact (reachesIn_one ht).trans ih (inside u hm)

/-- Two ways to make a tick that agree where the run comes by make one run. -/
theorem runWhile_congr {one two : State → Host.Outcome State Fault Refusal} {P : State → Prop}
    (agree : ∀ u, P u → one u = two u) (keeps : ∀ u v, P u → two u = .next v → more v = true → P v) (n : Nat)
    (hs : P s) : runWhile more one n s = runWhile more two n s := by
  induction n generalizing s with
  | zero => rfl
  | succ n ih =>
    cases ht : two s with
    | next u =>
      have same := (agree s hs).trans ht
      cases hm : more u with
      | true => rw [runWhile_more n same hm, runWhile_more n ht hm, ih (keeps s u hs ht hm)]
      | false => rw [runWhile_last n same hm, runWhile_last n ht hm]
    | fault r => rw [runWhile_fault n ht, runWhile_fault n ((agree s hs).trans ht)]
    | refused r => rw [runWhile_refused n ht, runWhile_refused n ((agree s hs).trans ht)]

end Runs

/-! ### A clocked request -/

section Request
variable {more : State → Bool} {r s t : State}

theorem memorySteps_fetch_value (h : s.MemoryOk) (hp : s.mem.pending = none)
    (load : s.cfg.cacheEnabled = true → 1 ≤ s.cfg.blockLoadTicks) (hq : s.mcuState = .preFetch)
    (ha : validAddress s.mar.toNat) :
    ∃ m, MemoryKept s m ∧ memorySteps (s.missTicks s.mar.toNat + 1) s =
      .ok () { s with mem := m, mbr := s.memval s.mar.toNat, mcuState := .none } := by
  cases he : s.cfg.cacheEnabled with
  | true => exact ⟨_, memAfterRead_kept h ha, memorySteps_fetch h hp (load he) hq ha⟩
  | false =>
    obtain ⟨m, kept, served⟩ | ⟨enabled, -⟩ := fetch_issued h hp hq ha
    · exact ⟨m, kept, by rw [missTicks_disabled he, memorySteps_one, served]⟩
    · simp [he] at enabled

theorem memorySteps_store_done (h : s.MemoryOk) (hp : s.mem.pending = none)
    (load : s.cfg.cacheEnabled = true → 1 ≤ s.cfg.blockLoadTicks) (hq : s.mcuState = .preStore)
    (ha : validAddress s.mar.toNat) :
    ∃ m, memorySteps (s.missTicks s.mar.toNat + 1) s = .ok () { s with mem := m, mcuState := .none } := by
  cases he : s.cfg.cacheEnabled with
  | true => exact ⟨_, memorySteps_store h hp (load he) hq ha⟩
  | false =>
    obtain ⟨m, -, -, -, served⟩ | ⟨enabled, -⟩ := store_issued h hp hq ha
    · exact ⟨m, by rw [missTicks_disabled he, memorySteps_one, served]⟩
    · simp [he] at enabled

theorem memorySteps_request (h : s.MemoryOk) (hp : s.mem.pending = none)
    (load : s.cfg.cacheEnabled = true → 1 ≤ s.cfg.blockLoadTicks) (hb : s.isBusy = true)
    (ha : validAddress s.mar.toNat) :
    ∃ m w, memorySteps (s.missTicks s.mar.toNat + 1) s = .ok () { s with mem := m, mbr := w, mcuState := .none } := by
  rcases isBusy_cases hb with hq | hq
  · obtain ⟨m, -, served⟩ := memorySteps_fetch_value h hp load hq ha
    exact ⟨m, _, served⟩
  · obtain ⟨m, served⟩ := memorySteps_store_done h hp load hq ha
    exact ⟨m, s.mbr, served⟩

/-- Each tick of a block load is a memory step (R86). -/
theorem loading_passes (hold : Holding more tick s) (he : s.cfg.cacheEnabled = true) (hb : s.isBusy = true)
    (ha : validAddress s.mar.toNat) (hl : s.mem.lineOf (tagOf s.mar.toNat) = none) {m : MemorySystem} {w : Word}
    (arrives : memoryStep (s.loading 1) = .ok () { s with mem := m, mbr := w, mcuState := .none }) (k : Nat) :
    (s.loading (k + 1)).Passes more (k + 1) { s with mem := m, mbr := w, mcuState := .none } := by
  induction k with
  | zero => exact .tick ((hold.tick _).trans (congrArg Res.settle arrives)) (hold.more m w _) (.refl _)
  | succ k ih =>
    have counts : memoryStep (s.loading (k + 1 + 1)) = .ok () (s.loading (k + 1)) :=
      request_waits (s := s.loading (k + 1 + 1)) he rfl (by omega) hb ha hl
    exact .tick ((hold.tick _).trans (congrArg Res.settle counts)) (hold.more _ s.mbr s.mcuState) ih

/-- The ticks of a request are its memory steps: the tick that issues it, and on a miss those of the load (R193). -/
theorem request_passes (issued : tick r = (memoryStep s).settle) (hold : Holding more tick s)
    (hp : s.mem.pending = none) (load : s.cfg.cacheEnabled = true → 1 ≤ s.cfg.blockLoadTicks) (hb : s.isBusy = true)
    (ha : validAddress s.mar.toNat) {m : MemorySystem} {w : Word}
    (served : memorySteps (s.missTicks s.mar.toNat + 1) s = .ok () { s with mem := m, mbr := w, mcuState := .none }) :
    r.Passes more (s.missTicks s.mar.toNat + 1) { s with mem := m, mbr := w, mcuState := .none } := by
  have hit (none_missed : s.missTicks s.mar.toNat = 0) :
      r.Passes more (s.missTicks s.mar.toNat + 1) { s with mem := m, mbr := w, mcuState := .none } := by
    rw [none_missed, memorySteps_one] at served
    rw [none_missed]
    exact .tick (issued.trans (congrArg Res.settle served)) (hold.more m w _) (.refl _)
  cases he : s.cfg.cacheEnabled with
  | false => exact hit (missTicks_disabled he _)
  | true =>
    cases hl : s.mem.lineOf (tagOf s.mar.toNat) with
    | some i => exact hit (missTicks_held hl)
    | none =>
      rw [memorySteps_of_miss he hp hb ha hl (load he)] at served
      have missed := request_misses he hp hb ha hl
      obtain ⟨k, hk⟩ := Nat.exists_eq_add_of_le' (load he)
      rw [missTicks_missed he hl, hk]
      rw [hk] at missed
      exact .tick (issued.trans (congrArg Res.settle missed)) (hold.more _ s.mbr s.mcuState)
        (loading_passes hold he hb ha hl served k)

end Request

/-! ### Fetch and decode -/

section Fetch
variable {s : State}

theorem tick_fetchedTo (h : s.Inv) {m : MemorySystem} (hm : m.pending = none) (w : Word) :
    tick (s.fetchedTo m w) = .next (s.latchedTo m w) := by
  obtain ⟨phase, -⟩ := h.at_fetch
  have running : (s.fetchedTo m w).outcome = .running := h.running
  have control : controlStep (s.fetchedTo m w) = .ok () (s.latchedTo m w) := by
    have fetch : (s.fetchedTo m w).phase = .fetch := phase
    have second : (s.fetchedTo m w).micro ≠ 0 := Nat.one_ne_zero
    simp only [controlStep, fetch, second, if_false, fetchLatchStep]
    exact holdIfBusy_idle rfl _
  rw [tick_running running, tickOf_idle control h.alu_idle rfl hm]

theorem tick_latchedTo (h : s.Inv) {m : MemorySystem} (hm : m.pending = none) (w : Word) :
    tick (s.latchedTo m w) = .next (s.decodedTo m w) := by
  have running : (s.latchedTo m w).outcome = .running := h.running
  have control : controlStep (s.latchedTo m w) = .ok () (s.decodedTo m w) := rfl
  rw [tick_running running, tickOf_idle control h.alu_idle rfl hm]

theorem fetch_passes (h : s.Inv) (load : s.cfg.cacheEnabled = true → 1 ≤ s.cfg.blockLoadTicks)
    (ha : validAddress s.pc.toNat) :
    ∃ m, MemoryKept s m ∧
      s.Passes State.stillFetching (s.missTicks s.pc.toNat + 1) (s.fetchedTo m (s.memval s.pc.toNat)) := by
  have ok : s.fetching.MemoryOk := h.memory.of_mem rfl rfl
  obtain ⟨m, kept, served⟩ := memorySteps_fetch_value ok h.no_load load rfl ha
  exact ⟨m, ⟨kept.ok.of_mem rfl rfl, kept.pending, kept.same⟩,
    request_passes (tick_boundary h) (fetching_holding h) h.no_load load rfl ha served⟩

/-- F0 with the ticks of a miss, F1 and D0 (R181 to R183). -/
theorem fetchAndDecode_reachesIn (h : s.Inv) (load : s.cfg.cacheEnabled = true → 1 ≤ s.cfg.blockLoadTicks)
    (ha : validAddress s.pc.toNat) :
    ∃ u, s.Fetched u (s.memval s.pc.toNat) ∧ step s = executeDecoded u ∧
      s.ReachesIn (3 + s.missTicks s.pc.toNat) u := by
  obtain ⟨m, kept, passes⟩ := fetch_passes h load ha
  have hm := kept.pending.trans h.no_load
  have latch := tick_fetchedTo h hm (s.memval s.pc.toNat)
  have decode := tick_latchedTo h hm (s.memval s.pc.toNat)
  refine ⟨_, decodedTo_fetched h kept _, ?_, ?_⟩
  · obtain ⟨phase, -⟩ := h.at_fetch
    obtain ⟨u, -, -, run, -⟩ := fetchAndDecode_of_inv h ha
    have runs : s.RunsTo State.stillFetching u := ⟨s.tickBudget, by simpa [fetchAndDecode, phase] using run⟩
    obtain rfl := ((runs.after passes).next latch rfl).last decode rfl
    simp [step, h.running, run, State.decodedTo]
  · have boundaries (v : State) (more : v.stillFetching = true) : v.atBoundary = false := by
      simp only [State.stillFetching, Bool.and_eq_true, Bool.not_eq_true'] at more
      obtain ⟨-, outside⟩ := more
      exact outside
    have fetched := passes.reachesIn boundaries
    have latched := (reachesIn_one latch).trans (reachesIn_one decode) rfl
    have reached := fetched.trans latched (by simp [State.atBoundary, State.fetchedTo])
    rwa [Nat.add_assoc, Nat.add_comm] at reached

end Fetch

end Sys2Proof.Machine
end

section
/-! The ticks of an execute phase, micro-step by micro-step (spec/41_cycle_and_ea.md R184, R194,
spec/70_reset_and_hazards.md R311). -/

namespace Sys2Proof.Machine

/-! ### The micro-steps that ask nothing of memory -/

/-- What a micro-step before the handler's last can do that asks nothing of memory. -/
inductive State.Proceeds (s : State) : Res Unit → Prop
  | stopped (r : FatalReason) : Proceeds s (.stop r)
  | latches (imm : Word) : Proceeds s (.ok () (advance { s with imm := imm }))
  | startsAdder {c : AluControl} {a b : Word} (adder : c = .add ∨ c = .subtract) :
      Proceeds s (.ok () (advance (startAlu c a b s)))

/-- What a handler's last micro-step can do. -/
inductive State.Finishes (s : State) : Res Unit → Prop
  | stopped (r : FatalReason) : Finishes s (.stop r)
  | completes {gpr : Vector Word 4} {ix : Vector Addr 3} {cc : CondCodes} :
      Finishes s (.ok () (complete { s with gpr := gpr, ix := ix, cc := cc }))

section MicroSteps
variable {i : Instr} {f : Fields} {s : State}

theorem waitStep_proceeds (idle : s.isBusy = false) : s.Proceeds (waitStep s) := by
  rw [waitStep, holdIfBusy_idle idle]
  exact .latches s.imm

theorem aluOnMemoryStep_proceeds {c : AluControl} (adder : c = .add ∨ c = .subtract) (idle : s.isBusy = false)
    (r : BitVec 2) : s.Proceeds (aluOnMemoryStep c r s) := by
  rw [aluOnMemoryStep, holdIfBusy_idle idle]
  exact .startsAdder adder

theorem loadGprStep_finishes (idle : s.isBusy = false) (r : BitVec 2) : s.Finishes (loadGprStep r s) := by
  rw [loadGprStep, holdIfBusy_idle idle]
  exact .completes

theorem loadIndexStep_finishes (idle : s.isBusy = false) (field : BitVec 2) : s.Finishes (loadIndexStep field s) := by
  rw [loadIndexStep, holdIfBusy_idle idle]
  split
  · exact .stopped _
  · split
    · exact .completes
    · exact .stopped _

theorem writeResultStep_finishes (r : BitVec 2) : s.Finishes (writeResultStep r s) := by
  unfold writeResultStep
  split
  · exact .completes
  · exact .stopped _

/-- E2, once the request of E1 is served (R211 to R215, R241, R242). -/
theorem handlerOf_two_proceeds (user : usesMemory i = true) (idle : s.isBusy = false) :
    s.Proceeds (handlerOf i 2 s) := by
  cases i with
  | ldr f | str f | lda f | ldx f | stx f => exact waitStep_proceeds idle
  | amr f => exact aluOnMemoryStep_proceeds (.inl rfl) idle f.r
  | smr f => exact aluOnMemoryStep_proceeds (.inr rfl) idle f.r
  | air f | sir f | jne f | jcc f | sob f | jge f => cases user

/-- E3, the last micro-step of an instruction with a memory operand. -/
theorem handlerOf_three_finishes (user : usesMemory i = true) (idle : s.isBusy = false) :
    s.Finishes (handlerOf i 3 s) := by
  cases i with
  | ldr f => exact loadGprStep_finishes idle f.r
  | lda f => exact loadIndexStep_finishes idle f.r
  | ldx f => exact loadIndexStep_finishes idle f.x
  | str f | stx f => exact .completes
  | amr f | smr f => exact writeResultStep_finishes f.r
  | air f | sir f | jne f | jcc f | sob f | jge f => cases user

theorem unlessFailFast_proceeds {k : State → Res Unit} (hk : s.Proceeds (k s)) : s.Proceeds (unlessFailFast s k) := by
  unfold unlessFailFast
  split
  · exact hk
  · exact .stopped _

theorem immediateStep_proceeds (f : Fields) (s : State) : s.Proceeds (immediateStep f s) := .latches (immediateOf f)

/-- E0, E1 and E2 of AIR and SIR (R243, R244). -/
theorem handlerOf_of_immediate (noUser : usesMemory i = false) (arith : isArithmetic i = true) :
    s.Proceeds (handlerOf i 0 s) ∧ s.Proceeds (handlerOf i 1 s) ∧ s.Finishes (handlerOf i 2 s) := by
  cases i with
  | air f =>
    exact ⟨unlessFailFast_proceeds (immediateStep_proceeds f s), .startsAdder (.inl rfl), writeResultStep_finishes f.r⟩
  | sir f =>
    exact ⟨unlessFailFast_proceeds (immediateStep_proceeds f s), .startsAdder (.inr rfl), writeResultStep_finishes f.r⟩
  | amr f | smr f => cases noUser
  | ldr f | str f | lda f | ldx f | stx f | jne f | jcc f | sob f | jge f => cases arith

theorem handlerOf_of_branch (branch : isBranch i = true) (k : Nat) (s : State) :
    ∃ op, handlerOf i k s = .raise (.illegalOpcode op) s := by
  cases i with
  | jne f | jcc f | sob f | jge f => exact ⟨_, rfl⟩
  | ldr f | str f | lda f | ldx f | stx f | amr f | smr f | air f | sir f => cases branch

theorem waitStep_busy (busy : s.isBusy = true) : waitStep s = .ok () s := holdIfBusy_busy busy _

theorem aluOnMemoryStep_busy (busy : s.isBusy = true) (c : AluControl) (r : BitVec 2) :
    aluOnMemoryStep c r s = .ok () s := holdIfBusy_busy busy _

/-- While its request is outstanding an instruction holds at E2 (R192). -/
theorem handlerOf_two_busy (user : usesMemory i = true) (busy : s.isBusy = true) : handlerOf i 2 s = .ok () s := by
  cases i with
  | ldr f | str f | lda f | ldx f | stx f => exact waitStep_busy busy
  | amr f => exact aluOnMemoryStep_busy busy .add f.r
  | smr f => exact aluOnMemoryStep_busy busy .subtract f.r
  | air f | sir f | jne f | jcc f | sob f | jge f => cases user

theorem handlerOf_one_of_stx_zero (hx : f.x = 0) (idle : s.isBusy = false) :
    handlerOf (.stx f) 1 s = .stop .undefinedRegister := by
  simp [handlerOf, stxStep, indexOf_eq_none_iff.2 hx, holdIfBusy_idle idle]

end MicroSteps

/-! ### Their ticks -/

/-- s stands before micro-step k of i's handler, with no request outstanding. -/
structure State.StandsAt (i : Instr) (k : Nat) (s : State) : Prop where
  executing : s.Executing i
  idle : s.isBusy = false
  micro : s.micro = k

/-- n ticks lead from s to where micro-step k of i's handler begins, the run being one that ends in t. -/
def State.ComesTo (i : Instr) (k n : Nat) (s t : State) : Prop :=
  ∃ v, v.StandsAt i k ∧ v.RunsTo State.inside t ∧ s.ReachesIn n v

section Ticks
variable {i : Instr} {k n : Nat} {r : FatalReason} {s t v : State}

theorem State.StandsAt.handler (h : s.StandsAt i k) {x : Res Unit} (control : handlerOf i k s = x) :
    handlerOf i s.micro s = x := by rw [h.micro, control]

theorem State.Executing.tick (h : s.Executing i) (ht : tick s = .next v) (going : v.inside = true) : v.Executing i := by
  rw [h.dispatches.tick_eq] at ht
  obtain ⟨boundary, -⟩ | ⟨executing, -⟩ := handlerTick_next h ht
  · simp [State.inside, boundary] at going
  · exact executing

theorem State.Executing.passes (h : s.Executing i) (passes : s.Passes State.inside n v) : v.Executing i := by
  induction passes with
  | refl s => exact h
  | tick ht going _ ih => exact ih (h.tick ht going)

theorem State.inside_iff : s.inside = true ↔ s.atBoundary = false := by simp [State.inside]

theorem inside_of_micro (h : v.micro = k + 1) : v.inside = true := by
  simp [State.inside, State.atBoundary, h]

/-- A run that ends in a state is not one that stops (R9). -/
theorem State.StandsAt.not_stop (h : s.StandsAt i k) (runs : s.RunsTo State.inside t)
    (stops : handlerOf i k s = .stop r) : False := by
  obtain ⟨u, ht, -⟩ := runs.first
  have stopped : tick s = .refused (.fatal r) := h.executing.dispatches.tick_eq.trans (tickOf_stop (h.handler stops))
  rw [stopped] at ht
  cases ht

theorem State.StandsAt.comesTo_of_tick (h : s.StandsAt i k) (runs : s.RunsTo State.inside t) (ht : tick s = .next v)
    (idle : v.isBusy = false) (micro : v.micro = k + 1) : s.ComesTo i (k + 1) 1 t :=
  have going := inside_of_micro micro
  ⟨v, ⟨h.executing.tick ht going, idle, micro⟩, runs.next ht going, reachesIn_one ht⟩

/-- A micro-step that asks nothing of memory takes one tick (R184). -/
theorem State.StandsAt.proceeds (h : s.StandsAt i k) (runs : s.RunsTo State.inside t)
    (move : s.Proceeds (handlerOf i k s)) : s.ComesTo i (k + 1) 1 t := by
  have alu := h.executing.attended.alu_idle
  have no_load := h.executing.attended.load.no_load h.idle
  generalize control : handlerOf i k s = x at move
  cases move with
  | stopped r => exact (h.not_stop runs control).elim
  | latches imm =>
    refine h.comesTo_of_tick runs (v := advance { s with imm := imm }) ?_ h.idle (congrArg (· + 1) h.micro)
    rw [h.executing.dispatches.tick_eq]
    exact tickOf_idle (h.handler control) alu h.idle no_load
  | @startsAdder c a b adder =>
    obtain ⟨w, g, computed⟩ := aluStep_startAlu adder a b s
    refine h.comesTo_of_tick runs
      (v := advance { s with alu := ⟨.computationFinished, none, none, c, some (BitVector.ofWord w), g⟩ }) ?_ h.idle
      (congrArg (· + 1) h.micro)
    rw [h.executing.dispatches.tick_eq, handlerTick, tickOf, tickBody, h.handler control, Res.bind_ok, computed,
      Res.bind_ok, memoryStep_idle (by exact h.idle) (by exact no_load), Res.settle_ok]

/-- The last micro-step takes one tick, to the next boundary (R189). -/
theorem State.StandsAt.finishes (h : s.StandsAt i k) (runs : s.RunsTo State.inside t)
    (move : s.Finishes (handlerOf i k s)) : s.ReachesIn 1 t := by
  generalize control : handlerOf i k s = x at move
  cases move with
  | stopped r => exact (h.not_stop runs control).elim
  | @completes gpr ix cc =>
    have ht : tick s = .next (complete { s with gpr := gpr, ix := ix, cc := cc }) := by
      rw [h.executing.dispatches.tick_eq]
      exact tickOf_idle (h.handler control) h.executing.attended.alu_idle h.idle
        (h.executing.attended.load.no_load h.idle)
    exact runs.last ht rfl ▸ reachesIn_one ht

theorem State.StandsAt.reachesIn_trans (h : v.StandsAt i k) {m : Nat} (first : s.ReachesIn m v)
    (rest : v.ReachesIn n t) : s.ReachesIn (m + n) t := first.trans rest h.executing.dispatches.inside

end Ticks

/-! ### The ticks of E0 and E1 with a memory operand -/

section Operand
variable {i : Instr} {ea : Nat} {s t u v : State}

theorem exec_runsTo (h : u.Executing i) (entered : enterExecute u = u) (run : exec i u = .next t) :
    u.RunsTo State.inside t := by
  rw [exec_eq_runWhile, entered] at run
  have same : runWhile State.inside tick u.tickBudget u = runWhile State.inside (handlerTick i) u.tickBudget u :=
    (runWhile_congr (P := State.Executing i) (fun _ h => h.dispatches.tick_eq.symm) (fun _ _ h => h.tick) _ h).symm
  exact ⟨_, same.trans run⟩

/-- E0 takes one tick; under fail_fast it stops, and the run does not end in a state (R187, R246). -/
theorem State.StandsAt.computes_ea (h : s.StandsAt i 0) (runs : s.RunsTo State.inside t) (user : usesMemory i = true)
    (value : computeEA i.fields s = .ok ea v) :
    ∃ m, v = { s with mem := m } ∧ (s.addressed m ea).StandsAt i 1 ∧ (s.addressed m ea).RunsTo State.inside t ∧
      s.ReachesIn 1 (s.addressed m ea) := by
  have policy (arith : isArithmetic i = true) : s.cfg.arithPolicy = .implement := by
    cases e : s.cfg.arithPolicy with
    | implement => rfl
    | failFast => exact (h.not_stop runs (handlerOf_zero_failFast arith e)).elim
  obtain ⟨m, -, frame, first⟩ := handlerTick_ea h.executing.attended user h.micro policy value
  have ht := h.executing.dispatches.tick_eq.trans first
  have micro : (s.addressed m ea).micro = 0 + 1 := congrArg (· + 1) h.micro
  have going := inside_of_micro micro
  exact ⟨m, frame, ⟨h.executing.tick ht going, h.idle, micro⟩, runs.next ht going, reachesIn_one ht⟩

theorem requesting_holding (h : s.StandsAt i 1) (user : usesMemory i = true) :
    Holding State.inside tick (s.requesting i) where
  tick m := by
    have dispatches : State.Dispatches i { s.requesting i with mem := m } :=
      h.executing.dispatches.of_frame rfl rfl rfl rfl
    have micro : State.micro { s.requesting i with mem := m } = 2 := congrArg (· + 1) h.micro
    have holds := handlerOf_two_busy (s := { s.requesting i with mem := m }) user (requesting_isBusy (s := s) (i := i))
    rw [← micro] at holds
    exact dispatches.tick_eq.trans (tickOf_memory holds h.executing.attended.alu_idle)
  more m b q :=
    State.inside_iff.2 (h.executing.dispatches.of_frame (t := { s.requesting i with mem := m, mbr := b, mcuState := q })
      rfl rfl rfl rfl).inside

/-- E1 takes one tick, and those of a block load if its access misses (R193); STX without a register to store stops. -/
theorem State.StandsAt.requests (h : s.StandsAt i 1) (runs : s.RunsTo State.inside t) (user : usesMemory i = true)
    (valid : validAddress s.ea) (load : s.cfg.cacheEnabled = true → 1 ≤ s.cfg.blockLoadTicks) :
    s.ComesTo i 2 (s.missTicks s.ea + 1) t := by
  have source (f : Fields) (e : i = .stx f) (hx : f.x = 0) : False := by
    subst e
    exact h.not_stop runs (handlerOf_one_of_stx_zero hx h.idle)
  have fits : s.ea ≤ 8191 := valid.le.trans (by decide)
  have control := (handlerOf_one_of_usesMemory user source h.idle).trans (if_pos fits)
  have issued := h.executing.dispatches.tick_eq.trans
    (tickOf_memory (h.handler control) h.executing.attended.alu_idle)
  have no_load := h.executing.attended.load.no_load h.idle
  have ok : (s.requesting i).MemoryOk := h.executing.attended.memory.of_mem rfl rfl
  have mar := requesting_mar i fits
  have backed : validAddress (s.requesting i).mar.toNat := mar.symm ▸ valid
  obtain ⟨m, w, served⟩ := memorySteps_request ok no_load load requesting_isBusy backed
  have passes := request_passes issued (requesting_holding h user) no_load load requesting_isBusy backed served
  have reached := passes.reachesIn fun _ => State.inside_iff.1
  rw [mar] at reached
  exact ⟨_, ⟨h.executing.passes passes, rfl, congrArg (· + 1) h.micro⟩, runs.after passes, reached⟩

end Operand

/-! ### The ticks of an instruction from E0 -/

section Instruction
variable {i : Instr} {ea : Nat} {s t v : State}

theorem memoryOperand_reachesIn (h : s.StandsAt i 0) (runs : s.RunsTo State.inside t) (user : usesMemory i = true)
    (load : s.cfg.cacheEnabled = true → 1 ≤ s.cfg.blockLoadTicks) (value : computeEA i.fields s = .ok ea v)
    (valid : validAddress ea) : s.ReachesIn (4 + v.missTicks ea) t := by
  obtain ⟨m, rfl, stands1, runs1, e0⟩ := h.computes_ea runs user value
  obtain ⟨v2, stands2, runs2, e1⟩ := stands1.requests runs1 user valid load
  obtain ⟨v3, stands3, runs3, e2⟩ := stands2.proceeds runs2 (handlerOf_two_proceeds user stands2.idle)
  have e3 := stands3.finishes runs3 (handlerOf_three_finishes user stands3.idle)
  have whole := stands1.reachesIn_trans e0 (stands2.reachesIn_trans e1 (stands3.reachesIn_trans e2 e3))
  have count (n : Nat) : 1 + (n + 1 + (1 + 1)) = 4 + n := by omega
  rw [count] at whole
  exact whole

theorem immediate_reachesIn (h : s.StandsAt i 0) (runs : s.RunsTo State.inside t) (noUser : usesMemory i = false)
    (arith : isArithmetic i = true) : s.ReachesIn 3 t := by
  obtain ⟨first, -⟩ := handlerOf_of_immediate (s := s) noUser arith
  obtain ⟨v1, stands1, runs1, e0⟩ := h.proceeds runs first
  obtain ⟨-, second, -⟩ := handlerOf_of_immediate (s := v1) noUser arith
  obtain ⟨v2, stands2, runs2, e1⟩ := stands1.proceeds runs1 second
  obtain ⟨-, -, last⟩ := handlerOf_of_immediate (s := v2) noUser arith
  exact stands1.reachesIn_trans e0 (stands2.reachesIn_trans e1 (stands2.finishes runs2 last))

theorem branch_reachesIn (h : s.StandsAt i 0) (runs : s.RunsTo State.inside t) (branch : isBranch i = true) :
    s.ReachesIn 1 t := by
  obtain ⟨op, control⟩ := handlerOf_of_branch branch 0 s
  have ht : tick s = .next (takeFault (.illegalOpcode op) s) :=
    h.executing.dispatches.tick_eq.trans (tickOf_raise (h.handler control))
  exact runs.last ht rfl ▸ reachesIn_one ht

/-- An opcode that is no mnemonic's number raises its fault in the first tick after decoding (R260). -/
theorem tick_of_noMnemonic {u : State} {w : Word} {op : BitVec 6} (h : s.Inv) (fetched : s.Fetched u w)
    (hop : decode s.cfg.opcodes w = .error (.noMnemonic op)) : tick u = .next (takeFault (.illegalOpcode op) u) := by
  obtain ⟨phase, -⟩ := fetched.execute
  have instr : instrOf u.cfg.opcodes u.dec = .error (.noMnemonic op) := by rw [fetched.cfg, fetched.dec]; exact hop
  have control : controlStep u = .raise (.illegalOpcode op) u := by
    simp only [controlStep, phase, dispatchHandler, instr, noHandlerStep]
  rw [tick_running (fetched.outcome.trans h.running), tickOf_raise control]

end Instruction

/-- Settles O54: the ticks of fetch and decode, and from E0 those of the micro-steps and of a miss. -/
theorem instructionTiming : Obligations.InstructionTiming := by
  intro s h load ha
  obtain ⟨u, fetched, run, decoded⟩ := fetchAndDecode_reachesIn h load ha
  obtain ⟨phase, micro⟩ := fetched.execute
  have outside : u.atBoundary = false := by simp [State.atBoundary, phase]
  have load_u : u.cfg.cacheEnabled = true → 1 ≤ u.cfg.blockLoadTicks := by rwa [fetched.cfg]
  have whole {k n : Nat} {t : State} (rest : u.ReachesIn k t) (count : n = 3 + s.missTicks s.pc.toNat + k) :
      s.ReachesIn n t := count ▸ decoded.trans rest outside
  refine ⟨u, fetched, decoded, fun i t hi ht => ?_, fun op t hop ht => ?_⟩
  · rw [run, executeDecoded_of_decode fetched hi] at ht
    have executing := fetched.executing h hi
    have stands : u.StandsAt i 0 := ⟨executing, fetched.ready.idle, micro⟩
    have runs := exec_runsTo executing fetched.entered ht
    refine ⟨fun ea v user value valid => ?_, fun noUser arith => ?_, fun branch => ?_⟩
    · exact whole (memoryOperand_reachesIn stands runs user load_u value valid) (by omega)
    · exact whole (immediate_reachesIn stands runs noUser arith) (by omega)
    · exact whole (branch_reachesIn stands runs branch) (by omega)
  · rw [run, executeDecoded_of_noMnemonic fetched hop, execNoHandler_eq, fetched.entered] at ht
    cases ht
    exact whole (reachesIn_one (tick_of_noMnemonic h fetched hop)) (by omega)

end Sys2Proof.Machine
end

section
/-! The loads and stores (spec/42_load_store.md R210 to R217): the run of an instruction with a memory operand up to the
service of its request, and what E2 and E3 of LDR, STR, LDA, LDX and STX make of it. -/

namespace Sys2Proof.Machine

/-! ### The run of a handler within its budget -/

/-- The run of i from s comes to v with k ticks of its budget left, or more. -/
def State.RunPasses (i : Instr) (s : State) (k : Nat) (v : State) : Prop :=
  ∃ n, exec i s = runWhile State.inside (handlerTick i) (n + k) v

section RunPasses
variable {i : Instr} {s v w : State} {k : Nat}

theorem runPasses_enterExecute (i : Instr) (s : State) :
    s.RunPasses i (12 + 3 * (s.cfg.blockLoadTicks + 1)) (enterExecute s) := by
  refine ⟨s.pendingTicks, ?_⟩
  have budget : (enterExecute s).tickBudget = s.pendingTicks + (12 + 3 * (s.cfg.blockLoadTicks + 1)) := by
    simp only [State.tickBudget, enterExecute_pendingTicks, enterExecute_cfg]
    omega
  rw [exec_eq_runWhile, budget]
  rfl

theorem State.RunPasses.mono {j : Nat} (h : s.RunPasses i k v) (le : j ≤ k) : s.RunPasses i j v := by
  obtain ⟨n, run⟩ := h
  refine ⟨n + (k - j), run.trans ?_⟩
  rw [show n + (k - j) + j = n + k by omega]

theorem State.RunPasses.skip {c : Nat} (h : s.RunPasses i (c + k) v)
    (skips : ∀ j, runWhile State.inside (handlerTick i) (c + j) v = runWhile State.inside (handlerTick i) j w) :
    s.RunPasses i k w := by
  obtain ⟨n, run⟩ := h
  refine ⟨n, run.trans ?_⟩
  rw [← skips, Nat.add_left_comm]

theorem State.RunPasses.tick (h : s.RunPasses i (k + 1) v) (ht : handlerTick i v = .next w)
    (going : w.inside = true) : s.RunPasses i k w := by
  obtain ⟨n, run⟩ := h
  exact ⟨n, run.trans (runWhile_more (n + k) ht going)⟩

theorem State.RunPasses.ends (h : s.RunPasses i (k + 1) v) (ht : handlerTick i v = .next w)
    (boundary : w.inside = false) : exec i s = .next w := by
  obtain ⟨n, run⟩ := h
  exact run.trans (runWhile_last (n + k) ht boundary)

theorem State.RunPasses.stops {r : FatalReason} (h : s.RunPasses i (k + 1) v)
    (stop : handlerOf i v.micro v = .stop r) : exec i s = .refused (.fatal r) := by
  obtain ⟨n, run⟩ := h
  exact run.trans (runWhile_refused (n + k) (tickOf_stop stop))

end RunPasses

/-! ### From E0 to the service of the request -/

/-- s with i's request for the address ea served, before E2: the Word w in MBR, the memory system m. -/
def State.served (s : State) (ea : Nat) (w : Word) (m : MemorySystem) : State :=
  { s with
    mar := BitVec.ofNat 13 ea
    mbr := w
    mcuState := .none
    mem := m
    phase := .execute
    micro := 2
    ea := ea }

/-- The run of i from s has its request for ea served, its memory in order, with ticks left for E2 and E3. -/
structure State.Serves (i : Instr) (s : State) (ea : Nat) (w : Word) (m : MemorySystem) : Prop where
  ok : State.MemoryOk { s with mem := m }
  no_load : m.pending = none
  passes : s.RunPasses i 2 (s.served ea w m)

section Request
variable {i : Instr} {ea : Nat} {s u : State} {m : MemorySystem}

/-- E0: the effective address latched, no Word changed (R187). -/
theorem runPasses_addressed (ready : s.Ready) (user : usesMemory i = true)
    (policy : isArithmetic i = true → s.cfg.arithPolicy = .implement)
    (value : computeEA i.fields (enterExecute s) = .ok ea u) :
    ∃ m, MemoryKept (enterExecute s) m ∧ ((enterExecute s).addressed m ea).Attended i ∧
      s.RunPasses i (11 + 3 * (s.cfg.blockLoadTicks + 1)) ((enterExecute s).addressed m ea) := by
  obtain ⟨m, kept, -, first⟩ := handlerTick_ea ready.attended user rfl policy value
  have start := (runPasses_enterExecute i s).mono (j := 11 + 3 * (s.cfg.blockLoadTicks + 1) + 1) (by omega)
  exact ⟨m, kept, addressed_attended ready.attended ready.idle kept ea, start.tick first (inside_of_micro rfl)⟩

/-- While the request of E1 is outstanding each tick of the run is the memory step (R192). -/
theorem requesting_holding_handlerTick (user : usesMemory i = true) (second : s.micro = 1)
    (alu : s.alu.state ≠ .startComputation) : Holding State.inside (handlerTick i) (s.requesting i) where
  tick m := by
    have micro : State.micro { s.requesting i with mem := m } = 2 := congrArg (· + 1) second
    have holds := handlerOf_two_busy (s := { s.requesting i with mem := m }) user (requesting_isBusy (s := s) (i := i))
    rw [← micro] at holds
    exact tickOf_memory holds alu
  more _ _ _ := inside_of_micro (congrArg (· + 1) second)

theorem handlerTick_requests (h : s.Attended i) (user : usesMemory i = true)
    (source : ∀ f, i = .stx f → f.x ≠ 0) (second : s.micro = 1) (fits : s.ea ≤ 8191) :
    handlerTick i s = (memoryStep (s.requesting i)).settle := by
  have control := (handlerOf_one_of_usesMemory user source (h.idle_of_micro (by omega))).trans (if_pos fits)
  rw [← second] at control
  exact tickOf_memory control h.alu_idle

/-- s after E0 and the ControlUnit step of E1, the memory system being m: i's request for ea is issued. -/
def State.requested (s : State) (i : Instr) (ea : Nat) (m : MemorySystem) : State :=
  ((enterExecute s).addressed m ea).requesting i

/-- In the run of i from s E0 leaves the memory system m, and E1 issues the request for ea. -/
structure State.Requests (i : Instr) (s : State) (ea : Nat) (m : MemorySystem) : Prop where
  kept : MemoryKept (enterExecute s) m
  passes : s.RunPasses i (11 + 3 * (s.cfg.blockLoadTicks + 1)) ((enterExecute s).addressed m ea)
  issues : handlerTick i ((enterExecute s).addressed m ea) = (memoryStep (s.requested i ea m)).settle
  holds : Holding State.inside (handlerTick i) (s.requested i ea m)
  ok : (s.requested i ea m).MemoryOk
  no_load : m.pending = none
  mar : (s.requested i ea m).mar.toNat = ea

theorem exists_requests (ready : s.Ready) (user : usesMemory i = true) (source : ∀ f, i = .stx f → f.x ≠ 0)
    (policy : isArithmetic i = true → s.cfg.arithPolicy = .implement)
    (value : computeEA i.fields (enterExecute s) = .ok ea u) (valid : validAddress ea) : ∃ m, s.Requests i ea m := by
  obtain ⟨m, kept, attended, passes⟩ := runPasses_addressed ready user policy value
  have fits : ((enterExecute s).addressed m ea).ea ≤ 8191 := valid.le.trans (by decide)
  exact ⟨m, kept, passes, handlerTick_requests attended user source rfl fits,
    requesting_holding_handlerTick user rfl attended.alu_idle, attended.memory.of_mem rfl rfl,
    kept.pending.trans ready.no_load, requesting_mar i fits⟩

/-- A request that waits for no more than one block load leaves ticks for E2 and E3 (R193, R309). -/
theorem State.Requests.served {w : Word} {n : MemorySystem} {k : Nat} (h : s.Requests i ea m)
    (within : k ≤ max s.cfg.blockLoadTicks 1)
    (run : ∀ j, runWhile State.inside (handlerTick i) (k + 1 + j) ((enterExecute s).addressed m ea) =
      runWhile State.inside (handlerTick i) j (s.served ea w n)) : s.RunPasses i 2 (s.served ea w n) :=
  (h.passes.mono (j := k + 1 + 2) (by omega)).skip run

theorem source_of_load (load : isStore i = false) (f : Fields) (e : i = .stx f) : f.x ≠ 0 := by
  subst e
  cases load

theorem source_of_stx {f : Fields} (hx : f.x ≠ 0) (g : Fields) (e : Instr.stx f = .stx g) : g.x ≠ 0 := by
  cases e
  exact hx

theorem policy_of_plain (plain : isArithmetic i = false) (arith : isArithmetic i = true) :
    s.cfg.arithPolicy = .implement := by
  simp [plain] at arith

/-- An instruction that reads memory comes to E2 with the Word at its effective address in MBR, no Word changed
(R73, R211, R213, R214, R241, R242). -/
theorem load_serves (ready : s.Ready) (user : usesMemory i = true) (load : isStore i = false)
    (policy : isArithmetic i = true → s.cfg.arithPolicy = .implement)
    (value : computeEA i.fields (enterExecute s) = .ok ea u) (valid : validAddress ea) :
    ∃ m, s.Serves i ea (s.memval ea) m ∧ ∀ a, validAddress a → m.memval a = s.memval a := by
  obtain ⟨m, requests⟩ := exists_requests ready user (source_of_load load) policy value valid
  have fetch : (s.requested i ea m).mcuState = .preFetch := by simp [State.requested, State.requesting, load]
  obtain ⟨k, n, within, -, again, run⟩ := fetch_served requests.issues requests.holds requests.ok requests.no_load fetch
    (requests.mar.symm ▸ valid)
  have word : (s.requested i ea m).memval ea = s.memval ea := requests.kept.same ea valid
  rw [requests.mar, word] at run
  exact ⟨n, ⟨again.ok.of_mem rfl rfl, again.pending.trans requests.no_load, requests.served within run⟩,
    fun a ha => (again.same a ha).trans (requests.kept.same a ha)⟩

theorem usesMemory_of_isStore (store : isStore i = true) : usesMemory i = true ∧ isArithmetic i = false := by
  cases i with
  | str f | stx f => exact ⟨rfl, rfl⟩
  | ldr f | lda f | ldx f | amr f | smr f | air f | sir f | jne f | jcc f | sob f | jge f => cases store

/-- A store comes to E2 with its Word at the effective address, no other Word changed (R74, R212, R215). -/
theorem store_serves (ready : s.Ready) (store : isStore i = true) (source : ∀ f, i = .stx f → f.x ≠ 0)
    (value : computeEA i.fields (enterExecute s) = .ok ea u) (valid : validAddress ea) :
    ∃ m, s.Serves i ea (s.requestWord i) m ∧
      ∀ a, validAddress a → m.memval a = if a = ea then s.requestWord i else s.memval a := by
  obtain ⟨user, plain⟩ := usesMemory_of_isStore store
  obtain ⟨m, requests⟩ := exists_requests ready user source (policy_of_plain plain) value valid
  have signalled : (s.requested i ea m).mcuState = .preStore := by simp [State.requested, State.requesting, store]
  obtain ⟨k, n, within, -, ok, no_load, written, run⟩ := store_served requests.issues requests.holds requests.ok
    requests.no_load signalled (requests.mar.symm ▸ valid)
  have word : (s.requested i ea m).mbr = s.requestWord i := rfl
  have before (a : Nat) (ha : validAddress a) : (s.requested i ea m).memval a = s.memval a := requests.kept.same a ha
  refine ⟨n, ⟨ok.of_mem rfl rfl, no_load, requests.served within run⟩, fun a ha => ?_⟩
  rw [written a ha, requests.mar, word, before a ha]

end Request

/-! ### E2 and E3 -/

/-- The state an instruction leaves that wrote registers at most, its request for ea served. -/
def State.finished (s : State) (ea : Nat) (w : Word) (m : MemorySystem) (gpr : Vector Word 4) (ix : Vector Addr 3) :
    State :=
  complete { s.served ea w m with gpr := gpr, ix := ix }

section Finish
variable {i : Instr} {ea : Nat} {s : State} {w : Word} {m : MemorySystem} {gpr : Vector Word 4} {ix : Vector Addr 3}

theorem waitStep_idle (idle : s.isBusy = false) : waitStep s = .ok () (advance s) := holdIfBusy_idle idle _

theorem loadGprStep_idle (idle : s.isBusy = false) (r : BitVec 2) :
    loadGprStep r s = .ok () (complete (s.setGpr r s.mbr)) := holdIfBusy_idle idle _

theorem handlerOf_two_idle (user : usesMemory i = true) (plain : isArithmetic i = false) (idle : s.isBusy = false) :
    handlerOf i 2 s = .ok () (advance s) := by
  cases i with
  | ldr f | str f | lda f | ldx f | stx f => exact waitStep_idle idle
  | amr f | smr f => cases plain
  | air f | sir f | jne f | jcc f | sob f | jge f => cases user

/-- E2 of an instruction that asks nothing of the ALU (R211 to R215). -/
theorem State.Serves.waited (h : s.Serves i ea w m) (ready : s.Ready) (user : usesMemory i = true)
    (plain : isArithmetic i = false) : s.RunPasses i 1 (advance (s.served ea w m)) := by
  have control : handlerOf i 2 (s.served ea w m) = .ok () (advance (s.served ea w m)) :=
    handlerOf_two_idle user plain rfl
  exact h.passes.tick (tickOf_idle control ready.alu_idle rfl h.no_load) (inside_of_micro rfl)

theorem State.Serves.exec_eq (h : s.Serves i ea w m) (ready : s.Ready) (user : usesMemory i = true)
    (plain : isArithmetic i = false)
    (last : handlerOf i 3 (advance (s.served ea w m)) = .ok () (s.finished ea w m gpr ix)) :
    exec i s = .next (s.finished ea w m gpr ix) :=
  (h.waited ready user plain).ends (tickOf_idle last ready.alu_idle rfl h.no_load) rfl

theorem State.Serves.completed (h : s.Serves i ea w m) (ready : s.Ready) :
    s.Completed (s.finished ea w m gpr ix) :=
  ⟨rfl, rfl, h.ok.of_mem rfl rfl, rfl, h.no_load, ready.alu_idle⟩

theorem finished_sameSpecial : s.SameSpecial (s.finished ea w m gpr ix) :=
  ⟨rfl, rfl, rfl, rfl, rfl, rfl⟩

theorem finished_mar (valid : validAddress ea) : (s.finished ea w m gpr ix).mar.toNat = ea :=
  Nat.mod_eq_of_lt (valid.trans (by decide))

end Finish

/-- Settles O25: E3 puts the Word fetched into the register. -/
theorem ldrLoadsTheWord : Obligations.LdrLoadsTheWord := by
  intro f s u ea ready value valid
  obtain ⟨m, serves, same⟩ := load_serves (i := .ldr f) ready rfl rfl nofun value valid
  have last : handlerOf (.ldr f) 3 (advance (s.served ea (s.memval ea) m)) =
      .ok () (s.finished ea (s.memval ea) m (s.setGpr f.r (s.memval ea)).gpr s.ix) :=
    loadGprStep_idle (s := advance (s.served ea (s.memval ea) m)) rfl f.r
  exact ⟨_, serves.exec_eq ready rfl rfl last, setGpr_getGpr_same s f.r _,
    fun q hq => setGpr_getGpr_other s f.r q _ hq, rfl, rfl, rfl, finished_mar valid, rfl, rfl, rfl,
    finished_sameSpecial, same, serves.completed ready⟩

/-! ### The stores -/

/-- What STR and STX leave: E3 completes, the Word stored in E1 and E2. -/
theorem store_stores {i : Instr} {ea : Nat} {s u : State} (ready : s.Ready) (store : isStore i = true)
    (source : ∀ f, i = .stx f → f.x ≠ 0) (value : computeEA i.fields (enterExecute s) = .ok ea u)
    (valid : validAddress ea) :
    ∃ t, exec i s = .next t ∧ s.SameMemoryBut t ea (s.requestWord i) ∧ t.gpr = s.gpr ∧ t.ix = s.ix ∧ t.cc = s.cc ∧
      t.alu = s.alu ∧ t.mar.toNat = ea ∧ t.mbr = s.requestWord i ∧ t.ea = ea ∧ t.imm = s.imm ∧ s.SameSpecial t ∧
      s.Completed t := by
  obtain ⟨m, serves, written⟩ := store_serves ready store source value valid
  obtain ⟨user, plain⟩ := usesMemory_of_isStore store
  have last : handlerOf i 3 (advance (s.served ea (s.requestWord i) m)) =
      .ok () (s.finished ea (s.requestWord i) m s.gpr s.ix) := by
    cases i with
    | str f | stx f => rfl
    | ldr f | lda f | ldx f | amr f | smr f | air f | sir f | jne f | jcc f | sob f | jge f => cases store
  exact ⟨_, serves.exec_eq ready user plain last,
    ⟨(written ea valid).trans (if_pos rfl), fun a ha hne => (written a ha).trans (if_neg hne)⟩, rfl, rfl, rfl, rfl,
    finished_mar valid, rfl, rfl, rfl, finished_sameSpecial, serves.completed ready⟩

/-- Settles O26: the Word that STR's request stores is `GPR[r]`. -/
theorem strStoresTheRegister : Obligations.StrStoresTheRegister :=
  fun f _ _ _ ready value valid => store_stores (i := .str f) ready rfl nofun value valid

theorem index_ne_zero {field : BitVec 2} {j : Fin 3} (hj : j.val + 1 = field.toNat) : field ≠ 0 := by
  rintro rfl
  cases hj

/-- Settles O29: the Word that STX's request stores is `IX[x]`, zero-extended. -/
theorem stxStoresTheIndexRegister : Obligations.StxStoresTheIndexRegister := by
  intro f s u ea j ready value valid hj
  rw [← requestWord_stx hj]
  exact store_stores ready rfl (source_of_stx (index_ne_zero hj)) value valid

/-! ### LDA and LDX -/

/-- LDA and LDX, with the field that names the index register each loads (R213, R214). -/
inductive LoadsIndex : Instr → BitVec 2 → Prop
  | lda (f : Fields) : LoadsIndex (.lda f) f.r
  | ldx (f : Fields) : LoadsIndex (.ldx f) f.x

section LoadIndex
variable {i : Instr} {field : BitVec 2} {ea : Nat} {s u : State} {j : Fin 3}

/-- LDA and LDX differ in the field alone. -/
theorem LoadsIndex.handler (h : LoadsIndex i field) :
    usesMemory i = true ∧ isStore i = false ∧ isArithmetic i = false ∧ handlerOf i 3 = loadIndexStep field := by
  cases h with
  | lda f | ldx f => exact ⟨rfl, rfl, rfl, rfl⟩

theorem narrow13_of_le {w : Word} (fits : w.toNat ≤ 8191) : narrow13 w = .ok (BitVec.ofNat 13 w.toNat) := if_pos fits

theorem narrow13_of_lt {w : Word} (wide : 8191 < w.toNat) : narrow13 w = .error .range := if_neg (by omega)

theorem loadIndexStep_none (idle : s.isBusy = false) (hj : indexOf field = none) :
    loadIndexStep field s = .stop .undefinedRegister := by
  rw [loadIndexStep, holdIfBusy_idle idle, hj]

theorem loadIndexStep_fits (idle : s.isBusy = false) (hj : indexOf field = some j) (fits : s.mbr.toNat ≤ 8191) :
    loadIndexStep field s = .ok () (complete (s.setIx j (BitVec.ofNat 13 s.mbr.toNat))) := by
  simp only [loadIndexStep, holdIfBusy_idle idle, hj, narrow13_of_le fits]

theorem loadIndexStep_wide (idle : s.isBusy = false) (hj : indexOf field = some j) (wide : 8191 < s.mbr.toNat) :
    loadIndexStep field s = .stop .range := by
  simp only [loadIndexStep, holdIfBusy_idle idle, hj, narrow13_of_lt wide]

/-- E3 follows the memory read, whatever it does with the Word. -/
theorem LoadsIndex.serves (h : LoadsIndex i field) (ready : s.Ready)
    (value : computeEA i.fields (enterExecute s) = .ok ea u) (valid : validAddress ea) :
    ∃ m, s.Serves i ea (s.memval ea) m ∧ (∀ a, validAddress a → m.memval a = s.memval a) ∧
      s.RunPasses i 1 (advance (s.served ea (s.memval ea) m)) := by
  obtain ⟨user, load, plain, -⟩ := h.handler
  obtain ⟨m, serves, same⟩ := load_serves ready user load (policy_of_plain plain) value valid
  exact ⟨m, serves, same, serves.waited ready user plain⟩

theorem LoadsIndex.exec_stops (h : LoadsIndex i field) (ready : s.Ready)
    (value : computeEA i.fields (enterExecute s) = .ok ea u) (valid : validAddress ea) {r : FatalReason}
    (last : ∀ v : State, v.isBusy = false → v.mbr = s.memval ea → loadIndexStep field v = .stop r) :
    exec i s = .refused (.fatal r) := by
  obtain ⟨-, -, -, handler⟩ := h.handler
  obtain ⟨m, -, -, passes⟩ := h.serves ready value valid
  refine passes.stops (Eq.trans ?_ (last (advance (s.served ea (s.memval ea) m)) rfl rfl))
  exact congrFun handler _

theorem LoadsIndex.exec_undefined (h : LoadsIndex i field) (ready : s.Ready)
    (value : computeEA i.fields (enterExecute s) = .ok ea u) (valid : validAddress ea) (hj : indexOf field = none) :
    exec i s = .refused (.fatal .undefinedRegister) :=
  h.exec_stops ready value valid fun _ idle _ => loadIndexStep_none idle hj

theorem LoadsIndex.exec_wide (h : LoadsIndex i field) (ready : s.Ready)
    (value : computeEA i.fields (enterExecute s) = .ok ea u) (valid : validAddress ea) (hj : indexOf field = some j)
    (wide : 8191 < (s.memval ea).toNat) : exec i s = .refused (.fatal .range) :=
  h.exec_stops ready value valid fun _ idle word => loadIndexStep_wide idle hj (word ▸ wide)

/-- What LDA and LDX leave of a Word that fits the index register (R217). -/
theorem LoadsIndex.loads (h : LoadsIndex i field) (ready : s.Ready)
    (value : computeEA i.fields (enterExecute s) = .ok ea u) (valid : validAddress ea) (hj : indexOf field = some j)
    (fits : (s.memval ea).toNat ≤ 8191) :
    ∃ t, exec i s = .next t ∧ (t.getIx j).toNat = (s.memval ea).toNat ∧ (∀ k, k ≠ j → t.getIx k = s.getIx k) ∧
      t.gpr = s.gpr ∧ t.cc = s.cc ∧ t.alu = s.alu ∧ t.mar.toNat = ea ∧ t.mbr = s.memval ea ∧ t.ea = ea ∧
      t.imm = s.imm ∧ s.SameSpecial t ∧ s.SameMemory t ∧ s.Completed t := by
  obtain ⟨user, -, plain, handler⟩ := h.handler
  obtain ⟨m, serves, same, -⟩ := h.serves ready value valid
  have last : handlerOf i 3 (advance (s.served ea (s.memval ea) m)) =
      .ok () (s.finished ea (s.memval ea) m s.gpr (s.setIx j (BitVec.ofNat 13 (s.memval ea).toNat)).ix) := by
    rw [handler]
    exact loadIndexStep_fits rfl hj fits
  refine ⟨_, serves.exec_eq ready user plain last, ?_, fun k hk => setIx_getIx_other s j k _ hk, rfl, rfl, rfl,
    finished_mar valid, rfl, rfl, rfl, finished_sameSpecial, same, serves.completed ready⟩
  exact (congrArg BitVec.toNat (setIx_getIx_same s j _)).trans (Nat.mod_eq_of_lt (by omega))

/-- Where the index register exists, no path of LDA and LDX stops for its want (R188, R217). -/
theorem LoadsIndex.exec_ne_undefined (h : LoadsIndex i field) (ready : s.Ready)
    (value : computeEA i.fields (enterExecute s) = .ok ea u) (hj : indexOf field = some j) :
    exec i s ≠ .refused (.fatal .undefinedRegister) := by
  obtain ⟨user, load, plain, -⟩ := h.handler
  by_cases valid : validAddress ea
  · rcases Nat.lt_or_ge 8191 (s.memval ea).toNat with wide | fits
    · simp [h.exec_wide ready value valid hj wide]
    · obtain ⟨t, run, -⟩ := h.loads ready value valid hj fits
      simp [run]
  · obtain ⟨t, run, -⟩ := unbackedEffectiveAddressFaults i s u ea ready user value valid
      (policy_of_plain plain) (source_of_load load)
    simp [run]

end LoadIndex

/-- Settles O27: LDA's field r names the index register. -/
theorem ldaLoadsTheIndexRegister : Obligations.LdaLoadsTheIndexRegister :=
  fun f _ _ _ _ ready value valid hj fits => (LoadsIndex.lda f).loads ready value valid (indexOf_eq_some_iff.2 hj) fits

/-- Settles O28: LDX's field x names the index register, whose old value E0 has used. -/
theorem ldxLoadsTheIndexRegister : Obligations.LdxLoadsTheIndexRegister :=
  fun f _ _ _ _ ready value valid hj fits => (LoadsIndex.ldx f).loads ready value valid (indexOf_eq_some_iff.2 hj) fits

/-- Settles O36: the Word does not narrow to 13 bits. -/
theorem wideWordIntoAnIndexRegisterStops : Obligations.WideWordIntoAnIndexRegisterStops :=
  fun f _ _ _ _ ready value valid wide =>
    ⟨fun hj => (LoadsIndex.lda f).exec_wide ready value valid (indexOf_eq_some_iff.2 hj) wide,
      fun hj => (LoadsIndex.ldx f).exec_wide ready value valid (indexOf_eq_some_iff.2 hj) wide⟩

/-! ### Index register 0 -/

section StoreIndex
variable {f : Fields} {ea : Nat} {s u : State}

/-- STX of index register 0 stops in E1, before its address is looked at (R215). -/
theorem exec_stx_undefined (ready : s.Ready) (value : computeEA f (enterExecute s) = .ok ea u) (hx : f.x = 0) :
    exec (.stx f) s = .refused (.fatal .undefinedRegister) := by
  obtain ⟨m, -, -, passes⟩ := runPasses_addressed (i := .stx f) ready rfl nofun value
  exact (passes.mono (j := 1) (by omega)).stops (handlerOf_one_of_stx_zero hx ready.idle)

/-- With an index register to store, STX stores it or has its address refused (R188, R215). -/
theorem exec_stx_ne_undefined (ready : s.Ready) (value : computeEA f (enterExecute s) = .ok ea u) (hx : f.x ≠ 0) :
    exec (.stx f) s ≠ .refused (.fatal .undefinedRegister) := by
  by_cases valid : validAddress ea
  · obtain ⟨t, run, -⟩ := store_stores ready rfl (source_of_stx hx) value valid
    simp [run]
  · obtain ⟨t, run, -⟩ := unbackedEffectiveAddressFaults (.stx f) s u ea ready rfl value valid nofun (source_of_stx hx)
    simp [run]

end StoreIndex

theorem exists_index {field : BitVec 2} (h : field ≠ 0) : ∃ j, indexOf field = some j :=
  Option.ne_none_iff_exists'.1 (mt indexOf_eq_none_iff.1 h)

/-- Settles O35: E3 of LDA and LDX and E1 of STX look for the register, and every other path ends otherwise. -/
theorem indexRegisterZeroStops : Obligations.IndexRegisterZeroStops := by
  refine ⟨fun f s u ea ready value => ⟨fun hr valid => ?_, fun hx valid => ?_, fun hx => ?_, fun hr => ?_, fun hx => ?_⟩,
    fun n => ⟨indexOf_eq_none_iff, fun j => indexOf_eq_some_iff⟩⟩
  · exact (LoadsIndex.lda f).exec_undefined ready value valid (indexOf_eq_none_iff.2 hr)
  · exact (LoadsIndex.ldx f).exec_undefined ready value valid (indexOf_eq_none_iff.2 hx)
  · exact exec_stx_undefined ready value hx
  · obtain ⟨j, hj⟩ := exists_index hr
    exact (LoadsIndex.lda f).exec_ne_undefined ready value hj
  · obtain ⟨j, hj⟩ := exists_index hx
    exact ⟨(LoadsIndex.ldx f).exec_ne_undefined ready value hj, exec_stx_ne_undefined ready value hx⟩

end Sys2Proof.Machine
end

section
/-! The placeholder arithmetic (spec/43_arith_mem_imm.md R240 to R247): what the adder answers on two Words and on a Word
and an immediate, and what AMR, SMR, AIR and SIR make of the answer. -/

namespace Sys2Proof.Machine

/-! ### What the adder answers -/

/-- An answer of the adder: a Word and the two flags it defines (R152, R154). -/
structure AdderAnswer where
  word : Word
  ov   : Bool
  uf   : Bool

/-- Under c the ALU answers x on the Words a and b. -/
def Answers (p : Params) (c : AluControl) (a b : Word) (x : AdderAnswer) : Prop :=
  aluCompute p c (.ofWord a) (.ofWord b) = (some (.ofWord x.word), ⟨some x.ov, some x.uf, none⟩)

section Answers
variable (p : Params) (a b : Word) (f : Fields)

theorem answers_add :
    Answers p .add a b
      ⟨a + b, overflowFlag p.overflowRule 20 (decide (2 ^ 20 ≤ a.toNat + b.toNat)) (a.toInt + b.toInt),
        decide (a.toInt + b.toInt < minSigned 20)⟩ := by
  rw [Answers, aluCompute_add, aluAdd_ofWord]
  rfl

theorem answers_subtract :
    Answers p .subtract a b
      ⟨a - b, overflowFlag p.overflowRule 20 (decide (b ≠ 0 ∧ b.toNat ≤ a.toNat)) (a.toInt - b.toInt),
        decide (a.toInt - b.toInt < minSigned 20)⟩ := by
  rw [Answers, aluCompute_subtract, aluSubtract_ofWord, subtractFlags, carryOut_negated]
  rfl

theorem immediateOf_eq : immediateOf f = BitVec.ofNat 20 f.addr.toNat :=
  (BitVec.ofNat_toNat 20 f.addr).symm

/-- The immediate reads as the address field, unsigned: it has no sign bit (R245, D25). -/
theorem immediateOf_toNat : (immediateOf f).toNat = f.addr.toNat :=
  BitVec.toNat_setWidth_of_le (by decide)

theorem immediateOf_toInt : (immediateOf f).toInt = f.addr.toNat := by
  have fits : 2 * (immediateOf f).toNat < 2 ^ 20 := by
    rw [immediateOf_toNat]
    omega
  rw [BitVec.toInt_eq_toNat_of_lt fits, immediateOf_toNat]

theorem immediateOf_eq_zero_iff : immediateOf f = 0 ↔ f.addr = 0 := by
  rw [← BitVec.toNat_inj, ← BitVec.toNat_inj, immediateOf_toNat]
  rfl

theorem answers_add_immediate :
    Answers p .add a (immediateOf f)
      ⟨a + immediateOf f,
        overflowFlag p.overflowRule 20 (decide (2 ^ 20 ≤ a.toNat + f.addr.toNat)) (a.toInt + f.addr.toNat),
        decide (a.toInt + f.addr.toNat < minSigned 20)⟩ := by
  have sum := answers_add p a (immediateOf f)
  rwa [immediateOf_toNat, immediateOf_toInt] at sum

theorem answers_subtract_immediate :
    Answers p .subtract a (immediateOf f)
      ⟨a - immediateOf f,
        overflowFlag p.overflowRule 20 (decide (f.addr ≠ 0 ∧ f.addr.toNat ≤ a.toNat)) (a.toInt - f.addr.toNat),
        decide (a.toInt - f.addr.toNat < minSigned 20)⟩ := by
  have difference := answers_subtract p a (immediateOf f)
  simpa only [ne_eq, immediateOf_eq_zero_iff, immediateOf_toNat, immediateOf_toInt] using difference

end Answers

/-! ### The last two micro-steps -/

/-- The ALU as `startAlu` leaves it (R146, R147). -/
def Alu.started (alu : Alu) (c : AluControl) (a b : Word) : Alu :=
  { alu with state := .startComputation, op1 := some (.ofWord a), op2 := some (.ofWord b), ctl := c }

/-- The ALU after it answered x under c. -/
def Alu.answered (c : AluControl) (x : AdderAnswer) : Alu :=
  ⟨.computationFinished, none, none, c, some (.ofWord x.word), ⟨some x.ov, some x.uf, none⟩⟩

/-- What the last micro-step leaves of s: the answer x in `GPR[r]`, its flags merged (R241 to R244). -/
def State.answered (s : State) (c : AluControl) (r : BitVec 2) (x : AdderAnswer) : State :=
  complete { s.setGpr r x.word with cc := ⟨x.ov, x.uf, s.cc.dz⟩, alu := .answered c x }

section Answered
variable {i : Instr} {c : AluControl} {r : BitVec 2} {s v : State} {a b : Word} {x : AdderAnswer}

theorem advance_startAlu (c : AluControl) (a b : Word) (s : State) :
    advance (startAlu c a b s) = { s with alu := s.alu.started c a b, micro := s.micro + 1 } := by
  cases s
  rfl

theorem computed_eq_answered {p : Params} {alu : Alu} (answers : Answers p alu.ctl a b x) :
    alu.computed p (.ofWord a) (.ofWord b) = .answered alu.ctl x := by
  rw [Alu.computed, answers]
  rfl

/-- A tick that starts the adder ends with its answer (R148, R305). -/
theorem tickOf_startAlu {control : State → Res Unit} (starts : control s = .ok () (advance (startAlu c a b s)))
    (answers : Answers s.cfg c a b x) (idle : s.isBusy = false) (no_load : s.mem.pending = none) :
    tickOf control s = .next (advance { s with alu := .answered c x }) := by
  have computes : (s.alu.started c a b).computed s.cfg (.ofWord a) (.ofWord b) = .answered c x :=
    computed_eq_answered answers
  have step : aluStep { s with alu := s.alu.started c a b, micro := s.micro + 1 } =
      .ok () (advance { s with alu := .answered c x }) :=
    (aluStep_of_operands rfl rfl rfl).trans (by rw [computes]; rfl)
  have quiet := memoryStep_idle (s := advance { s with alu := .answered c x }) idle no_load
  rw [tickOf, tickBody, starts, Res.bind_ok, advance_startAlu, step, Res.bind_ok, quiet, Res.settle_ok]

theorem wordResult_ofWord (w : Word) : wordResult (some (.ofWord w)) = .ok w := by
  have fits : (BitVector.ofWord w).uval < 2 ^ 20 := w.isLt
  rw [wordResult, if_pos fits, BitVector.uval, BitVec.ofNat_toNat]
  exact congrArg Except.ok (BitVec.setWidth_eq w)

theorem writeResultStep_answered (r : BitVec 2) (c : AluControl) (x : AdderAnswer) (s : State) :
    writeResultStep r (advance { s with alu := .answered c x }) = .ok () (s.answered c r x) := by
  have word : wordResult (Alu.answered c x).result = .ok x.word := wordResult_ofWord x.word
  simp only [writeResultStep, advance_alu, word]
  rfl

/-- A run that comes to the start of the adder ends one tick later with its answer written. -/
theorem State.RunPasses.exec_answered (h : s.RunPasses i 2 v)
    (starts : handlerOf i v.micro v = .ok () (advance (startAlu c a b v)))
    (writes : handlerOf i (v.micro + 1) = writeResultStep r) (answers : Answers v.cfg c a b x)
    (idle : v.isBusy = false) (no_load : v.mem.pending = none) : exec i s = .next (v.answered c r x) := by
  have first := tickOf_startAlu (control := fun s => handlerOf i s.micro s) starts answers idle no_load
  have last : handlerOf i (v.micro + 1) (advance { v with alu := .answered c x }) = .ok () (v.answered c r x) := by
    rw [writes, writeResultStep_answered]
  exact (h.tick first (inside_of_micro rfl)).ends (tickOf_idle last nofun idle no_load) rfl

theorem answered_completed (pc : v.pc = s.pc) (memory : v.MemoryOk) (idle : v.isBusy = false)
    (no_load : v.mem.pending = none) : s.Completed (v.answered c r x) :=
  ⟨congrArg (· + 1) pc, rfl, memory.of_mem rfl rfl, idle, no_load, nofun⟩

end Answered

/-! ### AMR and SMR -/

/-- AMR and SMR, with what each asks of the ALU and its register (R241, R242). -/
inductive AluOnMemory : Instr → AluControl → BitVec 2 → Prop
  | amr (f : Fields) : AluOnMemory (.amr f) .add f.r
  | smr (f : Fields) : AluOnMemory (.smr f) .subtract f.r

section Memory
variable {i : Instr} {c : AluControl} {r : BitVec 2} {s u : State} {ea : Nat} {x : AdderAnswer}

theorem AluOnMemory.handler (h : AluOnMemory i c r) :
    usesMemory i = true ∧ isStore i = false ∧ handlerOf i 2 = aluOnMemoryStep c r ∧
      handlerOf i 3 = writeResultStep r := by
  cases h with
  | amr f | smr f => exact ⟨rfl, rfl, rfl, rfl⟩

/-- What AMR and SMR leave of the adder's answer on the register and the Word at the effective address. -/
theorem AluOnMemory.leaves (h : AluOnMemory i c r) (ready : s.Ready) (policy : s.cfg.arithPolicy = .implement)
    (value : computeEA i.fields (enterExecute s) = .ok ea u) (valid : validAddress ea)
    (answers : Answers s.cfg c (s.getGpr r) (s.memval ea) x) :
    ∃ t, exec i s = .next t ∧ t.getGpr r = x.word ∧ s.SameGprBut t r ∧ t.ix = s.ix ∧ t.cc = ⟨x.ov, x.uf, s.cc.dz⟩ ∧
      t.alu.state = .computationFinished ∧ t.alu.op1 = none ∧ t.alu.op2 = none ∧ t.alu.ctl = c ∧
      t.alu.flags = ⟨some t.cc.ov, some t.cc.uf, none⟩ ∧ t.alu.result = some (.ofWord x.word) ∧
      t.mar.toNat = ea ∧ t.mbr = s.memval ea ∧ t.ea = ea ∧ t.imm = s.imm ∧ s.SameSpecial t ∧ s.SameMemory t ∧
      s.Completed t := by
  obtain ⟨user, load, second, third⟩ := h.handler
  obtain ⟨m, serves, same⟩ := load_serves ready user load (fun _ => policy) value valid
  have starts : handlerOf i 2 (s.served ea (s.memval ea) m) =
      .ok () (advance (startAlu c (s.getGpr r) (s.memval ea) (s.served ea (s.memval ea) m))) := by
    rw [second, aluOnMemoryStep, holdIfBusy_idle rfl]
    rfl
  have memory : (s.served ea (s.memval ea) m).MemoryOk := serves.ok.of_mem rfl rfl
  exact ⟨_, serves.passes.exec_answered starts third answers rfl serves.no_load, setGpr_getGpr_same s r _,
    fun q hq => setGpr_getGpr_other s r q _ hq, rfl, rfl, rfl, rfl, rfl, rfl, rfl, rfl,
    Nat.mod_eq_of_lt (valid.trans (by decide)), rfl, rfl, rfl, ⟨rfl, rfl, rfl, rfl, rfl, rfl⟩, same,
    answered_completed rfl memory rfl serves.no_load⟩

end Memory

/-- Settles O30: the adder's answer is the sum. -/
theorem amrAddsTheWord : Obligations.AmrAddsTheWord :=
  fun f _ _ _ ready policy value valid => (AluOnMemory.amr f).leaves ready policy value valid (answers_add _ _ _)

/-- Settles O31: the adder's answer is the difference, its carry the "no borrow" one. -/
theorem smrSubtractsTheWord : Obligations.SmrSubtractsTheWord :=
  fun f _ _ _ ready policy value valid => (AluOnMemory.smr f).leaves ready policy value valid (answers_subtract _ _ _)

/-! ### AIR and SIR -/

/-- AIR and SIR, with what each asks of the ALU and its fields (R243, R244). -/
inductive AluOnImmediate : Instr → AluControl → Fields → Prop
  | air (f : Fields) : AluOnImmediate (.air f) .add f
  | sir (f : Fields) : AluOnImmediate (.sir f) .subtract f

/-- s after E0 of AIR or SIR: the immediate latched (R243, R244). -/
def State.immediateLatched (s : State) (f : Fields) : State :=
  advance { enterExecute s with imm := immediateOf f }

section Immediate
variable {i : Instr} {c : AluControl} {f : Fields} {s : State} {x : AdderAnswer}

theorem unlessFailFast_implement (policy : s.cfg.arithPolicy = .implement) (k : State → Res Unit) :
    unlessFailFast s k = k s := by
  rw [unlessFailFast, policy]

theorem AluOnImmediate.handler (h : AluOnImmediate i c f) :
    handlerOf i 0 = (fun s => unlessFailFast s (immediateStep f)) ∧ handlerOf i 1 = aluOnImmediateStep c f.r ∧
      handlerOf i 2 = writeResultStep f.r := by
  cases h with
  | air f | sir f => exact ⟨rfl, rfl, rfl⟩

theorem AluOnImmediate.runPasses_latched (h : AluOnImmediate i c f) (ready : s.Ready)
    (policy : s.cfg.arithPolicy = .implement) : s.RunPasses i 2 (s.immediateLatched f) := by
  obtain ⟨first, -, -⟩ := h.handler
  have latches : handlerOf i 0 (enterExecute s) = .ok () (s.immediateLatched f) :=
    (congrFun first _).trans (unlessFailFast_implement (s := enterExecute s) policy _)
  exact ((runPasses_enterExecute i s).mono (j := 3) (by omega)).tick
    (tickOf_idle latches ready.alu_idle ready.idle ready.no_load) (inside_of_micro rfl)

/-- What AIR and SIR leave of the adder's answer on the register and the immediate, without a memory access. -/
theorem AluOnImmediate.leaves (h : AluOnImmediate i c f) (ready : s.Ready) (policy : s.cfg.arithPolicy = .implement)
    (answers : Answers s.cfg c (s.getGpr f.r) (immediateOf f) x) :
    ∃ t, exec i s = .next t ∧ t.getGpr f.r = x.word ∧ s.SameGprBut t f.r ∧ t.ix = s.ix ∧
      t.cc = ⟨x.ov, x.uf, s.cc.dz⟩ ∧
      t.alu.state = .computationFinished ∧ t.alu.op1 = none ∧ t.alu.op2 = none ∧ t.alu.ctl = c ∧
      t.alu.flags = ⟨some t.cc.ov, some t.cc.uf, none⟩ ∧ t.alu.result = some (.ofWord x.word) ∧
      t.mar = s.mar ∧ t.mbr = s.mbr ∧ t.ea = s.ea ∧ t.imm = immediateOf f ∧ s.SameSpecial t ∧ t.mem = s.mem ∧
      s.Completed t := by
  obtain ⟨-, second, third⟩ := h.handler
  have starts : handlerOf i 1 (s.immediateLatched f) =
      .ok () (advance (startAlu c (s.getGpr f.r) (immediateOf f) (s.immediateLatched f))) :=
    congrFun second _
  have memory : (s.immediateLatched f).MemoryOk := ready.memory.of_mem rfl rfl
  exact ⟨_, (h.runPasses_latched ready policy).exec_answered starts third answers ready.idle ready.no_load,
    setGpr_getGpr_same s f.r _, fun q hq => setGpr_getGpr_other s f.r q _ hq, rfl, rfl, rfl, rfl, rfl, rfl, rfl, rfl,
    rfl, rfl, rfl, rfl, ⟨rfl, rfl, rfl, rfl, rfl, rfl⟩, rfl,
    answered_completed rfl memory ready.idle ready.no_load⟩

end Immediate

/-- Settles O32: the adder's answer is the sum with the immediate. -/
theorem airAddsTheImmediate : Obligations.AirAddsTheImmediate := by
  intro f s ready policy
  rw [← immediateOf_eq]
  exact (AluOnImmediate.air f).leaves ready policy (answers_add_immediate s.cfg (s.getGpr f.r) f)

/-- Settles O33: the adder's answer is the difference with the immediate. -/
theorem sirSubtractsTheImmediate : Obligations.SirSubtractsTheImmediate := by
  intro f s ready policy
  rw [← immediateOf_eq]
  exact (AluOnImmediate.sir f).leaves ready policy (answers_subtract_immediate s.cfg (s.getGpr f.r) f)

/-! ### The placeholder policy -/

/-- Settles O37: E0 is the first micro-step of the run, and its stop is the run's end. -/
theorem failFastStopsArithmetic : Obligations.FailFastStopsArithmetic := by
  intro i s arith policy
  have stops {t : State} (same : t.cfg = s.cfg) : handlerOf i 0 t = .stop .notImplemented :=
    handlerOf_zero_failFast arith (same ▸ policy)
  exact ⟨((runPasses_enterExecute i s).mono (j := 1) (by omega)).stops (stops rfl), stops rfl⟩

end Sys2Proof.Machine
end

section
/-! The branch mnemonics (spec/44_unhandled_and_recorder.md R260 to R263): executing one vectors the fault of its E0, and the
recorder lists the addresses of their Words. -/

namespace Sys2Proof.Machine

/-! ### No handler (R260, R261) -/

section NoHandler
variable {i : Instr}

theorem handlerOf_eq_raise_opcodeOf (branch : isBranch i = true) (k : Nat) (s : State) :
    handlerOf i k s = .raise (.illegalOpcode (opcodeOf s.cfg.opcodes i)) s := by
  cases i with
  | jne f | jcc f | sob f | jge f => rfl
  | ldr f | str f | lda f | ldx f | stx f | amr f | smr f | air f | sir f => cases branch

/-- Vectoring resets the sequencer, wherever in the instruction the fault was raised (R276). -/
@[simp] theorem takeFault_enterExecute (g : MachineFault) (s : State) :
    takeFault g (enterExecute s) = takeFault g s := rfl

theorem exec_branch (branch : isBranch i = true) (s : State) :
    exec i s = .next (takeFault (.illegalOpcode (opcodeOf s.cfg.opcodes i)) s) := by
  have vectors : handlerTick i (enterExecute s) =
      .next (takeFault (.illegalOpcode (opcodeOf s.cfg.opcodes i)) (enterExecute s)) :=
    tickOf_raise (handlerOf_eq_raise_opcodeOf branch 0 (enterExecute s))
  rw [takeFault_enterExecute] at vectors
  exact ((runPasses_enterExecute i s).mono (j := 1) (by omega)).ends vectors rfl

end NoHandler

/-- Settles O34: the run is the vectoring of the fault that E0 raises. -/
theorem branchOpcodesRaiseIllegalOpcode : Obligations.BranchOpcodesRaiseIllegalOpcode := by
  intro i s branch memory
  obtain ⟨vectored, again⟩ := takeFault_vectored memory (.illegalOpcode (opcodeOf s.cfg.opcodes i))
  exact ⟨_, exec_branch branch s, vectored, rfl, rfl, rfl, rfl, rfl, again, fun _ => rfl⟩

/-! ### The branch-history recorder (R263) -/

section Recorder
variable {s : State} {a : Nat} {r : BranchRecord}

theorem isBranchOpcode_iff {m : OpcodeMap} {op : BitVec 6} :
    isBranchOpcode m op = true ↔ op = m.jcc ∨ op = m.jne ∨ op = m.jge ∨ op = m.sob := by
  simp [isBranchOpcode, or_assoc]

theorem scanAddress_eq_some_iff :
    scanAddress s a = some r ↔
      isBranchOpcode s.cfg.opcodes ((s.memval a).extractLsb' 14 6) = true ∧
        r = ⟨a, Config.branchDescriptor a, true⟩ := by
  rw [scanAddress, Option.ite_none_right_eq_some, Option.some.injEq, eq_comm (b := r)]
  rfl

theorem mem_scanMemory_iff :
    r ∈ scanMemory s ↔
      validAddress r.address ∧
        isBranchOpcode s.cfg.opcodes ((s.memval r.address).extractLsb' 14 6) = true ∧
        r = ⟨r.address, Config.branchDescriptor r.address, true⟩ := by
  simp only [scanMemory, List.mem_filterMap, List.mem_range, scanAddress_eq_some_iff]
  constructor
  · rintro ⟨a, valid, branch, rfl⟩
    exact ⟨valid, branch, rfl⟩
  · rintro ⟨valid, branch, record⟩
    exact ⟨r.address, valid, branch, record⟩

end Recorder

/-- Settles O60: the scan keeps the addresses whose opcode field is a branch's, each with its text and predicted taken. -/
theorem scanRecordsBranchOpcodes : Obligations.ScanRecordsBranchOpcodes := by
  intro s
  refine ⟨rfl, fun a taken => ?_⟩
  simp only [mem_scanMemory_iff, isBranchOpcode_iff]
  constructor
  · rintro ⟨text, valid, branch, record⟩
    cases record
    exact ⟨rfl, valid, branch⟩
  · rintro ⟨rfl, valid, branch⟩
    exact ⟨Config.branchDescriptor a, valid, branch, rfl⟩

end Sys2Proof.Machine
end

section
/-! Machine faults (spec/60_exceptions.md R270 to R278): which faults the parts of a tick can raise, from any state at all,
and what vectoring them leaves. -/

namespace Sys2Proof.Machine

/-! ### Which faults a part of a tick raises (R271, R273, R274) -/

/-- The faults with a cause in the core: an opcode without a handler, and an address no memory backs (R271, R274). -/
inductive HasCause : MachineFault → Prop
  | opcode (op : BitVec 6) : HasCause (.illegalOpcode op)
  | address {a : Nat} (invalid : ¬validAddress a) : HasCause (.illegalMemoryAddress a)

/-- A part of a tick goes on, stops, or raises a fault that has a cause. -/
def Res.RaisesWithCause {α : Type} : Res α → Prop
  | .ok _ _ => True
  | .raise f _ => HasCause f
  | .stop _ => True

section Shared
variable {α β : Type} {s : State}

theorem Res.RaisesWithCause.bind {x : Res α} {k : α → State → Res β} (hx : x.RaisesWithCause)
    (hk : ∀ a t, (k a t).RaisesWithCause) : (x.bind k).RaisesWithCause := by
  cases x with
  | ok a t => exact hk a t
  | raise f t => exact hx
  | stop r => trivial

theorem holdIfBusy_raisesWithCause {k : State → Res Unit} (hk : s.isBusy = false → (k s).RaisesWithCause) :
    (holdIfBusy s k).RaisesWithCause := by
  cases hb : s.isBusy with
  | true => rw [holdIfBusy_busy hb]; trivial
  | false => rw [holdIfBusy_idle hb]; exact hk hb

theorem unlessFailFast_raisesWithCause {k : State → Res Unit} (hk : (k s).RaisesWithCause) :
    (unlessFailFast s k).RaisesWithCause := by
  unfold unlessFailFast
  split
  · exact hk
  · trivial

theorem directRead_raisesWithCause (a : Nat) (s : State) : (directRead a s).RaisesWithCause := by
  unfold directRead
  split
  next => trivial
  next invalid => exact .address invalid

theorem computeEA_raisesWithCause (f : Fields) (s : State) : (computeEA f s).RaisesWithCause := by
  have first := directRead_raisesWithCause f.addr.toNat s
  have second (a : Nat) (t : State) : ((directRead a t).bind fun w u => Res.ok w.toNat u).RaisesWithCause :=
    (directRead_raisesWithCause a t).bind fun _ _ => trivial
  unfold computeEA
  split
  · trivial
  · exact first.bind fun _ _ => trivial
  · exact first.bind fun p t => second p.toNat t
  · exact first.bind fun _ t => second _ t

theorem eaStep_raisesWithCause (f : Fields) (s : State) : (eaStep f s).RaisesWithCause :=
  (computeEA_raisesWithCause f s).bind fun _ _ => trivial

/-- What does not fit MAR is no address of memory either (R62, R188). -/
theorem loadMar_raisesWithCause (s : State) : (loadMar s).RaisesWithCause := by
  unfold loadMar
  split
  next => trivial
  next wide => exact .address fun valid => wide (by simp only [validAddress, Config.memWords] at valid; omega)

theorem fetchOperandStep_raisesWithCause (s : State) : (fetchOperandStep s).RaisesWithCause :=
  holdIfBusy_raisesWithCause fun _ => (loadMar_raisesWithCause s).bind fun _ _ => trivial

theorem storeOperandStep_raisesWithCause (w : Word) (s : State) : (storeOperandStep w s).RaisesWithCause :=
  holdIfBusy_raisesWithCause fun _ => (loadMar_raisesWithCause s).bind fun _ _ => trivial

theorem State.Proceeds.raisesWithCause {r : Res Unit} (h : s.Proceeds r) : r.RaisesWithCause := by
  cases h <;> trivial

theorem State.Finishes.raisesWithCause {r : Res Unit} (h : s.Finishes r) : r.RaisesWithCause := by
  cases h <;> trivial

theorem loadGprStep_raisesWithCause (r : BitVec 2) (s : State) : (loadGprStep r s).RaisesWithCause :=
  holdIfBusy_raisesWithCause fun _ => trivial

/-- Index register 0 and a Word above 8191 stop the run; they raise nothing (R213, R214, R217). -/
theorem loadIndexStep_raisesWithCause (field : BitVec 2) (s : State) : (loadIndexStep field s).RaisesWithCause := by
  refine holdIfBusy_raisesWithCause fun _ => ?_
  split
  · trivial
  · split <;> trivial

end Shared

/-! ### The handlers -/

section Handlers
variable {i : Instr}

/-- E0 computes the address and E1 loads it into MAR; no later micro-step has a fault to raise (R210, R241, R242). -/
theorem handlerOf_raisesWithCause_of_usesMemory (user : usesMemory i = true) (k : Nat) (s : State) :
    (handlerOf i k s).RaisesWithCause := by
  match k with
  | 0 =>
    cases i with
    | ldr f | str f | lda f | ldx f | stx f => exact eaStep_raisesWithCause f s
    | amr f | smr f => exact unlessFailFast_raisesWithCause (eaStep_raisesWithCause f s)
    | air f | sir f | jne f | jcc f | sob f | jge f => cases user
  | 1 =>
    cases i with
    | ldr f | lda f | ldx f | amr f | smr f => exact fetchOperandStep_raisesWithCause s
    | str f => exact storeOperandStep_raisesWithCause (s.getGpr f.r) s
    | stx f =>
      rw [handlerOf, stxStep]
      split
      · exact holdIfBusy_raisesWithCause fun _ => trivial
      · exact storeOperandStep_raisesWithCause _ s
    | air f | sir f | jne f | jcc f | sob f | jge f => cases user
  | 2 =>
    cases hb : s.isBusy with
    | true => rw [handlerOf_two_busy user hb]; trivial
    | false => exact (handlerOf_two_proceeds user hb).raisesWithCause
  | 3 =>
    cases i with
    | ldr f => exact loadGprStep_raisesWithCause f.r s
    | lda f => exact loadIndexStep_raisesWithCause f.r s
    | ldx f => exact loadIndexStep_raisesWithCause f.x s
    | str f | stx f => trivial
    | amr f | smr f => exact (writeResultStep_finishes f.r).raisesWithCause
    | air f | sir f | jne f | jcc f | sob f | jge f => cases user
  | _ + 4 =>
    cases i with
    | ldr f | str f | lda f | ldx f | stx f | amr f | smr f => trivial
    | air f | sir f | jne f | jcc f | sob f | jge f => cases user

/-- AIR and SIR take their operand from the instruction: nothing faults (R243 to R245). -/
theorem immediateArithStep_raisesWithCause (c : AluControl) (f : Fields) (k : Nat) (s : State) :
    (immediateArithStep c f k s).RaisesWithCause := by
  match k with
  | 0 => exact unlessFailFast_raisesWithCause (immediateStep_proceeds f s).raisesWithCause
  | 1 => trivial
  | 2 => exact (writeResultStep_finishes f.r).raisesWithCause
  | _ + 3 => trivial

theorem handlerOf_raisesWithCause (i : Instr) (k : Nat) (s : State) : (handlerOf i k s).RaisesWithCause := by
  cases i with
  | ldr f | str f | lda f | ldx f | stx f | amr f | smr f => exact handlerOf_raisesWithCause_of_usesMemory rfl k s
  | air f =>
    rw [handlerOf, airStep_eq]
    exact immediateArithStep_raisesWithCause .add f k s
  | sir f =>
    rw [handlerOf, sirStep_eq]
    exact immediateArithStep_raisesWithCause .subtract f k s
  | jne f | jcc f | sob f | jge f => exact .opcode _

theorem dispatchHandler_raisesWithCause (m : OpcodeMap) (d : Decoded) (k : Nat) (s : State) :
    (dispatchHandler m d k s).RaisesWithCause := by
  unfold dispatchHandler
  cases instrOf m d with
  | ok i => exact handlerOf_raisesWithCause i k s
  | error e =>
    obtain ⟨op⟩ := e
    exact .opcode op

end Handlers

/-! ### The three component steps of a tick -/

section Tick
variable (s : State)

theorem controlStep_raisesWithCause : (controlStep s).RaisesWithCause := by
  unfold controlStep
  split
  · split
    · exact holdIfBusy_raisesWithCause fun _ => trivial
    · exact holdIfBusy_raisesWithCause fun _ => trivial
  · trivial
  · exact dispatchHandler_raisesWithCause _ _ _ s

theorem aluStep_raisesWithCause : (aluStep s).RaisesWithCause := by
  unfold aluStep
  split
  · trivial
  · trivial
  · split <;> trivial

theorem fetchRequestStep_raisesWithCause : (fetchRequestStep s).RaisesWithCause := by
  unfold fetchRequestStep
  split
  next =>
    split
    · split <;> trivial
    · trivial
  next invalid => exact .address invalid

theorem storeRequestStep_raisesWithCause : (storeRequestStep s).RaisesWithCause := by
  unfold storeRequestStep
  split
  next =>
    split
    · split <;> trivial
    · trivial
  next invalid => exact .address invalid

theorem memoryStep_raisesWithCause : (memoryStep s).RaisesWithCause := by
  unfold memoryStep requestStep
  split
  · trivial
  · trivial
  · exact fetchRequestStep_raisesWithCause _
  · exact storeRequestStep_raisesWithCause _

/-- Every fault of a tick has a cause in the core, whatever state the tick starts from (R271, R274). -/
theorem tickBody_raisesWithCause : (tickBody controlStep s).RaisesWithCause :=
  (controlStep_raisesWithCause s).bind fun _ t =>
    (aluStep_raisesWithCause t).bind fun _ u => memoryStep_raisesWithCause u

end Tick

/-- Settles O41: ILLEGAL_TRAP_CODE is not one of the faults with a cause. -/
theorem illegalTrapCodeIsNeverRaised : Obligations.IllegalTrapCodeIsNeverRaised := by
  intro s t raised
  have cause := tickBody_raisesWithCause s
  rw [raised] at cause
  cases cause

/-! ### The vectoring sequence (R276) -/

/-- Settles O40: the one Word written is the saved PC, and every latch the sequence does not reset is as before. -/
theorem vectoringSequence : Obligations.VectoringSequence := by
  intro f s memory
  obtain ⟨vectored, again⟩ := takeFault_vectored memory f
  exact ⟨vectored, again.memory, rfl, rfl, rfl, rfl, rfl, rfl, rfl, rfl⟩

/-! ### A fetch from beyond memory (R271, R311) -/

/-- F0 puts the PC into MAR and the memory step of the same tick refuses it (R62, R181). -/
theorem tick_of_unbacked_pc {s : State} (h : s.Inv) (invalid : ¬validAddress s.pc.toNat) :
    tick s = .next (takeFault (.illegalMemoryAddress s.pc.toNat) s.fetching) :=
  (tick_boundary h).trans (congrArg Res.settle (memoryStep_invalid (s := s.fetching) rfl h.no_load invalid))

/-- Settles O42: F0 changes nothing but MAR, the memory unit and the sequencer before the fault. -/
theorem fetchBeyondMemoryFaults : Obligations.FetchBeyondMemoryFaults := by
  intro s h invalid
  have memory : s.fetching.MemoryOk := h.memory.of_mem rfl rfl
  obtain ⟨vectored, -⟩ := takeFault_vectored memory (.illegalMemoryAddress s.pc.toNat)
  exact ⟨_, step_of_unbacked_pc h invalid, tick_of_unbacked_pc h invalid,
    vectored.of_frame (fun _ _ => rfl) rfl, rfl⟩

end Sys2Proof.Machine
end

section
/-! What the host may do between ticks (spec/70_reset_and_hazards.md R310): the writes that need an instruction boundary,
the checked deposits, and the engineer's accesses. -/

namespace Sys2Proof.Machine

/-! ### The boundary (R310, D40) -/

section Boundary
variable {s : State} {r : HostResult}

theorem atBoundaryOnly_of_boundary (h : s.atBoundary = true) : atBoundaryOnly s r = r := if_pos h

theorem atBoundaryOnly_of_inside (h : s.atBoundary = false) : atBoundaryOnly s r = .rejected := by
  simp [atBoundaryOnly, h]

end Boundary

/-- Settles O57: the three actions ask for the boundary before anything else. -/
theorem hostWritesNeedABoundary : Obligations.HostWritesNeedABoundary :=
  fun _ inside =>
    ⟨fun _ _ => atBoundaryOnly_of_inside inside, fun _ => atBoundaryOnly_of_inside inside,
      atBoundaryOnly_of_inside inside⟩

/-! ### Registers (R44) -/

theorem registerWidth_legal (r : NumberedRegister) : 1 ≤ registerWidth r ∧ registerWidth r ≤ 64 := by
  cases r <;> simp [registerWidth]

theorem namesRegisters (s : State) : s.NamesRegisters :=
  ⟨rfl, rfl, rfl, rfl, fun _ => rfl, fun _ => rfl, rfl, rfl, rfl⟩

section Deposit
variable (s : State) (k : Int)

/-- A deposit reads back as the pattern of its width (R131). -/
theorem readNumber_writeNumber_same (r : NumberedRegister) :
    (readNumber r (writeNumber r k s) : Int) = k % 2 ^ registerWidth r := by
  rw [← toNat_ofInt_eq_emod]
  cases r with
  | gpr q => exact congrArg (fun w : Word => (w.toNat : Int)) (setGpr_getGpr_same s q _)
  | ix j => exact congrArg (fun a : Addr => (a.toNat : Int)) (setIx_getIx_same s j _)
  | pc | ir | msr | mfr | mar | mbr => rfl

theorem readNumber_writeNumber_other {r other : NumberedRegister} (h : other ≠ r) :
    readNumber other (writeNumber r k s) = readNumber other s := by
  cases r with
  | gpr q =>
    cases other with
    | gpr p => exact congrArg BitVec.toNat (setGpr_getGpr_other s q p _ fun e => h (congrArg _ e))
    | pc | ir | msr | mfr | ix j | mar | mbr => rfl
  | ix j =>
    cases other with
    | ix i => exact congrArg BitVec.toNat (setIx_getIx_other s j i _ fun e => h (congrArg _ e))
    | pc | ir | msr | mfr | gpr q | mar | mbr => rfl
  | pc | ir | msr | mfr | mar | mbr =>
    revert h
    cases other <;> simp [readNumber, writeNumber, State.getGpr, State.getIx]

theorem writeNumber_sameButRegister (r : NumberedRegister) :
    s.SameButRegister (writeNumber r k s) (.numbered r) where
  registers other h := by
    cases other with
    | numbered q => exact congrArg RegisterValue.number (readNumber_writeNumber_other s k fun e => h (congrArg _ e))
    | cc => cases r <;> rfl
  cfg := by cases r <;> rfl
  mem := by cases r <;> rfl
  mcu := by cases r <;> rfl
  alu := by cases r <;> rfl
  sequencer := by cases r <;> exact ⟨rfl, rfl⟩
  latches := by cases r <;> exact ⟨rfl, rfl, rfl⟩
  outcome := by cases r <;> rfl

theorem setCc_sameButRegister (cc : CondCodes) : s.SameButRegister { s with cc := cc } .cc where
  registers other h := by
    cases other with
    | numbered q => cases q <;> rfl
    | cc => exact absurd rfl h
  cfg := rfl
  mem := rfl
  mcu := rfl
  alu := rfl
  sequencer := ⟨rfl, rfl⟩
  latches := ⟨rfl, rfl, rfl⟩
  outcome := rfl

variable {s k} {r : NumberedRegister}

theorem deposit_inRange (boundary : s.atBoundary = true)
    (range : minSigned (registerWidth r) ≤ k ∧ k ≤ maxUnsigned (registerWidth r)) :
    hostAct (.depositRegister (.number r k)) s = .done .nothing (writeNumber r k s) := by
  simp only [hostAct, atBoundaryOnly_of_boundary boundary, depositResult,
    makeBits_of_inRange (registerWidth_legal r) range]

theorem deposit_outOfRange (boundary : s.atBoundary = true)
    (out : k < minSigned (registerWidth r) ∨ maxUnsigned (registerWidth r) < k) :
    hostAct (.depositRegister (.number r k)) s = .fatal .range := by
  simp only [hostAct, atBoundaryOnly_of_boundary boundary, depositResult, makeBits_of_outOfRange out]

end Deposit

/-- Settles O58: the checked constructor admits the number or stops, and what it admits is written to one register. -/
theorem depositsAreChecked : Obligations.DepositsAreChecked := by
  refine fun s => ⟨namesRegisters s, fun _ => rfl, fun boundary =>
    ⟨fun r k => ⟨fun range => ?_, deposit_outOfRange boundary⟩, fun cc => ?_⟩⟩
  · exact ⟨_, deposit_inRange boundary range, readNumber_writeNumber_same s k r, writeNumber_sameButRegister s k r⟩
  · exact ⟨_, atBoundaryOnly_of_boundary boundary, rfl, setCc_sameButRegister s cc⟩

/-! ### The engineer's accesses -/

/-- Settles O59: the host sees the direct access itself, and its fault without the vectoring of a tick. -/
theorem engineerAccessIsDirect : Obligations.EngineerAccessIsDirect := by
  intro s a w h
  refine ⟨fun ha => ⟨?_, fun boundary => ?_⟩, fun ha => ⟨?_, fun boundary => ?_⟩⟩
  · exact ⟨_, congrArg (accessResult .word) (directRead_eq h ha), rfl, (memAfterRead_kept h ha).same⟩
  · refine ⟨{ s with mem := s.memAfterWrite a w }, ?_, rfl, memAfterWrite_sameMemoryBut h ha rfl⟩
    rw [hostAct, atBoundaryOnly_of_boundary boundary, directWrite_eq w ha, accessResult]
  · rw [hostAct, directRead_invalid ha, accessResult]
  · rw [hostAct, atBoundaryOnly_of_boundary boundary, directWrite_invalid w ha, accessResult]

end Sys2Proof.Machine
end

section
/-! Reset (spec/70_reset_and_hazards.md R300, spec/10_state.md R40): what loading the boot image leaves of memory and cache,
and the boundary invariant of the state it ends in. -/

namespace Sys2Proof.Machine

/-! ### Loading the boot image -/

section LoadImage
variable {m : MemorySystem} {en : Bool} {l : List (BitVec 11 × Word)}

theorem image_address_valid (a : BitVec 11) : validAddress a.toNat := a.isLt

theorem MemorySystem.Coherent.loadImage_other (h : m.Coherent) (hoff : en = false → ∀ i, (m.line i).valid = false)
    {b : Nat} (hb : validAddress b) (outside : ∀ c ∈ l, c.1.toNat ≠ b) : (m.loadImage en l).memval b = m.memval b := by
  induction l generalizing m with
  | nil => rfl
  | cons p rest ih =>
    obtain ⟨a, w⟩ := p
    obtain ⟨first, others⟩ := List.forall_mem_cons.1 outside
    obtain ⟨coherent, -, value, off⟩ := h.directWrite en a.toNat w (image_address_valid a) hoff
    exact (ih coherent off others).trans ((value b hb).trans (if_neg fun e => first e.symm))

/-- No Word of the image is overwritten by a later one: the addresses rise (R300). -/
theorem MemorySystem.Coherent.loadImage_listed (h : m.Coherent) (hoff : en = false → ∀ i, (m.line i).valid = false)
    (rising : (l.map (·.1.toNat)).Pairwise (· < ·)) {a : BitVec 11} {w : Word} (listed : (a, w) ∈ l) :
    (m.loadImage en l).memval a.toNat = w := by
  induction l generalizing m with
  | nil => cases listed
  | cons p rest ih =>
    obtain ⟨b, x⟩ := p
    obtain ⟨below, rising⟩ := List.pairwise_cons.1 rising
    obtain ⟨coherent, -, value, off⟩ := h.directWrite en b.toNat x (image_address_valid b) hoff
    rcases List.mem_cons.1 listed with same | later
    · cases same
      have outside : ∀ c ∈ rest, c.1.toNat ≠ a.toNat := fun c hc => (below _ (List.mem_map_of_mem hc)).ne'
      exact (coherent.loadImage_other off (image_address_valid a) outside).trans
        ((value _ (image_address_valid a)).trans (if_pos rfl))
    · exact ih coherent off rising later

/-- With the cache disabled a write goes past it. -/
theorem loadImage_disabled (m : MemorySystem) (l : List (BitVec 11 × Word)) :
    m.loadImage false l = { m with backing := (m.loadImage false l).backing } := by
  induction l generalizing m with
  | nil => rfl
  | cons p rest ih => exact ih _

theorem loadImage_keeps_lines (quiet : en = false ∨ l = []) :
    (m.loadImage en l).lruClock = m.lruClock ∧ ∀ i, (m.loadImage en l).line i = m.line i := by
  rcases quiet with rfl | rfl
  · rw [loadImage_disabled]
    exact ⟨rfl, fun _ => rfl⟩
  · exact ⟨rfl, fun _ => rfl⟩

end LoadImage

theorem cleared_no_lines (i : Fin 8) : (MemorySystem.cleared.line i).valid = false := by
  rw [cleared_line]
  rfl

theorem cleared_memval (a : Nat) : MemorySystem.cleared.memval a = 0 := memval_of_no_lines cleared_no_lines a

/-! ### The state after reset -/

theorem resetWith_inv (p : Params) : (State.resetWith p).Inv :=
  let ⟨coherent, pending, off⟩ := cleared_coherent.loadImage p.cacheEnabled p.bootImage fun _ => cleared_no_lines
  { memory := ⟨coherent, fun e => ⟨pending, off e⟩⟩
    running := rfl
    boundary := rfl
    mcu_idle := rfl
    no_load := pending
    alu_idle := nofun
    operands_absent := ⟨rfl, rfl⟩
    word_result := nofun
    ea_bound := Nat.zero_le _ }

theorem resetWith_getGpr (p : Params) (r : BitVec 2) : (State.resetWith p).getGpr r = 0 := Vector.getElem_replicate _

theorem resetWith_getIx (p : Params) (j : Fin 3) : (State.resetWith p).getIx j = 0 := Vector.getElem_replicate _

/-- Settles O48: the parameters do not matter to the invariant. -/
theorem resetSatisfiesTheInvariant : Obligations.ResetSatisfiesTheInvariant := resetWith_inv Params.standard

/-- Settles O49: memory is what loading the image into the cleared memory system leaves, everything else a literal. -/
theorem resetWithAnyBootImage : Obligations.ResetWithAnyBootImage := by
  intro p legal
  obtain ⟨-, -, rising⟩ := legal
  have off (_ : p.cacheEnabled = false) := cleared_no_lines
  refine ⟨resetWith_inv p, rfl, rfl, resetWith_getGpr p, resetWith_getIx p, rfl, rfl, rfl, rfl, rfl, rfl, rfl,
    (resetWith_inv p).no_load, rfl, rfl, rfl, rfl, rfl, rfl, rfl, rfl, rfl, rfl, rfl,
    fun a w listed => cleared_coherent.loadImage_listed off rising listed,
    fun b hb outside => (cleared_coherent.loadImage_other off hb outside).trans (cleared_memval b), fun quiet => ?_⟩
  obtain ⟨clock, lines⟩ := loadImage_keeps_lines (m := MemorySystem.cleared) quiet
  refine ⟨clock, fun i => ?_⟩
  have line : (State.resetWith p).mem.line i = CacheLine.unused := (lines i).trans (cleared_line i)
  rw [line]
  exact ⟨rfl, rfl, rfl⟩

end Sys2Proof.Machine
end

section
/-! Forward progress (spec/70_reset_and_hazards.md R309, spec/20_memory.md R99, spec/41_cycle_and_ea.md R192, R193): a bound on
the ticks an instruction has left, from any state at all, that each tick inside the instruction lowers. -/

namespace Sys2Proof.Machine

/-! ### The wait for the memory unit -/

section Wait
variable {s t : State}

/-- The most ticks a block load takes: none with the cache disabled, else at least one (D20, log 7). -/
def State.loadBound (s : State) : Nat := if s.cfg.cacheEnabled = true then max s.cfg.blockLoadTicks 1 else 0

/-- The ticks until the load under way ends; with the cache disabled none is waited for (R77, R86). -/
def State.pendingBound (s : State) : Nat :=
  if s.cfg.cacheEnabled = true then s.mem.pending.elim 0 fun load => max load.2 1 else 0

/-- A load is under way, and it is of the block at MAR. -/
def State.loadsOwnBlock (s : State) : Bool :=
  s.cfg.cacheEnabled && decide (s.mem.pending.map Prod.fst = some (tagOf s.mar.toNat))

/-- The most ticks an outstanding request adds to the load under way: those of its own load, which may not have begun. -/
def State.requestBound (s : State) : Nat := if (s.isBusy && !s.loadsOwnBlock) = true then s.loadBound + 1 else 0

/-- The most ticks until the memory unit has served its request. -/
def State.waitBound (s : State) : Nat := s.pendingBound + s.requestBound

theorem loadBound_congr (cfg : t.cfg = s.cfg) : t.loadBound = s.loadBound := by
  rw [State.loadBound, State.loadBound, cfg]

theorem pendingBound_congr (cfg : t.cfg = s.cfg) (pending : t.mem.pending = s.mem.pending) :
    t.pendingBound = s.pendingBound := by
  rw [State.pendingBound, State.pendingBound, cfg, pending]

theorem isBusy_congr (mcu : t.mcuState = s.mcuState) : t.isBusy = s.isBusy := by
  unfold State.isBusy
  rw [mcu]

theorem loadsOwnBlock_congr (cfg : t.cfg = s.cfg) (pending : t.mem.pending = s.mem.pending) (mar : t.mar = s.mar) :
    t.loadsOwnBlock = s.loadsOwnBlock := by
  rw [State.loadsOwnBlock, State.loadsOwnBlock, cfg, pending, mar]

theorem waitBound_congr (cfg : t.cfg = s.cfg) (pending : t.mem.pending = s.mem.pending) (mar : t.mar = s.mar)
    (mcu : t.mcuState = s.mcuState) : t.waitBound = s.waitBound := by
  rw [State.waitBound, State.waitBound, pendingBound_congr cfg pending, State.requestBound, State.requestBound,
    isBusy_congr mcu, loadsOwnBlock_congr cfg pending mar, loadBound_congr cfg]

theorem requestBound_le : s.requestBound ≤ s.loadBound + 1 := by
  unfold State.requestBound
  split
  · exact le_rfl
  · exact Nat.zero_le _

theorem requestBound_idle (idle : s.isBusy = false) : s.requestBound = 0 := by
  simp [State.requestBound, idle]

theorem waitBound_idle (idle : s.isBusy = false) : s.waitBound = s.pendingBound := by
  rw [State.waitBound, requestBound_idle idle, Nat.add_zero]

theorem pendingBound_le_waitBound : s.pendingBound ≤ s.waitBound := Nat.le_add_right _ _

theorem requestBound_other (busy : s.isBusy = true) (other : s.loadsOwnBlock = false) :
    s.requestBound = s.loadBound + 1 := by
  simp [State.requestBound, busy, other]

theorem loadsOwnBlock_disabled (disabled : s.cfg.cacheEnabled = false) : s.loadsOwnBlock = false := by
  simp [State.loadsOwnBlock, disabled]

theorem loadsOwnBlock_none (pending : s.mem.pending = none) : s.loadsOwnBlock = false := by
  simp [State.loadsOwnBlock, pending]

theorem loadsOwnBlock_some (enabled : s.cfg.cacheEnabled = true) {tg : Tag} {n : Nat}
    (pending : s.mem.pending = some (tg, n)) : s.loadsOwnBlock = decide (tg = tagOf s.mar.toNat) := by
  simp [State.loadsOwnBlock, enabled, pending]

theorem pendingBound_disabled (disabled : s.cfg.cacheEnabled = false) : s.pendingBound = 0 := by
  simp [State.pendingBound, disabled]

theorem pendingBound_none (pending : s.mem.pending = none) : s.pendingBound = 0 := by
  simp [State.pendingBound, pending]

theorem pendingBound_some (enabled : s.cfg.cacheEnabled = true) {tg : Tag} {n : Nat}
    (pending : s.mem.pending = some (tg, n)) : s.pendingBound = max n 1 := by
  simp [State.pendingBound, enabled, pending]

/-! ### The memory step, whatever the memory holds -/

theorem fill_lineOf_isSome (m : MemorySystem) (i : Fin 8) (tg : Tag) : (m.fill i tg).lineOf tg ≠ none := fun missing =>
  lineOf_none _ missing i (by simp [fill_line]) (by simp [fill_line])

/-- An allocated block is held, even by a cache that holds it twice. -/
theorem ensure_lineOf_isSome (m : MemorySystem) (tg : Tag) : (m.ensure tg).lineOf tg ≠ none := by
  unfold MemorySystem.ensure
  cases held : m.lineOf tg with
  | some i => simp [held]
  | none => exact fill_lineOf_isSome _ _ _

theorem ensure_pending (m : MemorySystem) (tg : Tag) : (m.ensure tg).pending = m.pending := by
  unfold MemorySystem.ensure
  split
  · rfl
  · simp [MemorySystem.allocate]

/-- What the memory unit does with its request once the cache has made its step (R73 to R75). -/
inductive State.RequestMove (s : State) : State → Prop
  | idle (idle : s.isBusy = false) : RequestMove s s
  | served {t : State} (idle : t.isBusy = false) (cfg : t.cfg = s.cfg) (pending : t.mem.pending = s.mem.pending) :
      RequestMove s t
  | missed (busy : s.isBusy = true) (enabled : s.cfg.cacheEnabled = true)
      (missing : s.mem.lineOf (tagOf s.mar.toNat) = none) :
      RequestMove s { s with mem := s.mem.requestBlock s.cfg.blockLoadTicks (tagOf s.mar.toNat) }

theorem fetchRequestStep_move (busy : s.isBusy = true) (h : fetchRequestStep s = .ok () t) : s.RequestMove t := by
  unfold fetchRequestStep at h
  split at h
  · split at h
    next enabled =>
      cases held : s.mem.lineOf (tagOf s.mar.toNat) with
      | some i =>
        simp only [MemorySystem.fetchWord, held] at h
        cases h
        exact .served rfl rfl rfl
      | none =>
        simp only [MemorySystem.fetchWord, held] at h
        cases h
        exact .missed busy enabled held
    next =>
      cases h
      exact .served rfl rfl rfl
  · cases h

theorem storeRequestStep_move (busy : s.isBusy = true) (h : storeRequestStep s = .ok () t) : s.RequestMove t := by
  unfold storeRequestStep at h
  split at h
  · split at h
    next enabled =>
      cases held : s.mem.lineOf (tagOf s.mar.toNat) with
      | some i =>
        simp only [MemorySystem.storeWord, held, if_true] at h
        cases h
        exact .served rfl rfl rfl
      | none =>
        simp only [MemorySystem.storeWord, held, Bool.false_eq_true, if_false] at h
        cases h
        exact .missed busy enabled held
    next =>
      cases h
      exact .served rfl rfl rfl
  · cases h

theorem requestStep_move (h : requestStep s = .ok () t) : s.RequestMove t := by
  unfold requestStep at h
  split at h
  next mcu =>
    cases h
    exact .idle (by simp [mcu])
  next mcu =>
    cases h
    exact .idle (by simp [mcu])
  next mcu => exact fetchRequestStep_move (by simp [State.isBusy, mcu]) h
  next mcu => exact storeRequestStep_move (by simp [State.isBusy, mcu]) h

theorem waitBound_of_served (idle : t.isBusy = false) (cfg : t.cfg = s.cfg)
    (pending : t.mem.pending = s.mem.pending) : t.waitBound = s.pendingBound :=
  (waitBound_idle idle).trans (pendingBound_congr cfg pending)

/-- A request that starts its own load waits for that alone. -/
theorem waitBound_of_missed (enabled : s.cfg.cacheEnabled = true) (pending : s.mem.pending = none) :
    State.waitBound { s with mem := s.mem.requestBlock s.cfg.blockLoadTicks (tagOf s.mar.toNat) } = s.loadBound := by
  simp [State.waitBound, State.pendingBound, State.requestBound, State.loadsOwnBlock, State.loadBound,
    MemorySystem.requestBlock, enabled, pending]

/-- A memory step brings the end of the wait nearer while a request is outstanding, and never puts it off. -/
structure State.WaitLowers (s t : State) : Prop where
  le : t.waitBound ≤ s.waitBound
  lt : s.isBusy = true → t.waitBound < s.waitBound

theorem waitLowers_of_lt (h : t.waitBound < s.waitBound) : s.WaitLowers t := ⟨h.le, fun _ => h⟩

/-- With the cache disabled a request is served in its tick. -/
theorem State.RequestMove.waitLowers_disabled (h : s.RequestMove t) (disabled : s.cfg.cacheEnabled = false) :
    s.WaitLowers t := by
  cases h with
  | idle idle => exact ⟨le_rfl, fun busy => by simp [idle] at busy⟩
  | served idle cfg pending =>
    have wait := (waitBound_of_served idle cfg pending).trans (pendingBound_disabled disabled)
    refine ⟨by omega, fun busy => ?_⟩
    have request := requestBound_other busy (loadsOwnBlock_disabled disabled)
    simp only [State.waitBound] at wait ⊢
    omega
  | missed _ enabled _ => simp [disabled] at enabled

/-- With no load under way a request is served, or its own load begins. -/
theorem State.RequestMove.waitLowers_no_load (h : s.RequestMove t) (pending : s.mem.pending = none) :
    s.WaitLowers t := by
  have request (busy : s.isBusy = true) : s.waitBound = s.loadBound + 1 := by
    rw [State.waitBound, pendingBound_none pending, Nat.zero_add, requestBound_other busy (loadsOwnBlock_none pending)]
  cases h with
  | idle idle => exact ⟨le_rfl, fun busy => by simp [idle] at busy⟩
  | served idle cfg same =>
    have wait := (waitBound_of_served idle cfg same).trans (pendingBound_none pending)
    refine ⟨by omega, fun busy => ?_⟩
    rw [wait, request busy]
    omega
  | missed busy enabled _ =>
    refine waitLowers_of_lt ?_
    rw [waitBound_of_missed enabled pending, request busy]
    exact Nat.lt_succ_self _

/-- While a load is under way no other begins. -/
theorem State.RequestMove.waitBound_le_of_load (h : s.RequestMove t) {load : Tag × Nat}
    (pending : s.mem.pending = some load) : t.waitBound ≤ s.waitBound := by
  cases h with
  | idle _ => exact le_rfl
  | served idle cfg same => exact (waitBound_of_served idle cfg same).trans_le pendingBound_le_waitBound
  | missed _ _ _ =>
    have same : s.mem.requestBlock s.cfg.blockLoadTicks (tagOf s.mar.toNat) = s.mem := by
      simp [MemorySystem.requestBlock, pending]
    rw [same]

/-- A load counts down (R86). -/
theorem waitLowers_of_count (enabled : s.cfg.cacheEnabled = true) {tg : Tag} {n : Nat}
    (pending : s.mem.pending = some (tg, n)) (more : 1 < n)
    (h : State.RequestMove { s with mem := { s.mem with pending := some (tg, n - 1) } } t) : s.WaitLowers t := by
  have le := h.waitBound_le_of_load rfl
  have before := pendingBound_some enabled pending
  have after := pendingBound_some (s := { s with mem := { s.mem with pending := some (tg, n - 1) } }) enabled rfl
  have same : State.requestBound { s with mem := { s.mem with pending := some (tg, n - 1) } } = s.requestBound := by
    simp [State.requestBound, State.loadsOwnBlock, State.isBusy, State.loadBound, pending]
  refine waitLowers_of_lt ?_
  simp only [State.waitBound, same, before, after] at le ⊢
  omega

/-- A load ends, its block held; a request for another block begins its own (R86). -/
theorem waitLowers_of_arrival (enabled : s.cfg.cacheEnabled = true) {tg : Tag} {n : Nat}
    (pending : s.mem.pending = some (tg, n)) (last : n ≤ 1)
    (h : State.RequestMove { s with mem := { s.mem.ensure tg with pending := none } } t) : s.WaitLowers t := by
  have before : s.waitBound = 1 + s.requestBound := by
    rw [State.waitBound, pendingBound_some enabled pending, max_eq_right last]
  have quiet : State.pendingBound { s with mem := { s.mem.ensure tg with pending := none } } = 0 := pendingBound_none rfl
  refine waitLowers_of_lt ?_
  cases h with
  | idle idle =>
    rw [waitBound_idle idle, quiet, before]
    omega
  | served idle cfg same =>
    rw [waitBound_of_served idle cfg same, quiet, before]
    omega
  | missed busy _ missing =>
    have other : tg ≠ tagOf s.mar.toNat := fun own => ensure_lineOf_isSome s.mem tg (own ▸ missing)
    have request : s.requestBound = s.loadBound + 1 :=
      requestBound_other busy (by rw [loadsOwnBlock_some enabled pending]; exact decide_eq_false other)
    have begun := waitBound_of_missed (s := { s with mem := { s.mem.ensure tg with pending := none } }) enabled rfl
    have load : State.loadBound { s with mem := { s.mem.ensure tg with pending := none } } = s.loadBound :=
      loadBound_congr rfl
    rw [begun, before, request, load]
    omega

theorem memoryStep_waitLowers (h : memoryStep s = .ok () t) : s.WaitLowers t := by
  have move := requestStep_move h
  cases enabled : s.cfg.cacheEnabled with
  | false =>
    rw [cacheStep, if_neg (by simp [enabled])] at move
    exact move.waitLowers_disabled enabled
  | true =>
    cases pending : s.mem.pending with
    | none =>
      rw [cacheStep_no_load pending] at move
      exact move.waitLowers_no_load pending
    | some load =>
      obtain ⟨tg, n⟩ := load
      rw [cacheStep, if_pos enabled] at move
      by_cases more : 1 < n
      · rw [cacheStep_count pending more] at move
        exact waitLowers_of_count enabled pending more move
      · rw [cacheStep_arrive pending (Nat.not_lt.1 more)] at move
        exact waitLowers_of_arrival enabled pending (Nat.not_lt.1 more) move

end Wait

end Sys2Proof.Machine
end

section
/-! Each tick inside an instruction lowers the bound on the ticks it has left (spec/70_reset_and_hazards.md R305, R309): what a
ControlUnit micro-step can do from any state at all, coherent or not, and the tick around it. -/

namespace Sys2Proof.Machine

/-! ### The effective address, whatever the memory holds -/

/-- At most the memory system has changed, and not its pending load. -/
structure State.OnlyRead (s t : State) : Prop where
  frame : t = { s with mem := t.mem }
  pending : t.mem.pending = s.mem.pending

section OnlyRead
variable {s t u : State}

theorem State.OnlyRead.refl (s : State) : s.OnlyRead s := ⟨rfl, rfl⟩

theorem directRead_pending (m : MemorySystem) (en : Bool) (a : Nat) : (m.directRead en a).2.pending = m.pending := by
  unfold MemorySystem.directRead
  split
  · split <;> exact ensure_pending m (tagOf a)
  · rfl

theorem directRead_onlyRead (a : Nat) (h : s.OnlyRead u) : (directRead a u).Leaves s.OnlyRead := by
  unfold directRead
  split
  · refine ⟨?_, (directRead_pending _ _ _).trans h.pending⟩
    rw [h.frame]
  · exact h

/-- Every path of R185 is at most two direct reads. -/
theorem computeEA_onlyRead (f : Fields) (s : State) : (computeEA f s).Leaves s.OnlyRead := by
  have first := directRead_onlyRead f.addr.toNat (.refl s)
  unfold computeEA
  split
  · exact .refl s
  · exact first.bind (fun _ h => h) fun _ _ h => h
  · exact first.bind (fun _ h => h) fun _ _ h => (directRead_onlyRead _ h).bind (fun _ h => h) fun _ _ h => h
  · exact first.bind (fun _ h => h) fun _ _ h => (directRead_onlyRead _ h).bind (fun _ h => h) fun _ _ h => h

end OnlyRead

/-! ### What a handler's micro-step can do, whatever the state -/

/-- What a ControlUnit micro-step of a handler can do from s, at its micro-step number. -/
inductive State.HandlerMove (s : State) : Res Unit → Prop
  | stopped (r : FatalReason) : HandlerMove s (.stop r)
  | faulted (f : MachineFault) (t : State) : HandlerMove s (.raise f t)
  | holds (busy : s.isBusy = true) : HandlerMove s (.ok () s)
  | advances {m : MemorySystem} {alu : Alu} {ea : Nat} {imm : Word} (early : s.micro ≤ 2)
      (pending : m.pending = s.mem.pending) :
      HandlerMove s (.ok () (advance { s with mem := m, alu := alu, ea := ea, imm := imm }))
  | issues {a : Addr} {w : Word} {q : McuState} (second : s.micro = 1) (idle : s.isBusy = false)
      (busy : q = .preFetch ∨ q = .preStore) :
      HandlerMove s (.ok () (advance { s with mar := a, mbr := w, mcuState := q }))
  | completes {t : State} (boundary : t.atBoundary = true) : HandlerMove s (.ok () t)

section HandlerMove
variable {i : Instr} {s : State}

theorem holdIfBusy_handlerMove {k : State → Res Unit} (hk : s.isBusy = false → s.HandlerMove (k s)) :
    s.HandlerMove (holdIfBusy s k) := by
  cases hb : s.isBusy with
  | true =>
    rw [holdIfBusy_busy hb]
    exact .holds hb
  | false =>
    rw [holdIfBusy_idle hb]
    exact hk hb

theorem unlessFailFast_handlerMove {k : State → Res Unit} (hk : s.HandlerMove (k s)) :
    s.HandlerMove (unlessFailFast s k) := by
  unfold unlessFailFast
  split
  · exact hk
  · exact .stopped _

theorem eaStep_handlerMove (f : Fields) (first : s.micro = 0) : s.HandlerMove (eaStep f s) := by
  have read := computeEA_onlyRead f s
  unfold eaStep
  cases value : computeEA f s with
  | ok ea u =>
    rw [value] at read
    obtain ⟨frame, pending⟩ := read
    rw [Res.bind_ok, frame]
    exact .advances (by omega) pending
  | raise g u => exact .faulted g u
  | stop r => exact .stopped r

theorem fetchOperandStep_handlerMove (second : s.micro = 1) : s.HandlerMove (fetchOperandStep s) :=
  holdIfBusy_handlerMove fun idle => by
    unfold loadMar
    split
    · exact .issues (a := BitVec.ofNat 13 s.ea) (w := s.mbr) second idle (.inl rfl)
    · exact .faulted _ _

theorem storeOperandStep_handlerMove (w : Word) (second : s.micro = 1) : s.HandlerMove (storeOperandStep w s) :=
  holdIfBusy_handlerMove fun idle => by
    unfold loadMar
    split
    · exact .issues (a := BitVec.ofNat 13 s.ea) (w := w) second idle (.inr rfl)
    · exact .faulted _ _

theorem State.Proceeds.handlerMove {r : Res Unit} (h : s.Proceeds r) (early : s.micro ≤ 2) : s.HandlerMove r := by
  cases h with
  | stopped r => exact .stopped r
  | latches imm => exact .advances (m := s.mem) (alu := s.alu) (ea := s.ea) early rfl
  | @startsAdder c a b _ =>
    rw [startAlu_eq]
    exact .advances (m := s.mem) (ea := s.ea) (imm := s.imm) early rfl

theorem State.Finishes.handlerMove {r : Res Unit} (h : s.Finishes r) : s.HandlerMove r := by
  cases h with
  | stopped r => exact .stopped r
  | completes => exact .completes rfl

theorem loadGprStep_handlerMove (r : BitVec 2) (s : State) : s.HandlerMove (loadGprStep r s) :=
  holdIfBusy_handlerMove fun _ => .completes rfl

theorem loadIndexStep_handlerMove (field : BitVec 2) (s : State) : s.HandlerMove (loadIndexStep field s) := by
  cases hb : s.isBusy with
  | true =>
    rw [loadIndexStep, holdIfBusy_busy hb]
    exact .holds hb
  | false => exact (loadIndexStep_finishes hb field).handlerMove

/-- E0 and E1 of an instruction with a memory operand (R187, R188, R210). -/
theorem handlerOf_zero_handlerMove (user : usesMemory i = true) (first : s.micro = 0) :
    s.HandlerMove (handlerOf i 0 s) := by
  cases i with
  | ldr f | str f | lda f | ldx f | stx f => exact eaStep_handlerMove f first
  | amr f | smr f => exact unlessFailFast_handlerMove (eaStep_handlerMove f first)
  | air f | sir f | jne f | jcc f | sob f | jge f => cases user

theorem handlerOf_one_handlerMove (user : usesMemory i = true) (second : s.micro = 1) :
    s.HandlerMove (handlerOf i 1 s) := by
  cases i with
  | ldr f | lda f | ldx f | amr f | smr f => exact fetchOperandStep_handlerMove second
  | str f => exact storeOperandStep_handlerMove (s.getGpr f.r) second
  | stx f =>
    rw [handlerOf, stxStep]
    split
    · exact holdIfBusy_handlerMove fun _ => .stopped _
    · exact storeOperandStep_handlerMove _ second
  | air f | sir f | jne f | jcc f | sob f | jge f => cases user

theorem handlerOf_three_handlerMove (user : usesMemory i = true) : s.HandlerMove (handlerOf i 3 s) := by
  cases i with
  | ldr f => exact loadGprStep_handlerMove f.r s
  | lda f => exact loadIndexStep_handlerMove f.r s
  | ldx f => exact loadIndexStep_handlerMove f.x s
  | str f | stx f => exact .completes rfl
  | amr f | smr f => exact (writeResultStep_finishes f.r).handlerMove
  | air f | sir f | jne f | jcc f | sob f | jge f => cases user

theorem handlerOf_handlerMove_of_usesMemory (user : usesMemory i = true) : s.HandlerMove (handlerOf i s.micro s) := by
  match hk : s.micro with
  | 0 => exact handlerOf_zero_handlerMove user hk
  | 1 => exact handlerOf_one_handlerMove user hk
  | 2 =>
    cases hb : s.isBusy with
    | true =>
      rw [handlerOf_two_busy user hb]
      exact .holds hb
    | false => exact (handlerOf_two_proceeds user hb).handlerMove hk.le
  | 3 => exact handlerOf_three_handlerMove user
  | _ + 4 =>
    cases i with
    | ldr f | str f | lda f | ldx f | stx f | amr f | smr f => exact .completes rfl
    | air f | sir f | jne f | jcc f | sob f | jge f => cases user

theorem immediateArithStep_handlerMove {c : AluControl} (adder : c = .add ∨ c = .subtract) (f : Fields) (s : State) :
    s.HandlerMove (immediateArithStep c f s.micro s) := by
  match hk : s.micro with
  | 0 => exact unlessFailFast_handlerMove ((immediateStep_proceeds f s).handlerMove (by omega))
  | 1 => exact (State.Proceeds.startsAdder adder).handlerMove (by omega)
  | 2 => exact (writeResultStep_finishes f.r).handlerMove
  | _ + 3 => exact .completes rfl

theorem handlerOf_handlerMove (i : Instr) (s : State) : s.HandlerMove (handlerOf i s.micro s) := by
  cases i with
  | ldr f | str f | lda f | ldx f | stx f | amr f | smr f => exact handlerOf_handlerMove_of_usesMemory rfl
  | air f =>
    rw [handlerOf, airStep_eq]
    exact immediateArithStep_handlerMove (.inl rfl) f s
  | sir f =>
    rw [handlerOf, sirStep_eq]
    exact immediateArithStep_handlerMove (.inr rfl) f s
  | jne f | jcc f | sob f | jge f => exact .faulted _ _

theorem dispatchHandler_handlerMove (m : OpcodeMap) (d : Decoded) (s : State) :
    s.HandlerMove (dispatchHandler m d s.micro s) := by
  unfold dispatchHandler
  cases instrOf m d with
  | ok i => exact handlerOf_handlerMove i s
  | error e =>
    obtain ⟨op⟩ := e
    exact .faulted _ _

end HandlerMove

/-! ### The ticks an instruction has left -/

/-- The most ticks from micro-step k of a handler to the next boundary, a request of E1 needing the ticks of one load. -/
def executeBound (load : Nat) : Nat → Nat
  | 0 => 4 + load
  | 1 => 3 + load
  | 2 => 2
  | _ + 3 => 1

/-- The most ticks from the sequencer's place to the next boundary: those of the micro-steps and of the loads their requests
may need (R193, R194). -/
def State.stageBound (s : State) : Nat :=
  match s.phase with
  | .fetch => if s.micro = 0 then 7 + 2 * s.loadBound else 6 + s.loadBound
  | .decode => 5 + s.loadBound
  | .execute => executeBound s.loadBound s.micro

/-- The most ticks to the next boundary, with those the memory unit needs for what it is at. -/
def State.ticksLeft (s : State) : Nat := s.stageBound + s.waitBound

/-- What a tick keeps of the machine inside an instruction: the parameters, the run outcome, and once in the execute phase
that phase and the instruction. -/
structure State.Continues (s t : State) : Prop where
  cfg : t.cfg = s.cfg
  outcome : t.outcome = s.outcome
  execute : s.phase = .execute → t.phase = .execute ∧ t.dec = s.dec

/-- A ControlUnit step ends the instruction, lowers the bound, or keeps it with a request outstanding: the memory step of the
same tick lowers it then. -/
inductive State.ControlProgress (s : State) : Res Unit → Prop
  | stopped (r : FatalReason) : ControlProgress s (.stop r)
  | faulted (f : MachineFault) (t : State) : ControlProgress s (.raise f t)
  | ends {t : State} (boundary : t.atBoundary = true) : ControlProgress s (.ok () t)
  | nearer {t : State} (goes : s.Continues t) (lt : t.ticksLeft < s.ticksLeft) : ControlProgress s (.ok () t)
  | waits {t : State} (goes : s.Continues t) (le : t.ticksLeft ≤ s.ticksLeft) (busy : t.isBusy = true) :
      ControlProgress s (.ok () t)

section Progress
variable {s t u : State}

theorem State.Continues.refl (s : State) : s.Continues s := ⟨rfl, rfl, fun phase => ⟨phase, rfl⟩⟩

theorem State.Continues.trans (h : s.Continues t) (k : t.Continues u) : s.Continues u where
  cfg := k.cfg.trans h.cfg
  outcome := k.outcome.trans h.outcome
  execute phase := by
    obtain ⟨phase, dec⟩ := h.execute phase
    obtain ⟨phase, dec'⟩ := k.execute phase
    exact ⟨phase, dec'.trans dec⟩

theorem executeBound_pos (load k : Nat) : 0 < executeBound load k := by
  unfold executeBound
  split <;> omega

theorem executeBound_succ_lt {load k : Nat} (early : k ≤ 2) : executeBound load (k + 1) < executeBound load k := by
  match k with
  | 0 | 1 | 2 => simp only [executeBound]; omega
  | k + 3 => omega

theorem stageBound_fetch_first (phase : s.phase = .fetch) (micro : s.micro = 0) :
    s.stageBound = 7 + 2 * s.loadBound := by
  simp [State.stageBound, phase, micro]

theorem stageBound_fetch_later (phase : s.phase = .fetch) (micro : s.micro ≠ 0) : s.stageBound = 6 + s.loadBound := by
  simp [State.stageBound, phase, micro]

theorem stageBound_decode (phase : s.phase = .decode) : s.stageBound = 5 + s.loadBound := by
  simp [State.stageBound, phase]

theorem stageBound_execute (phase : s.phase = .execute) : s.stageBound = executeBound s.loadBound s.micro := by
  simp [State.stageBound, phase]

theorem ticksLeft_pos (s : State) : 0 < s.ticksLeft := by
  have stage : 0 < s.stageBound := by
    unfold State.stageBound
    split
    · split <;> omega
    · omega
    · exact executeBound_pos _ _
  exact Nat.add_pos_left stage _

theorem stageBound_congr (cfg : t.cfg = s.cfg) (phase : t.phase = s.phase) (micro : t.micro = s.micro) :
    t.stageBound = s.stageBound := by
  unfold State.stageBound
  rw [phase, micro, loadBound_congr cfg]

theorem atBoundary_congr (phase : t.phase = s.phase) (micro : t.micro = s.micro) : t.atBoundary = s.atBoundary := by
  rw [State.atBoundary, State.atBoundary, phase, micro]

/-- A request of E1 needs its own load at most, and the tick that issues it is the memory unit's too. -/
theorem waitBound_of_issue (cfg : t.cfg = s.cfg) (mem : t.mem = s.mem) :
    t.waitBound ≤ s.waitBound + (s.loadBound + 1) := by
  have load := loadBound_congr cfg
  have pending := pendingBound_congr cfg (congrArg MemorySystem.pending mem)
  have request := requestBound_le (s := t)
  have before := pendingBound_le_waitBound (s := s)
  simp only [State.waitBound] at before ⊢
  omega

theorem ticksLeft_lt_of_advance (phase : s.phase = .execute) (early : s.micro ≤ 2) (phase' : t.phase = .execute)
    (micro : t.micro = s.micro + 1) (cfg : t.cfg = s.cfg) (wait : t.waitBound = s.waitBound) :
    t.ticksLeft < s.ticksLeft := by
  rw [State.ticksLeft, State.ticksLeft, wait, stageBound_execute phase, stageBound_execute phase', micro,
    loadBound_congr cfg]
  exact Nat.add_lt_add_right (executeBound_succ_lt early) _

theorem ticksLeft_le_of_issue (phase : s.phase = .execute) (second : s.micro = 1) (phase' : t.phase = .execute)
    (micro : t.micro = 2) (cfg : t.cfg = s.cfg) (mem : t.mem = s.mem) : t.ticksLeft ≤ s.ticksLeft := by
  have wait := waitBound_of_issue cfg mem
  rw [State.ticksLeft, State.ticksLeft, stageBound_execute phase, stageBound_execute phase', micro, second,
    executeBound, executeBound]
  omega

theorem State.HandlerMove.progress {r : Res Unit} (h : s.HandlerMove r) (phase : s.phase = .execute) :
    s.ControlProgress r := by
  cases h with
  | stopped r => exact .stopped r
  | faulted f t => exact .faulted f t
  | holds busy => exact .waits (.refl s) le_rfl busy
  | advances early pending =>
    exact .nearer ⟨rfl, rfl, fun phase => ⟨phase, rfl⟩⟩
      (ticksLeft_lt_of_advance phase early phase rfl rfl (waitBound_congr rfl pending rfl rfl))
  | issues second idle busy =>
    exact .waits ⟨rfl, rfl, fun phase => ⟨phase, rfl⟩⟩
      (ticksLeft_le_of_issue phase second phase (congrArg (· + 1) second) rfl rfl) (by rcases busy with rfl | rfl <;> rfl)
  | completes boundary => exact .ends boundary

theorem fetchIssueStep_progress (phase : s.phase = .fetch) (micro : s.micro = 0) :
    s.ControlProgress (fetchIssueStep s) := by
  cases hb : s.isBusy with
  | true =>
    rw [fetchIssueStep, holdIfBusy_busy hb]
    exact .ends (by simp [State.atBoundary, phase, micro])
  | false =>
    rw [fetchIssueStep, holdIfBusy_idle hb]
    refine .waits ⟨rfl, rfl, fun execute => by simp [phase] at execute⟩ ?_ rfl
    have before := stageBound_fetch_first phase micro
    have after := stageBound_fetch_later (s := { signalFetch (setMar s.pc s) with micro := 1 }) phase Nat.one_ne_zero
    have load : State.loadBound { signalFetch (setMar s.pc s) with micro := 1 } = s.loadBound := loadBound_congr rfl
    have wait := waitBound_of_issue (s := s) (t := { signalFetch (setMar s.pc s) with micro := 1 }) rfl rfl
    rw [State.ticksLeft, State.ticksLeft, before, after, load]
    omega

theorem fetchLatchStep_progress (phase : s.phase = .fetch) (micro : s.micro ≠ 0) :
    s.ControlProgress (fetchLatchStep s) := by
  cases hb : s.isBusy with
  | true =>
    rw [fetchLatchStep, holdIfBusy_busy hb]
    exact .waits (.refl s) le_rfl hb
  | false =>
    rw [fetchLatchStep, holdIfBusy_idle hb]
    refine .nearer ⟨rfl, rfl, fun execute => by simp [phase] at execute⟩ ?_
    have wait := waitBound_congr (s := s) (t := { s with ir := s.mbr, phase := .decode, micro := 0 }) rfl rfl rfl rfl
    rw [State.ticksLeft, State.ticksLeft, wait, stageBound_fetch_later phase micro, stageBound_decode rfl]
    exact Nat.add_lt_add_right (Nat.add_lt_add_right (by omega) _) _

theorem decodeStep_progress (phase : s.phase = .decode) : s.ControlProgress (decodeStep s) := by
  refine .nearer ⟨rfl, rfl, fun execute => by simp [phase] at execute⟩ ?_
  have wait := waitBound_congr (s := s) (t := { s with dec := decodeFields s.ir, phase := .execute, micro := 0 })
    rfl rfl rfl rfl
  rw [State.ticksLeft, State.ticksLeft, wait, stageBound_decode phase, stageBound_execute rfl]
  exact Nat.add_lt_add_right (Nat.add_lt_add_right (by omega) _) _

theorem controlStep_progress (s : State) : s.ControlProgress (controlStep s) := by
  unfold controlStep
  split
  next phase =>
    split
    next micro => exact fetchIssueStep_progress phase micro
    next micro => exact fetchLatchStep_progress phase micro
  next phase => exact decodeStep_progress phase
  next phase => exact (dispatchHandler_handlerMove _ _ s).progress phase

/-! ### The tick -/

/-- Neither the ALU's step nor the memory step moves the sequencer, and the memory step shortens its wait. -/
theorem units_progress {v : State} (alu : aluStep u = .ok () v) (memory : memoryStep v = .ok () t) :
    t.atBoundary = u.atBoundary ∧ u.Continues t ∧ t.ticksLeft ≤ u.ticksLeft ∧
      (u.isBusy = true → t.ticksLeft < u.ticksLeft) := by
  have computes := aluStep_sameButAlu u
  have frame := memoryStep_sameButLatches v
  rw [alu, Res.leaves_ok] at computes
  rw [memory, Res.leaves_ok] at frame
  obtain ⟨le, lt⟩ := memoryStep_waitLowers memory
  have cfg : t.cfg = u.cfg := by rw [frame, computes]
  have phase : t.phase = u.phase := by rw [frame, computes]
  have micro : t.micro = u.micro := by rw [frame, computes]
  have wait : v.waitBound = u.waitBound := by rw [computes]; exact waitBound_congr rfl rfl rfl rfl
  have busy : v.isBusy = u.isBusy := by rw [computes]; exact isBusy_congr rfl
  refine ⟨atBoundary_congr phase micro, ⟨cfg, by rw [frame, computes], fun execute => ⟨phase.trans execute, ?_⟩⟩, ?_,
    fun outstanding => ?_⟩
  · rw [frame, computes]
  · rw [State.ticksLeft, State.ticksLeft, stageBound_congr cfg phase micro]
    omega
  · have lower := lt (busy.trans outstanding)
    rw [State.ticksLeft, State.ticksLeft, stageBound_congr cfg phase micro]
    omega

theorem tick_eq_next (h : tick s = .next t) : tickOf controlStep s = .next t := by
  unfold tick at h
  split at h
  · cases h
  · exact h

theorem tick_ne_fault (s : State) (r : Fault) : tick s ≠ .fault r := by
  unfold tick tickOf
  split
  · nofun
  · cases tickBody controlStep s <;> nofun

/-- A tick leads to a boundary or goes on with fewer ticks left (R305, R309). -/
theorem tick_progress (h : tick s = .next t) : t.atBoundary = true ∨ s.Continues t ∧ t.ticksLeft < s.ticksLeft := by
  rcases tickOf_next (tick_eq_next h) with body | ⟨f, u, -, rfl⟩
  · obtain ⟨_, u, control, rest⟩ := Res.bind_eq_ok.1 body
    obtain ⟨_, v, alu, memory⟩ := Res.bind_eq_ok.1 rest
    obtain ⟨place, goes, le, lt⟩ := units_progress alu memory
    have progress := controlStep_progress s
    rw [control] at progress
    cases progress with
    | ends boundary => exact .inl (place.trans boundary)
    | nearer first lower => exact .inr ⟨first.trans goes, le.trans_lt lower⟩
    | waits first same busy => exact .inr ⟨first.trans goes, (lt busy).trans_le same⟩
  · exact .inl rfl

end Progress

end Sys2Proof.Machine
end

section
/-! The step as a run of ticks (spec/70_reset_and_hazards.md R305, R307, R309): from any state at all the step's runs of fetch,
decode and execute are one run of ticks to the next boundary, within the bound on the ticks left. -/

namespace Sys2Proof.Machine

/-! ### A run that ends -/

section Ends
variable {more : State → Bool} {k n : Nat} {s t u v : State}

theorem State.Passes.ticks_eq (h : s.Passes more k v) : ticks k s = .next v := by
  induction h with
  | refl s => rfl
  | tick ht _ _ ih => simp only [ticks, ht, ih]

theorem State.Passes.before (h : s.Passes more k v) (j : Nat) (hj : j < k) :
    ∃ w, ticks (j + 1) s = .next w ∧ more w = true := by
  induction h generalizing j with
  | refl s => cases hj
  | @tick n s u v ht hm _ ih =>
    have first (i : Nat) : ticks (i + 1) s = ticks i u := by rw [ticks, ht]
    cases j with
    | zero => exact ⟨u, first 0, hm⟩
    | succ j =>
      obtain ⟨w, hw, more_w⟩ := ih j (by omega)
      exact ⟨w, (first _).trans hw, more_w⟩

theorem State.Passes.before_inside (h : s.Passes State.inside k v) (j : Nat) (hj : j < k) :
    ∃ w, ticks (j + 1) s = .next w ∧ w.atBoundary = false := by
  obtain ⟨w, hw, inside⟩ := h.before j hj
  exact ⟨w, hw, State.inside_iff.1 inside⟩

theorem ticks_succ_of_passes (h : s.Passes more k v) (ht : tick v = .next t) : ticks (k + 1) s = .next t :=
  (ticks_add h.ticks_eq).trans (reachesIn_one ht).reaches

theorem State.Passes.mono {more' : State → Bool} (sub : ∀ w, more w = true → more' w = true)
    (h : s.Passes more k v) : s.Passes more' k v := by
  induction h with
  | refl s => exact .refl s
  | tick ht hm _ ih => exact .tick ht (sub _ hm) ih

theorem State.Passes.trans {j : Nat} (h : s.Passes more k v) (rest : v.Passes more j t) :
    ∃ n, s.Passes more n t := by
  induction h with
  | refl s => exact ⟨j, rest⟩
  | tick ht hm _ ih =>
    obtain ⟨n, whole⟩ := ih rest
    exact ⟨n + 1, .tick ht hm whole⟩

/-- Ticks inside an instruction lower the bound one by one. -/
theorem State.Passes.ticksLeft (h : s.Passes State.inside k v) : k + v.ticksLeft ≤ s.ticksLeft := by
  induction h with
  | refl s => exact (Nat.zero_add _).le
  | tick ht hm _ ih =>
    rcases tick_progress ht with boundary | ⟨-, lower⟩
    · simp [State.inside, boundary] at hm
    · omega

/-- The ticks from s come to v, each asking for more, and end with the tick of v, whose outcome is x. -/
structure State.EndsAt (more : State → Bool) (s v : State) (x : Host.Outcome State Fault Refusal) : Prop where
  passes : ∃ k, s.Passes more k v
  last : tick v = x
  ends : ∀ t, x = .next t → more t = false

/-- A run with as many ticks as the bound comes to its end. -/
theorem runWhile_endsAt (inside_of_more : ∀ w, more w = true → w.inside = true) (enough : s.ticksLeft ≤ n) :
    ∃ v, s.EndsAt more v (runWhile more tick n s) := by
  induction n generalizing s with
  | zero => exact absurd (ticksLeft_pos s) (by omega)
  | succ n ih =>
    cases ht : tick s with
    | next u =>
      cases hm : more u with
      | true =>
        have lower : u.ticksLeft < s.ticksLeft := by
          rcases tick_progress ht with boundary | ⟨-, lower⟩
          · simpa [State.inside, boundary] using inside_of_more u hm
          · exact lower
        obtain ⟨v, ⟨k, passes⟩, last, ends⟩ := ih (s := u) (by omega)
        rw [runWhile_more n ht hm]
        exact ⟨v, ⟨k + 1, .tick ht hm passes⟩, last, ends⟩
      | false =>
        rw [runWhile_last n ht hm]
        exact ⟨s, ⟨0, .refl s⟩, ht, fun t e => Host.Outcome.next.inj e ▸ hm⟩
    | fault r => exact absurd ht (tick_ne_fault s r)
    | refused r =>
      rw [runWhile_refused n ht]
      exact ⟨s, ⟨0, .refl s⟩, ht, fun _ e => nomatch e⟩

/-- The budget of a step covers the bound (log 1). -/
theorem ticksLeft_le_tickBudget (s : State) : s.ticksLeft ≤ s.tickBudget := by
  have load : s.loadBound ≤ s.cfg.blockLoadTicks + 1 := by
    unfold State.loadBound
    split <;> omega
  have stage : s.stageBound ≤ 7 + 2 * s.loadBound := by
    unfold State.stageBound executeBound
    split
    · split <;> omega
    · omega
    · split <;> omega
  have pending : s.pendingBound ≤ s.pendingTicks + 1 := by
    unfold State.pendingBound State.pendingTicks
    split
    · cases s.mem.pending with
      | none => exact Nat.zero_le _
      | some load => simp
    · exact Nat.zero_le _
  have request := requestBound_le (s := s)
  rw [State.ticksLeft, State.waitBound, State.tickBudget]
  omega

end Ends

/-! ### The runs of a step -/

section Step
variable {i : Instr} {s t u v : State} {x : Host.Outcome State Fault Refusal}

theorem tick_dispatches (h : s.Dispatches i) (ht : tick s = .next t) (going : t.inside = true) : t.Dispatches i := by
  rcases tick_progress ht with boundary | ⟨⟨cfg, outcome, execute⟩, -⟩
  · simp [State.inside, boundary] at going
  · obtain ⟨phase, dec⟩ := execute h.phase
    exact h.of_frame (phase.trans h.phase.symm) cfg dec outcome

theorem runWhile_handlerTick (h : s.Dispatches i) (n : Nat) :
    runWhile State.inside (handlerTick i) n s = runWhile State.inside tick n s :=
  (runWhile_congr (P := State.Dispatches i) (fun _ h => h.tick_eq) (fun _ _ h ht going => by
    rw [← h.tick_eq] at ht
    exact tick_dispatches h ht going) n h).symm

theorem enterExecute_of_first (phase : s.phase = .execute) (micro : s.micro = 0) : enterExecute s = s := by
  rw [enterExecute, ← phase, ← micro]

/-- The execute phase is a run of ticks, from whichever micro-step (R184, R305). -/
theorem executeDecoded_eq_runWhile (running : s.outcome = .running) (phase : s.phase = .execute) :
    executeDecoded s = runWhile State.inside tick s.tickBudget s := by
  unfold executeDecoded
  cases decoded : instrOf s.cfg.opcodes s.dec with
  | ok i =>
    rw [← runWhile_handlerTick ⟨phase, decoded, running⟩]
    by_cases micro : s.micro = 0
    · simp only [micro, if_true]
      rw [exec_eq_runWhile, enterExecute_of_first phase micro]
      rfl
    · simp only [micro, if_false]
      rfl
  | error e =>
    obtain ⟨op⟩ := e
    have control : controlStep s = .raise (.illegalOpcode op) s := by
      simp only [controlStep, phase, dispatchHandler, decoded, noHandlerStep]
    have vectors : tick s = .next (takeFault (.illegalOpcode op) s) := (tick_running running).trans (tickOf_raise control)
    obtain ⟨n, budget⟩ := tickBudget_eq s
    rw [budget, runWhile_last _ vectors rfl]
    exact (execNoHandler_eq op s).trans rfl

theorem executeDecoded_endsAt (running : s.outcome = .running) (phase : s.phase = .execute) :
    ∃ v, s.EndsAt State.inside v (executeDecoded s) := by
  rw [executeDecoded_eq_runWhile running phase]
  exact runWhile_endsAt (fun _ h => h) (ticksLeft_le_tickBudget s)

theorem inside_of_stillFetching (h : s.stillFetching = true) : s.inside = true := by
  simp only [State.stillFetching, Bool.and_eq_true] at h
  exact h.2

theorem State.Passes.continues {k : Nat} (h : s.Passes State.inside k v) : s.Continues v := by
  induction h with
  | refl s => exact .refl s
  | tick ht hm _ ih =>
    rcases tick_progress ht with boundary | ⟨goes, -⟩
    · simp [State.inside, boundary] at hm
    · exact goes.trans ih

/-- Ticks of fetch and decode that end in the execute phase go on into it. -/
theorem State.EndsAt.into_execute (h : s.EndsAt State.stillFetching v (.next u)) (phase : u.phase = .execute) :
    ∃ k, s.Passes State.inside k u := by
  obtain ⟨⟨k, passes⟩, last, -⟩ := h
  have inside : u.inside = true := by simp [State.inside, State.atBoundary, phase]
  exact (passes.mono fun _ => inside_of_stillFetching).trans (.tick last inside (.refl u))

/-- Where fetch and decode do not come to the execute phase, the step ends there. -/
theorem State.EndsAt.of_fetching (h : s.EndsAt State.stillFetching v x) (outside : ∀ t, x = .next t → t.phase ≠ .execute) :
    s.EndsAt State.inside v x := by
  obtain ⟨⟨k, passes⟩, last, ends⟩ := h
  refine ⟨⟨k, passes.mono fun _ => inside_of_stillFetching⟩, last, fun t e => ?_⟩
  have done := ends t e
  simpa [State.stillFetching, State.inside, outside t e] using done

/-- The step is the ticks to the next boundary or stop (R305, R307). -/
theorem step_endsAt (running : s.outcome = .running) : ∃ v, s.EndsAt State.inside v (step s) := by
  by_cases execute : s.phase = .execute
  · have run : step s = executeDecoded s := by simp [step, running, fetchAndDecode, execute]
    rw [run]
    exact executeDecoded_endsAt running execute
  · have fetches : fetchAndDecode s = runWhile State.stillFetching tick s.tickBudget s := if_neg execute
    obtain ⟨v, ended⟩ := runWhile_endsAt (fun _ => inside_of_stillFetching) (ticksLeft_le_tickBudget s)
    rw [← fetches] at ended
    cases run : fetchAndDecode s with
    | next u =>
      rw [run] at ended
      by_cases phase : u.phase = .execute
      · obtain ⟨k, passes⟩ := ended.into_execute phase
        obtain ⟨w, ⟨j, rest⟩, last, ends⟩ := executeDecoded_endsAt (passes.continues.outcome.trans running) phase
        have whole : step s = executeDecoded u := by simp [step, running, run, phase]
        rw [whole]
        exact ⟨w, passes.trans rest, last, ends⟩
      · have whole : step s = .next u := by simp [step, running, run, phase]
        rw [whole]
        exact ⟨v, ended.of_fetching fun t e => Host.Outcome.next.inj e ▸ phase⟩
    | fault r => exact absurd (ended.last.trans run) (tick_ne_fault v r)
    | refused r =>
      have whole : step s = .refused r := by simp [step, running, run]
      rw [run] at ended
      rw [whole]
      exact ⟨v, ended.of_fetching fun _ e => nomatch e⟩

theorem step_ne_fault (s : State) (r : Fault) : step s ≠ .fault r := by
  cases outcome : s.outcome with
  | running =>
    obtain ⟨v, ended⟩ := step_endsAt outcome
    exact fun fault => tick_ne_fault v r (ended.last.trans fault)
  | fatal reason => simp [step_of_fatal outcome]

end Step

/-- Settles O45: the ticks before the last lead to states inside the instruction, and the last gives the step's outcome. -/
theorem stepIsTicksToTheNextBoundary : Obligations.StepIsTicksToTheNextBoundary := by
  intro s running
  obtain ⟨v, ⟨k, passes⟩, last, ends⟩ := step_endsAt running
  have before := passes.before_inside
  refine ⟨fun t ht => ⟨?_, k, ticks_succ_of_passes passes (last.trans ht), before⟩,
    fun r hr => ⟨k, v, passes.ticks_eq, last.trans hr, before⟩⟩
  simpa [State.inside] using ends t ht

/-! ### From an instruction boundary (R309) -/

theorem loadBound_le {s : State} (load : s.cfg.cacheEnabled = true → 1 ≤ s.cfg.blockLoadTicks) :
    s.loadBound ≤ s.cfg.blockLoadTicks := by
  unfold State.loadBound
  split
  next enabled => exact max_le le_rfl (load enabled)
  · exact Nat.zero_le _

/-- Seven micro-steps and the loads of the fetch and of one operand. -/
theorem State.Inv.ticksLeft_le {s : State} (h : s.Inv) (load : s.cfg.cacheEnabled = true → 1 ≤ s.cfg.blockLoadTicks) :
    s.ticksLeft ≤ 7 + 2 * s.cfg.blockLoadTicks := by
  obtain ⟨phase, micro⟩ := h.at_fetch
  have bound := loadBound_le load
  rw [State.ticksLeft, waitBound_idle h.idle, pendingBound_none h.no_load, stageBound_fetch_first phase micro]
  omega

/-- Settles O46: the bound on the ticks left is within the budget everywhere, and at a boundary it is R309's. -/
theorem stepNeverStalls : Obligations.StepNeverStalls := by
  refine ⟨step_ne_fault, fun s h load => ?_⟩
  obtain ⟨v, ⟨k, passes⟩, last, -⟩ := step_endsAt h.running
  have whole : k + 1 ≤ 7 + 2 * s.cfg.blockLoadTicks := by
    have left := passes.ticksLeft
    have some_left := ticksLeft_pos v
    have bound := h.ticksLeft_le load
    omega
  refine ⟨fun t ht => ⟨k + 1, Nat.succ_pos k, whole, ticks_succ_of_passes passes (last.trans ht), fun j pos lt => ?_⟩,
    fun r hr => ⟨k, v, whole, passes.ticks_eq, last.trans hr⟩⟩
  obtain ⟨j, rfl⟩ := Nat.exists_eq_succ_of_ne_zero pos.ne'
  exact passes.before_inside j (by omega)

end Sys2Proof.Machine
end

section
/-! The cache is transparent (spec/70_reset_and_hazards.md R312, spec/20_memory.md R97): the outcome of an instruction, as far as
the view reaches, is a function of the view it starts from. -/

namespace Sys2Proof.Machine

/-- Outcomes that look alike: next states of one view, or one stop. -/
inductive Alike : Host.Outcome State Fault Refusal → Host.Outcome State Fault Refusal → Prop
  | next {t v : State} (view : t.SameView v) : Alike (.next t) (.next v)
  | refused (r : Refusal) : Alike (.refused r) (.refused r)

/-- The parameters are the same but for the cache. -/
def SameButCache (p q : Params) : Prop := q = { p with cacheEnabled := q.cacheEnabled }

/-- Two states of one view that an execute phase can start from, each with or without the cache. -/
structure State.Twins (s u : State) : Prop where
  ready : s.Ready
  ready' : u.Ready
  cfg : SameButCache s.cfg u.cfg
  view : s.SameView u

/-! ### What the view determines -/

section View
variable {s t u v : State} {p q : Params} {m n : MemorySystem} {f : Fields}

theorem SameButCache.opcodes (h : SameButCache p q) : q.opcodes = p.opcodes := by rw [h]
theorem SameButCache.arithPolicy (h : SameButCache p q) : q.arithPolicy = p.arithPolicy := by rw [h]
theorem SameButCache.faultCodes (h : SameButCache p q) : q.faultCodes = p.faultCodes := by rw [h]
theorem SameButCache.faultPcSave (h : SameButCache p q) : q.faultPcSave = p.faultPcSave := by rw [h]

theorem SameButCache.answers {c : AluControl} {a b : Word} {x : AdderAnswer} (h : SameButCache p q)
    (answers : Answers p c a b x) : Answers q c a b x := by
  have same : aluCompute q c (.ofWord a) (.ofWord b) = aluCompute p c (.ofWord a) (.ofWord b) := by
    rw [h]
    cases c <;> rfl
  exact same.trans answers

theorem State.SameView.getGpr (h : s.SameView u) (r : BitVec 2) : u.getGpr r = s.getGpr r := by
  simp only [State.getGpr, h.gpr]

theorem State.SameView.getIx (h : s.SameView u) (j : Fin 3) : u.getIx j = s.getIx j := by
  simp only [State.getIx, h.ix]

/-- Reads leave memory systems of one content. -/
theorem State.SameView.kept (h : s.SameView u) (k : MemoryKept s m) (l : MemoryKept u n) (a : Nat)
    (ha : validAddress a) : n.memval a = m.memval a :=
  (l.same a ha).trans ((h.memory a ha).trans (k.same a ha).symm)

theorem State.SameView.effectiveAddress (h : s.SameView u) : u.effectiveAddress f = s.effectiveAddress f := by
  have first : u.memval f.addr.toNat = s.memval f.addr.toNat := h.memory _ (addr_valid f)
  unfold State.effectiveAddress
  split
  · rfl
  · rw [h.getIx, first]
  · rw [first]
    exact if_ctx_congr Iff.rfl (fun valid => by rw [h.memory _ valid]) fun _ => rfl
  · rw [h.getIx, first]
    exact if_ctx_congr Iff.rfl (fun valid => by rw [h.memory _ valid]) fun _ => rfl

theorem State.SameView.requestWord (h : s.SameView u) (i : Instr) : u.requestWord i = s.requestWord i := by
  unfold State.requestWord
  split
  · exact h.getGpr _
  · simp only [h.getIx, h.mbr]
  · exact h.mbr

/-- What a vectored fault leaves of memory (R276). -/
theorem takeFault_memval (ok : s.MemoryOk) (g : MachineFault) {a : Nat} (ha : validAddress a) :
    (takeFault g s).memval a = if a = s.cfg.faultPcSave.toNat then s.pc.setWidth 20 else s.memval a :=
  (directWrite_valid ok (s.pc.setWidth 20) s.cfg.faultPcSave.isLt).2.2 a ha

/-- Faults of one code are vectored alike. -/
theorem State.SameView.takeFault (h : s.SameView u) (cfg : SameButCache s.cfg u.cfg) (ok : s.MemoryOk) (ok' : u.MemoryOk)
    {f g : MachineFault} (code : ∀ c, faultCode c g = faultCode c f) : (takeFault f s).SameView (takeFault g u) where
  gpr := h.gpr
  ix := h.ix
  pc := rfl
  ir := h.ir
  msr := h.msr
  mfr := by rw [takeFault_mfr, takeFault_mfr, cfg.faultCodes, code]
  cc := h.cc
  mar := h.mar
  mbr := h.mbr
  alu := by rw [takeFault_alu, takeFault_alu, h.alu]
  ea := h.ea
  imm := h.imm
  dec := h.dec
  memory a ha := by rw [takeFault_memval ok f ha, takeFault_memval ok' g ha, cfg.faultPcSave, h.pc, h.memory a ha]

/-- Completed instructions look alike where they leave registers, flags and latches alike. -/
theorem State.SameView.of_completed (h : s.SameView u) (special : s.SameSpecial t) (special' : u.SameSpecial v)
    (done : s.Completed t) (done' : u.Completed v) (gpr : v.gpr = t.gpr) (ix : v.ix = t.ix) (cc : v.cc = t.cc)
    (alu : v.alu = t.alu) (mar : v.mar = t.mar) (mbr : v.mbr = t.mbr) (ea : v.ea = t.ea) (imm : v.imm = t.imm)
    (memory : t.SameMemory v) : t.SameView v where
  gpr := gpr
  ix := ix
  pc := by rw [done'.pc, done.pc, h.pc]
  ir := special'.ir.trans (h.ir.trans special.ir.symm)
  msr := special'.msr.trans (h.msr.trans special.msr.symm)
  mfr := special'.mfr.trans (h.mfr.trans special.mfr.symm)
  cc := cc
  mar := mar
  mbr := mbr
  alu := alu
  ea := ea
  imm := imm
  dec := special'.dec.trans (h.dec.trans special.dec.symm)
  memory := memory

theorem gpr_ext (h : ∀ r, v.getGpr r = t.getGpr r) : v.gpr = t.gpr :=
  Vector.ext fun k hk => h (BitVec.ofFin ⟨k, hk⟩)

theorem ix_ext (h : ∀ j, v.getIx j = t.getIx j) : v.ix = t.ix :=
  Vector.ext fun k hk => h ⟨k, hk⟩

/-- One register set to one Word, the others kept. -/
theorem State.SameView.gpr_of_target (h : s.SameView u) {r : BitVec 2} {w : Word} (target : t.getGpr r = w)
    (others : s.SameGprBut t r) (target' : v.getGpr r = w) (others' : u.SameGprBut v r) : v.gpr = t.gpr :=
  gpr_ext fun k => by
    by_cases hk : k = r
    · rw [hk, target, target']
    · rw [others' k hk, others k hk, h.getGpr]

theorem State.SameView.sameMemory (h : s.SameView u) (k : s.SameMemory t) (l : u.SameMemory v) : t.SameMemory v :=
  fun a ha => (l a ha).trans ((h.memory a ha).trans (k a ha).symm)

theorem State.SameView.sameMemory_of_store (h : s.SameView u) {ea : Nat} {w : Word} (k : s.SameMemoryBut t ea w)
    (l : u.SameMemoryBut v ea w) : t.SameMemory v := fun a ha => by
  obtain ⟨stored, kept⟩ := k
  obtain ⟨stored', kept'⟩ := l
  by_cases hea : a = ea
  · rw [hea, stored, stored']
  · rw [kept' a ha hea, kept a ha hea, h.memory a ha]

end View

/-! ### Faults of the effective address -/

section Faults
variable {i : Instr} {ea : Nat} {s u v : State} {m n : MemorySystem}

/-- E0 raises the fault of its indirection (R186). -/
theorem exec_of_no_address (ready : s.Ready) (user : usesMemory i = true)
    (policy : isArithmetic i = true → s.cfg.arithPolicy = .implement) (missing : s.effectiveAddress i.fields = none) :
    ∃ a m, MemoryKept (enterExecute s) m ∧
      exec i s = .next (takeFault (.illegalMemoryAddress a) { enterExecute s with mem := m }) := by
  have ok : (enterExecute s).MemoryOk := ready.memory.of_mem rfl rfl
  obtain ⟨_, -, ⟨ea, value, -⟩ | ⟨a, -, -, raised⟩⟩ := computeEA_cases ok i.fields
  · cases missing.symm.trans value
  · obtain ⟨-, m, kept, vectors⟩ := handlerTick_ea_raised ready.attended user rfl policy raised
    exact ⟨a, m, kept, ((runPasses_enterExecute i s).mono (j := 1) (by omega)).ends vectors rfl⟩

/-- E1 raises the fault of its address, before or after it sets MAR and MBR (R188, R271). -/
theorem exec_of_unbacked_address (ready : s.Ready) (user : usesMemory i = true)
    (source : ∀ f, i = .stx f → f.x ≠ 0) (policy : isArithmetic i = true → s.cfg.arithPolicy = .implement)
    (value : computeEA i.fields (enterExecute s) = .ok ea v) (invalid : ¬validAddress ea) :
    ∃ m, MemoryKept (enterExecute s) m ∧
      exec i s = .next (takeFault (.illegalMemoryAddress ea)
        (if ea ≤ 8191 then ((enterExecute s).addressed m ea).requesting i else (enterExecute s).addressed m ea)) := by
  obtain ⟨m, kept, attended, passes⟩ := runPasses_addressed ready user policy value
  exact ⟨m, kept, (passes.mono (j := 1) (by omega)).ends (handlerTick_unbacked attended user source rfl invalid) rfl⟩

theorem State.SameView.addressed (h : s.SameView u) (memory : ∀ a, validAddress a → n.memval a = m.memval a) (ea : Nat) :
    (s.addressed m ea).SameView (u.addressed n ea) :=
  ⟨h.gpr, h.ix, h.pc, h.ir, h.msr, h.mfr, h.cc, h.mar, h.mbr, h.alu, rfl, h.imm, h.dec, memory⟩

theorem State.SameView.requesting (h : s.SameView u) (i : Instr) : (s.requesting i).SameView (u.requesting i) :=
  ⟨h.gpr, h.ix, h.pc, h.ir, h.msr, h.mfr, h.cc, congrArg (BitVec.ofNat 13) h.ea, h.requestWord i, h.alu, h.ea, h.imm,
    h.dec, h.memory⟩

theorem State.SameView.enterExecute (h : s.SameView u) : (enterExecute s).SameView (enterExecute u) :=
  ⟨h.gpr, h.ix, h.pc, h.ir, h.msr, h.mfr, h.cc, h.mar, h.mbr, h.alu, h.ea, h.imm, h.dec, h.memory⟩

end Faults

/-! ### Twins execute alike -/

section Twins
variable {i : Instr} {s u : State}

/-- Without an effective address both vector a fault of one code. -/
theorem State.Twins.exec_no_address (h : s.Twins u) (user : usesMemory i = true)
    (policy : isArithmetic i = true → s.cfg.arithPolicy = .implement) (missing : s.effectiveAddress i.fields = none) :
    Alike (exec i s) (exec i u) := by
  have policy' (arith : isArithmetic i = true) := h.cfg.arithPolicy.trans (policy arith)
  obtain ⟨a, m, kept, run⟩ := exec_of_no_address h.ready user policy missing
  obtain ⟨b, n, kept', run'⟩ := exec_of_no_address h.ready' user policy' (h.view.effectiveAddress.trans missing)
  have view : State.SameView { enterExecute s with mem := m } { enterExecute u with mem := n } :=
    { h.view.enterExecute with memory := h.view.enterExecute.kept kept kept' }
  rw [run, run']
  exact .next (view.takeFault h.cfg kept.ok kept'.ok fun _ => rfl)

/-- One effective address for both. -/
theorem State.Twins.exists_address (h : s.Twins u) {ea : Nat} (value : s.effectiveAddress i.fields = some ea) :
    (∃ v, computeEA i.fields (enterExecute s) = .ok ea v) ∧ ∃ v, computeEA i.fields (enterExecute u) = .ok ea v := by
  obtain ⟨v, run, -⟩ := computeEA_of_effectiveAddress (s := enterExecute s) (h.ready.memory.of_mem rfl rfl) value
  obtain ⟨w, run', -⟩ := computeEA_of_effectiveAddress (s := enterExecute u) (h.ready'.memory.of_mem rfl rfl)
    (h.view.effectiveAddress.trans value)
  exact ⟨⟨v, run⟩, w, run'⟩

theorem State.Twins.exec_unbacked (h : s.Twins u) (user : usesMemory i = true) (source : ∀ f, i = .stx f → f.x ≠ 0)
    (policy : isArithmetic i = true → s.cfg.arithPolicy = .implement) {ea : Nat}
    (value : s.effectiveAddress i.fields = some ea) (invalid : ¬validAddress ea) : Alike (exec i s) (exec i u) := by
  have policy' (arith : isArithmetic i = true) := h.cfg.arithPolicy.trans (policy arith)
  obtain ⟨⟨_, address⟩, _, address'⟩ := h.exists_address value
  obtain ⟨m, kept, run⟩ := exec_of_unbacked_address h.ready user source policy address invalid
  obtain ⟨n, kept', run'⟩ := exec_of_unbacked_address h.ready' user source policy' address' invalid
  have view := h.view.enterExecute.addressed (h.view.enterExecute.kept kept kept') ea
  have ok : ((enterExecute s).addressed m ea).MemoryOk := kept.ok.of_mem rfl rfl
  have ok' : ((enterExecute u).addressed n ea).MemoryOk := kept'.ok.of_mem rfl rfl
  rw [run, run']
  split_ifs
  · exact .next ((view.requesting i).takeFault h.cfg (ok.of_mem rfl rfl) (ok'.of_mem rfl rfl) fun _ => rfl)
  · exact .next (view.takeFault h.cfg ok ok' fun _ => rfl)

theorem State.Twins.exec_ldr (h : s.Twins u) {f : Fields} {ea : Nat} (value : s.effectiveAddress f = some ea)
    (valid : validAddress ea) : Alike (exec (.ldr f) s) (exec (.ldr f) u) := by
  obtain ⟨⟨_, address⟩, _, address'⟩ := h.exists_address (i := .ldr f) value
  obtain ⟨t, run, target, others, ix, cc, alu, mar, mbr, eaLatch, imm, special, memory, done⟩ :=
    ldrLoadsTheWord f s _ ea h.ready address valid
  obtain ⟨v, run', target', others', ix', cc', alu', mar', mbr', eaLatch', imm', special', memory', done'⟩ :=
    ldrLoadsTheWord f u _ ea h.ready' address' valid
  have word := h.view.memory ea valid
  rw [run, run']
  exact .next (h.view.of_completed special special' done done'
    (h.view.gpr_of_target target others (target'.trans word) others')
    (by rw [ix', ix, h.view.ix]) (by rw [cc', cc, h.view.cc]) (by rw [alu', alu, h.view.alu])
    (BitVec.eq_of_toNat_eq (mar'.trans mar.symm)) (by rw [mbr', mbr, word]) (by rw [eaLatch', eaLatch])
    (by rw [imm', imm, h.view.imm]) (h.view.sameMemory memory memory'))

theorem State.Twins.exec_store (h : s.Twins u) (store : isStore i = true) (source : ∀ f, i = .stx f → f.x ≠ 0) {ea : Nat}
    (value : s.effectiveAddress i.fields = some ea) (valid : validAddress ea) : Alike (exec i s) (exec i u) := by
  obtain ⟨⟨_, address⟩, _, address'⟩ := h.exists_address value
  obtain ⟨t, run, memory, gpr, ix, cc, alu, mar, mbr, eaLatch, imm, special, done⟩ :=
    store_stores h.ready store source address valid
  obtain ⟨v, run', memory', gpr', ix', cc', alu', mar', mbr', eaLatch', imm', special', done'⟩ :=
    store_stores h.ready' store source address' valid
  rw [h.view.requestWord i] at memory' mbr'
  rw [run, run']
  exact .next (h.view.of_completed special special' done done'
    (by rw [gpr', gpr, h.view.gpr]) (by rw [ix', ix, h.view.ix]) (by rw [cc', cc, h.view.cc])
    (by rw [alu', alu, h.view.alu]) (BitVec.eq_of_toNat_eq (mar'.trans mar.symm)) (by rw [mbr', mbr])
    (by rw [eaLatch', eaLatch]) (by rw [imm', imm, h.view.imm]) (h.view.sameMemory_of_store memory memory'))

theorem LoadsIndex.exec_loads_alike {field : BitVec 2} {j : Fin 3} (index : LoadsIndex i field) (h : s.Twins u) {ea : Nat}
    (value : s.effectiveAddress i.fields = some ea) (valid : validAddress ea) (hj : indexOf field = some j)
    (fits : (s.memval ea).toNat ≤ 8191) : Alike (exec i s) (exec i u) := by
  obtain ⟨⟨_, address⟩, _, address'⟩ := h.exists_address value
  have word : u.memval ea = s.memval ea := h.view.memory ea valid
  obtain ⟨t, run, target, others, gpr, cc, alu, mar, mbr, eaLatch, imm, special, memory, done⟩ :=
    index.loads h.ready address valid hj fits
  obtain ⟨v, run', target', others', gpr', cc', alu', mar', mbr', eaLatch', imm', special', memory', done'⟩ :=
    index.loads h.ready' address' valid hj (word ▸ fits)
  have ix (k : Fin 3) : v.getIx k = t.getIx k := by
    by_cases hk : k = j
    · subst hk
      exact BitVec.eq_of_toNat_eq (by rw [target', target, word])
    · rw [others' k hk, others k hk, h.view.getIx]
  rw [run, run']
  exact .next (h.view.of_completed special special' done done' (by rw [gpr', gpr, h.view.gpr]) (ix_ext ix)
    (by rw [cc', cc, h.view.cc]) (by rw [alu', alu, h.view.alu]) (BitVec.eq_of_toNat_eq (mar'.trans mar.symm))
    (by rw [mbr', mbr, word]) (by rw [eaLatch', eaLatch]) (by rw [imm', imm, h.view.imm])
    (h.view.sameMemory memory memory'))

/-- LDA and LDX stop alike for want of an index register or of room in it (R213, R214, R217). -/
theorem LoadsIndex.exec_alike {field : BitVec 2} (index : LoadsIndex i field) (h : s.Twins u) {ea : Nat}
    (value : s.effectiveAddress i.fields = some ea) (valid : validAddress ea) : Alike (exec i s) (exec i u) := by
  obtain ⟨⟨_, address⟩, _, address'⟩ := h.exists_address value
  have word : u.memval ea = s.memval ea := h.view.memory ea valid
  cases hj : indexOf field with
  | none =>
    rw [index.exec_undefined h.ready address valid hj, index.exec_undefined h.ready' address' valid hj]
    exact .refused _
  | some j =>
    rcases Nat.lt_or_ge 8191 (s.memval ea).toNat with wide | fits
    · rw [index.exec_wide h.ready address valid hj wide, index.exec_wide h.ready' address' valid hj (word ▸ wide)]
      exact .refused _
    · exact index.exec_loads_alike h value valid hj fits

/-! ### The placeholder arithmetic -/

theorem exists_answers (p : Params) {c : AluControl} (adder : c = .add ∨ c = .subtract) (a b : Word) :
    ∃ x, Answers p c a b x := by
  rcases adder with rfl | rfl
  · exact ⟨_, answers_add p a b⟩
  · exact ⟨_, answers_subtract p a b⟩

theorem alu_eq_answered {alu : Alu} {c : AluControl} {x : AdderAnswer} (state : alu.state = .computationFinished)
    (op1 : alu.op1 = none) (op2 : alu.op2 = none) (ctl : alu.ctl = c) (flags : alu.flags = ⟨some x.ov, some x.uf, none⟩)
    (result : alu.result = some (.ofWord x.word)) : alu = .answered c x := by
  obtain ⟨_, _, _, _, _, _⟩ := alu
  simp only at state op1 op2 ctl flags result
  rw [Alu.answered, state, op1, op2, ctl, flags, result]

theorem AluOnMemory.adder {c : AluControl} {r : BitVec 2} (h : AluOnMemory i c r) : c = .add ∨ c = .subtract := by
  cases h with
  | amr f => exact .inl rfl
  | smr f => exact .inr rfl

theorem AluOnImmediate.adder {c : AluControl} {f : Fields} (h : AluOnImmediate i c f) : c = .add ∨ c = .subtract := by
  cases h with
  | air f => exact .inl rfl
  | sir f => exact .inr rfl

theorem AluOnMemory.exec_alike {c : AluControl} {r : BitVec 2} (op : AluOnMemory i c r) (h : s.Twins u)
    (policy : s.cfg.arithPolicy = .implement) {ea : Nat} (value : s.effectiveAddress i.fields = some ea)
    (valid : validAddress ea) : Alike (exec i s) (exec i u) := by
  obtain ⟨⟨_, address⟩, _, address'⟩ := h.exists_address value
  have word : u.memval ea = s.memval ea := h.view.memory ea valid
  obtain ⟨x, answers⟩ := exists_answers s.cfg op.adder (s.getGpr r) (s.memval ea)
  have answers' : Answers u.cfg c (u.getGpr r) (u.memval ea) x := by
    rw [h.view.getGpr, word]
    exact h.cfg.answers answers
  obtain ⟨t, run, target, others, ix, cc, state, op1, op2, ctl, flags, result, mar, mbr, eaLatch, imm, special, memory,
    done⟩ := op.leaves h.ready policy address valid answers
  obtain ⟨v, run', target', others', ix', cc', state', op1', op2', ctl', flags', result', mar', mbr', eaLatch', imm',
    special', memory', done'⟩ := op.leaves h.ready' (h.cfg.arithPolicy.trans policy) address' valid answers'
  rw [cc] at flags
  rw [cc'] at flags'
  have alu := alu_eq_answered state op1 op2 ctl flags result
  have alu' := alu_eq_answered state' op1' op2' ctl' flags' result'
  rw [run, run']
  exact .next (h.view.of_completed special special' done done' (h.view.gpr_of_target target others target' others')
    (by rw [ix', ix, h.view.ix]) (by rw [cc', cc, h.view.cc]) (by rw [alu', alu])
    (BitVec.eq_of_toNat_eq (mar'.trans mar.symm)) (by rw [mbr', mbr, word]) (by rw [eaLatch', eaLatch])
    (by rw [imm', imm, h.view.imm]) (h.view.sameMemory memory memory'))

theorem AluOnImmediate.exec_alike {c : AluControl} {f : Fields} (op : AluOnImmediate i c f) (h : s.Twins u)
    (policy : s.cfg.arithPolicy = .implement) : Alike (exec i s) (exec i u) := by
  obtain ⟨x, answers⟩ := exists_answers s.cfg op.adder (s.getGpr f.r) (immediateOf f)
  have answers' : Answers u.cfg c (u.getGpr f.r) (immediateOf f) x := by
    rw [h.view.getGpr]
    exact h.cfg.answers answers
  obtain ⟨t, run, target, others, ix, cc, state, op1, op2, ctl, flags, result, mar, mbr, eaLatch, imm, special, memory,
    done⟩ := op.leaves h.ready policy answers
  obtain ⟨v, run', target', others', ix', cc', state', op1', op2', ctl', flags', result', mar', mbr', eaLatch', imm',
    special', memory', done'⟩ := op.leaves h.ready' (h.cfg.arithPolicy.trans policy) answers'
  rw [cc] at flags
  rw [cc'] at flags'
  have alu := alu_eq_answered state op1 op2 ctl flags result
  have alu' := alu_eq_answered state' op1' op2' ctl' flags' result'
  rw [run, run']
  exact .next (h.view.of_completed special special' done done' (h.view.gpr_of_target target others target' others')
    (by rw [ix', ix, h.view.ix]) (by rw [cc', cc, h.view.cc]) (by rw [alu', alu])
    (by rw [mar', mar, h.view.mar]) (by rw [mbr', mbr, h.view.mbr]) (by rw [eaLatch', eaLatch, h.view.ea])
    (by rw [imm', imm]) fun a ha => by
      rw [State.memval, State.memval, memory', memory]
      exact h.view.memory a ha)

/-- Under fail_fast both stop (R246); otherwise the two have one policy. -/
theorem State.Twins.exec_arithmetic (h : s.Twins u) (arith : isArithmetic i = true)
    (implement : s.cfg.arithPolicy = .implement → Alike (exec i s) (exec i u)) : Alike (exec i s) (exec i u) := by
  cases policy : s.cfg.arithPolicy with
  | implement => exact implement policy
  | failFast =>
    obtain ⟨run, -⟩ := failFastStopsArithmetic i s arith policy
    obtain ⟨run', -⟩ := failFastStopsArithmetic i u arith (h.cfg.arithPolicy.trans policy)
    rw [run, run']
    exact .refused _

/-! ### Every instruction -/

/-- An instruction with a memory operand, by what its effective address comes to. -/
theorem State.Twins.exec_memory (h : s.Twins u) (user : usesMemory i = true) (source : ∀ f, i = .stx f → f.x ≠ 0)
    (policy : isArithmetic i = true → s.cfg.arithPolicy = .implement)
    (backed : ∀ ea, s.effectiveAddress i.fields = some ea → validAddress ea → Alike (exec i s) (exec i u)) :
    Alike (exec i s) (exec i u) := by
  cases value : s.effectiveAddress i.fields with
  | none => exact h.exec_no_address user policy value
  | some ea =>
    by_cases valid : validAddress ea
    · exact backed ea value valid
    · exact h.exec_unbacked user source policy value valid

/-- STX of index register 0 faults in E0 or stops in E1 (R186, R215). -/
theorem State.Twins.exec_stx_zero (h : s.Twins u) {f : Fields} (hx : f.x = 0) :
    Alike (exec (.stx f) s) (exec (.stx f) u) := by
  cases value : s.effectiveAddress f with
  | none => exact h.exec_no_address (i := .stx f) rfl nofun value
  | some ea =>
    obtain ⟨⟨_, address⟩, _, address'⟩ := h.exists_address (i := .stx f) value
    rw [exec_stx_undefined (f := f) h.ready address hx, exec_stx_undefined (f := f) h.ready' address' hx]
    exact .refused _

theorem State.Twins.opcodeOf_eq (h : s.Twins u) (i : Instr) : opcodeOf u.cfg.opcodes i = opcodeOf s.cfg.opcodes i := by
  rw [h.cfg.opcodes]

theorem State.Twins.exec_alike (h : s.Twins u) (i : Instr) : Alike (exec i s) (exec i u) := by
  cases i with
  | ldr f => exact h.exec_memory rfl nofun nofun fun _ value valid => h.exec_ldr value valid
  | lda f => exact h.exec_memory rfl nofun nofun fun _ value valid => (LoadsIndex.lda f).exec_alike h value valid
  | ldx f => exact h.exec_memory rfl nofun nofun fun _ value valid => (LoadsIndex.ldx f).exec_alike h value valid
  | str f => exact h.exec_memory rfl nofun nofun fun _ value valid => h.exec_store rfl nofun value valid
  | stx f =>
    by_cases hx : f.x = 0
    · exact h.exec_stx_zero hx
    · exact h.exec_memory rfl (source_of_stx hx) nofun fun _ value valid => h.exec_store rfl (source_of_stx hx) value valid
  | amr f =>
    exact h.exec_arithmetic rfl fun policy => h.exec_memory rfl nofun (fun _ => policy) fun _ value valid =>
      (AluOnMemory.amr f).exec_alike h policy value valid
  | smr f =>
    exact h.exec_arithmetic rfl fun policy => h.exec_memory rfl nofun (fun _ => policy) fun _ value valid =>
      (AluOnMemory.smr f).exec_alike h policy value valid
  | air f => exact h.exec_arithmetic rfl fun policy => (AluOnImmediate.air f).exec_alike h policy
  | sir f => exact h.exec_arithmetic rfl fun policy => (AluOnImmediate.sir f).exec_alike h policy
  | jne f | jcc f | sob f | jge f =>
    rw [exec_branch rfl, exec_branch rfl, h.opcodeOf_eq]
    exact .next (h.view.takeFault h.cfg h.ready.memory h.ready'.memory fun _ => rfl)

end Twins

/-! ### The step -/

section Step
variable {s u : State}

/-- Fetch and decode of one Word lead to twins (R181 to R183). -/
theorem State.SameView.fetched {s' u' : State} {w : Word} (h : s.SameView u) (cfg : SameButCache s.cfg u.cfg)
    (fetched : s.Fetched s' w) (fetched' : u.Fetched u' w) : s'.Twins u' where
  ready := fetched.ready
  ready' := fetched'.ready
  cfg := by rw [fetched.cfg, fetched'.cfg]; exact cfg
  view :=
    { gpr := by rw [fetched'.gpr, fetched.gpr, h.gpr]
      ix := by rw [fetched'.ix, fetched.ix, h.ix]
      pc := by rw [fetched'.pc, fetched.pc, h.pc]
      ir := by rw [fetched'.ir, fetched.ir]
      msr := by rw [fetched'.msr, fetched.msr, h.msr]
      mfr := by rw [fetched'.mfr, fetched.mfr, h.mfr]
      cc := by rw [fetched'.cc, fetched.cc, h.cc]
      mar := by rw [fetched'.mar, fetched.mar, h.pc]
      mbr := by rw [fetched'.mbr, fetched.mbr]
      alu := by rw [fetched'.alu, fetched.alu, h.alu]
      ea := by rw [fetched'.ea, fetched.ea, h.ea]
      imm := by rw [fetched'.imm, fetched.imm, h.imm]
      dec := by rw [fetched'.dec, fetched.dec]
      memory := h.sameMemory fetched.memory fetched'.memory }

theorem State.SameView.fetching (h : s.SameView u) : s.fetching.SameView u.fetching :=
  ⟨h.gpr, h.ix, h.pc, h.ir, h.msr, h.mfr, h.cc, h.pc, h.mbr, h.alu, h.ea, h.imm, h.dec, h.memory⟩

theorem step_alike_of_backed_pc (hs : s.Inv) (hu : u.Inv) (cfg : SameButCache s.cfg u.cfg) (h : s.SameView u)
    (valid : validAddress s.pc.toNat) : Alike (step s) (step u) := by
  have word : u.memval u.pc.toNat = s.memval s.pc.toNat := by rw [h.pc, h.memory _ valid]
  obtain ⟨s', fetched, -, run, -⟩ := step_of_backed_pc hs valid
  obtain ⟨u', fetched', -, run', -⟩ := step_of_backed_pc hu (h.pc.symm ▸ valid)
  rw [word] at fetched'
  have twins := h.fetched cfg fetched fetched'
  rw [run, run']
  cases decoded : decode s.cfg.opcodes (s.memval s.pc.toNat) with
  | ok i =>
    rw [executeDecoded_of_decode fetched decoded,
      executeDecoded_of_decode fetched' (by rw [cfg.opcodes]; exact decoded)]
    exact twins.exec_alike i
  | error e =>
    obtain ⟨op⟩ := e
    rw [executeDecoded_of_noMnemonic fetched decoded,
      executeDecoded_of_noMnemonic fetched' (by rw [cfg.opcodes]; exact decoded), execNoHandler_eq, execNoHandler_eq,
      takeFault_enterExecute, takeFault_enterExecute]
    exact .next (twins.view.takeFault twins.cfg twins.ready.memory twins.ready'.memory fun _ => rfl)

theorem step_alike (hs : s.Inv) (hu : u.Inv) (cfg : SameButCache s.cfg u.cfg) (h : s.SameView u) :
    Alike (step s) (step u) := by
  by_cases valid : validAddress s.pc.toNat
  · exact step_alike_of_backed_pc hs hu cfg h valid
  · rw [step_of_unbacked_pc hs valid, step_of_unbacked_pc hu (h.pc.symm ▸ valid)]
    exact .next (h.fetching.takeFault cfg (hs.memory.of_mem rfl rfl) (hu.memory.of_mem rfl rfl) fun _ => rfl)

end Step

/-- Settles O50: the cache setting is the one parameter the two differ in, and no outcome's view depends on it. -/
theorem cacheIsTransparent : Obligations.CacheIsTransparent := by
  intro s u hs hu _ cfg view
  have alike := step_alike hs hu (by rw [SameButCache, cfg]) view
  refine ⟨fun t ht => ?_, fun r hr => ?_⟩
  · rw [ht] at alike
    generalize step u = x at alike
    cases alike with
    | next same => exact ⟨_, rfl, same⟩
  · rw [hr] at alike
    generalize step u = x at alike
    cases alike
    rfl

end Sys2Proof.Machine
end
